-- ==== Sys2Proof/Word.lean ====
section
/-! DEFINITION. Word types of the PWM duty-cycle write sequencer: the command word, the register byte, the channel index. -/

namespace Sys2Proof

/-- One chip register, one duty value, one byte of a transaction (u8). -/
abbrev Byte := BitVec 8

/-- A command word `cmd[63:0]` (R59). -/
abbrev Word := BitVec 64

/-- A channel index 0..7: three bits, so every value names a channel (R63). -/
abbrev Chan := BitVec 3

/-- A 7-bit bus device address (R41; the width is marked general knowledge there). -/
abbrev DevAddr := BitVec 7

end Sys2Proof
end

