-- ==== Sys2Proof/Syntax.lean ====
section
/-! DEFINITION. The commands of the sequencer: one constructor per row of the opcode table (R64), operands as R62/R63
give them. Operand fields keep the width they have in the command word; which values are legal is WellFormed's. -/

namespace Sys2Proof

/-- The command set (R64). Field order inside a constructor follows the bit order of the format (R62), low bits first,
but for `setmode`, whose fields stand as R69 writes them. -/
inductive Instr where
  /-- 0x01, format CM: the mode of one channel, or of all channels when `all` is set (R83). -/
  | setmode (ch : Chan) (mode : BitVec 2) (all : Bool)
  /-- 0x02, format C: report the mode of a channel (R84). -/
  | getmode (ch : Chan)
  /-- 0x03, format CV: write a duty value (R86). -/
  | writeduty (ch : Chan) (val : Byte)
  /-- 0x04, format C: read back a duty value (R87). -/
  | readduty (ch : Chan)
  /-- 0x05, format C: mode On, duty 255 (R88). -/
  | turnon (ch : Chan)
  /-- 0x06, format C: mode Off, duty 0 (R89). -/
  | turnoff (ch : Chan)
  /-- 0x07, format CV: mode PWM, then the duty (R90). -/
  | setpwm (ch : Chan) (val : Byte)
  /-- 0x08, format D: all channels on, or one half-bridge side (R91); `dp` says a direction is given. -/
  | allon (dp : Bool) (dir : Bool)
  /-- 0x09, format N: all channels off (R92). -/
  | alloff
  /-- 0x0A, format F: ramp up from 0 to `tgt` over `dur` milliseconds (R96). -/
  | fadein (ch : Chan) (tgt : Byte) (dur : BitVec 32)
  /-- 0x0B, format F: ramp down from the current duty to `tgt` (R97). -/
  | fadeout (ch : Chan) (tgt : Byte) (dur : BitVec 32)
  /-- 0x0C, format S: speed in RPM and steps per revolution (R107). -/
  | cfgspeed (speed : BitVec 16) (steps : BitVec 16)
  /-- 0x0D, format M: `cnt` signed steps on four channels (R108). -/
  | move (p1 p2 p3 p4 : Chan) (cnt : BitVec 32)
  /-- 0x0E, format N: the initialisation sequence (R117). -/
  | begin
  /-- 0x0F, format N: the broadcast chip reset (R118). -/
  | swreset
  deriving DecidableEq, Repr

/-- The opcode byte `cmd[7:0]` of each command (R60, R64). -/
def Instr.opcode : Instr → Nat
  | .setmode .. => 0x01
  | .getmode .. => 0x02
  | .writeduty .. => 0x03
  | .readduty .. => 0x04
  | .turnon .. => 0x05
  | .turnoff .. => 0x06
  | .setpwm .. => 0x07
  | .allon .. => 0x08
  | .alloff => 0x09
  | .fadein .. => 0x0A
  | .fadeout .. => 0x0B
  | .cfgspeed .. => 0x0C
  | .move .. => 0x0D
  | .begin => 0x0E
  | .swreset => 0x0F

end Sys2Proof
end

