-- ==== Sys2Proof/WellFormed.lean ====
section
/-! DEFINITION. Which commands are legal: the three value checks of R65. Everything else a format can hold is legal. -/

namespace Sys2Proof

/-- The value checks that follow the mask test (R65): in CM, `mode` is not 3 and `ch` is 0 when `all` is set;
in D, `dir` is 0 when `dp` is 0. -/
def Instr.wellFormed : Instr → Bool
  | .setmode ch mode all => mode != 3 && (!all || ch == 0)
  | .allon dp dir => dp || !dir
  | .getmode _ => true
  | .writeduty _ _ => true
  | .readduty _ => true
  | .turnon _ => true
  | .turnoff _ => true
  | .setpwm _ _ => true
  | .alloff => true
  | .fadein _ _ _ => true
  | .fadeout _ _ _ => true
  | .cfgspeed _ _ => true
  | .move _ _ _ _ _ => true
  | .begin => true
  | .swreset => true

end Sys2Proof
end

