-- ==== Sys2Proof/Decode.lean ====
section
/-! DEFINITION. Decoding a command word, total and rejecting by name (R59 to R67), and the encoder written from the
same format table. Each word's decoding from the spec's own examples (R71, 95 section 2.1) stands in Tests/Slice0. -/

namespace Sys2Proof

/-- Why a command word is illegal (R67). -/
inductive Reject where
  /-- not eight bytes (R59, R61) -/
  | badLength
  /-- opcode 0x00 or 0x10..0xFF (R66) -/
  | reservedOpcode
  /-- a reserved bit of the format is 1 (R62) -/
  | reservedBits
  /-- a value check of R65 fails -/
  | badValue
  deriving DecidableEq, Repr

/-- What the decoder answers: a legal command, or the reason there is none. -/
inductive Decoded where
  | instr (i : Instr)
  | illegal (r : Reject)
  deriving DecidableEq, Repr

/-- The command of a decoding, if there is one. -/
def Decoded.toOption : Decoded → Option Instr
  | .instr i => some i
  | .illegal _ => none

/-- The field of `n` bits whose lowest bit is `lo` (R12). -/
def wordField (w : Word) (lo n : Nat) : BitVec n := w.extractLsb' lo n

/-- The bit at position `i`. -/
def wordBit (w : Word) (i : Nat) : Bool := wordField w i 1 == 1

/-- The opcode byte (R60). -/
def opcodeOf (w : Word) : Byte := wordField w 0 8

/-- Whether every reserved range (lowest bit, width) of a format is 0 (R62). -/
def reservedClear (w : Word) (ranges : List (Nat × Nat)) : Bool :=
  ranges.all (fun r => wordField w r.1 r.2 == 0)

/-- Reserved ranges of each format (R62), as (lowest bit, width). -/
def reservedN : List (Nat × Nat) := [(8, 56)]
/-- Format C: `[63:11]`. -/
def reservedC : List (Nat × Nat) := [(11, 53)]
/-- Format CM: `[11]`, `[63:15]`. -/
def reservedCM : List (Nat × Nat) := [(11, 1), (15, 49)]
/-- Format CV: `[15:11]`, `[63:24]`. -/
def reservedCV : List (Nat × Nat) := [(11, 5), (24, 40)]
/-- Format D: `[63:10]`. -/
def reservedD : List (Nat × Nat) := [(10, 54)]
/-- Format F: `[15:11]`, `[31:24]`. -/
def reservedF : List (Nat × Nat) := [(11, 5), (24, 8)]
/-- Format S: `[15:8]`, `[63:48]`. -/
def reservedS : List (Nat × Nat) := [(8, 8), (48, 16)]
/-- Format M: `[11]`, `[15]`, `[19]`, `[31:23]`. -/
def reservedM : List (Nat × Nat) := [(11, 1), (15, 1), (19, 1), (23, 9)]

/-- The `ch` field (also `p1` of format M). -/
def fieldCh (w : Word) : Chan := wordField w 8 3

/-- The command the word's opcode selects with the operands of its format, and the format's reserved ranges (R62, R64);
`none` for a reserved opcode (R66). -/
def readFields (w : Word) : Option (Instr × List (Nat × Nat)) :=
  match (opcodeOf w).toNat with
  | 0x01 => some (.setmode (fieldCh w) (wordField w 12 2) (wordBit w 14), reservedCM)
  | 0x02 => some (.getmode (fieldCh w), reservedC)
  | 0x03 => some (.writeduty (fieldCh w) (wordField w 16 8), reservedCV)
  | 0x04 => some (.readduty (fieldCh w), reservedC)
  | 0x05 => some (.turnon (fieldCh w), reservedC)
  | 0x06 => some (.turnoff (fieldCh w), reservedC)
  | 0x07 => some (.setpwm (fieldCh w) (wordField w 16 8), reservedCV)
  | 0x08 => some (.allon (wordBit w 8) (wordBit w 9), reservedD)
  | 0x09 => some (.alloff, reservedN)
  | 0x0A => some (.fadein (fieldCh w) (wordField w 16 8) (wordField w 32 32), reservedF)
  | 0x0B => some (.fadeout (fieldCh w) (wordField w 16 8) (wordField w 32 32), reservedF)
  | 0x0C => some (.cfgspeed (wordField w 16 16) (wordField w 32 16), reservedS)
  | 0x0D => some (.move (fieldCh w) (wordField w 12 3) (wordField w 16 3) (wordField w 20 3) (wordField w 32 32), reservedM)
  | 0x0E => some (.begin, reservedN)
  | 0x0F => some (.swreset, reservedN)
  | _ => none

/-- Decode a command word: opcode, then reserved bits, then value checks (R60, R62, R65 to R67). -/
def decode (w : Word) : Decoded :=
  match readFields w with
  | none => .illegal .reservedOpcode
  | some (i, reserved) =>
    if reservedClear w reserved then
      if i.wellFormed then .instr i else .illegal .badValue
    else .illegal .reservedBits

/-- The command word carried by bytes, byte 0 the least significant (R61). -/
def wordOfBytes : List Byte → Nat
  | [] => 0
  | b :: bs => b.toNat + 256 * wordOfBytes bs

/-- Decode a command carried as bytes: exactly eight of them (R59, R61). -/
def decodeBytes (bs : List Byte) : Decoded :=
  if bs.length = 8 then decode (BitVec.ofNat 64 (wordOfBytes bs)) else .illegal .badLength

/-- A field value placed with its lowest bit at `lo`; fields of one format do not overlap, so the word is their sum. -/
def placed {n : Nat} (lo : Nat) (v : BitVec n) : Nat := v.toNat * 2 ^ lo

/-- A one-bit field. -/
def placedBit (lo : Nat) (b : Bool) : Nat := if b then 2 ^ lo else 0

/-- The operand bits of a command above its opcode byte (R62). -/
def operandBits : Instr → Nat
  | .setmode ch mode all => placed 8 ch + placed 12 mode + placedBit 14 all
  | .getmode ch => placed 8 ch
  | .writeduty ch val => placed 8 ch + placed 16 val
  | .readduty ch => placed 8 ch
  | .turnon ch => placed 8 ch
  | .turnoff ch => placed 8 ch
  | .setpwm ch val => placed 8 ch + placed 16 val
  | .allon dp dir => placedBit 8 dp + placedBit 9 dir
  | .alloff => 0
  | .fadein ch tgt dur => placed 8 ch + placed 16 tgt + placed 32 dur
  | .fadeout ch tgt dur => placed 8 ch + placed 16 tgt + placed 32 dur
  | .cfgspeed speed steps => placed 16 speed + placed 32 steps
  | .move p1 p2 p3 p4 cnt => placed 8 p1 + placed 12 p2 + placed 16 p3 + placed 20 p4 + placed 32 cnt
  | .begin => 0
  | .swreset => 0

/-- The command word of a command (R62, R64); reserved bits are 0. -/
def encode (i : Instr) : Word := BitVec.ofNat 64 (i.opcode + operandBits i)

/-- The command word as eight bytes, little-endian (R61). -/
def encodeBytes (i : Instr) : List Byte :=
  (List.range 8).map (fun k => (encode i).extractLsb' (8 * k) 8)

/-- Mask of each format (R65), by opcode; the word is the format's when `w &&& mask` is the opcode. -/
def formatMask (op : Nat) : Word :=
  match op with
  | 0x01 => 0xFFFFFFFFFFFF88FF
  | 0x02 => 0xFFFFFFFFFFFFF8FF
  | 0x03 => 0xFFFFFFFFFF00F8FF
  | 0x04 => 0xFFFFFFFFFFFFF8FF
  | 0x05 => 0xFFFFFFFFFFFFF8FF
  | 0x06 => 0xFFFFFFFFFFFFF8FF
  | 0x07 => 0xFFFFFFFFFF00F8FF
  | 0x08 => 0xFFFFFFFFFFFFFCFF
  | 0x09 => 0xFFFFFFFFFFFFFFFF
  | 0x0A => 0x00000000FF00F8FF
  | 0x0B => 0x00000000FF00F8FF
  | 0x0C => 0xFFFF00000000FFFF
  | 0x0D => 0x00000000FF8888FF
  | 0x0E => 0xFFFFFFFFFFFFFFFF
  | 0x0F => 0xFFFFFFFFFFFFFFFF
  | _ => 0

/-- The host's question about one table row: the command read from an instruction whose bits are `w`, every bit at or
above `nbits` being 0, laid out as eight little-endian bytes. -/
def decodeTableWord (nbits w : Nat) : Option Instr :=
  let bits := BitVec.ofNat 64 (w % 2 ^ nbits)
  (decodeBytes ((List.range 8).map (fun k => bits.extractLsb' (8 * k) 8))).toOption

end Sys2Proof
end

