-- ==== Sys2Proof/Config.lean ====
section
/-! DEFINITION. What is fixed for one machine: the named constants of R119, the implementation parameters of R11 and
their reset choice, and the free values (opaque constants without a body). -/

namespace Sys2Proof.Config

/-! ## Named constants (R10, R119) -/

/-- Mode register A, channels 0..3. -/
def modeA : Byte := 0x0C
/-- Mode register B, channels 4..7. -/
def modeB : Byte := 0x0D
/-- Bulk pattern all-off. -/
def bulkOff : Byte := 0x00
/-- Bulk pattern all-on. -/
def bulkOn : Byte := 0x55
/-- Bulk pattern all-PWM. -/
def bulkPwm : Byte := 0xAA
/-- The broadcast reset device id. -/
def resetDev : DevAddr := 0x03
/-- The two reset bytes, 0xA5 first. -/
def resetMagic : List Byte := [0xA5, 0x5A]
/-- INIT0: register address and value of the first write of BEGIN. -/
def init0 : Byte × Byte := (0x00, 0x01)
/-- INIT1: register address and value of the second write of BEGIN. -/
def init1 : Byte × Byte := (0x01, 0x14)
/-- Register address of DUTY[0]. -/
def dutyBase : Byte := 0x02
/-- Duty of an energised stepper role. -/
def phaseOn : Byte := 250
/-- Duty of a de-energised stepper role (R10). -/
def phaseOff : Byte := 0
/-- Full-on duty. -/
def fullOn : Byte := 255
/-- Microseconds in a minute, the numerator of the step delay. -/
def usPerMin : BitVec 32 := 60000000

/-! ## Parameter types (R11) -/

/-- `PHASE_WRITE_OP` (R106). -/
inductive PhaseWriteOp where
  | dutyOnly
  | setPwm
  deriving DecidableEq, Repr

/-- `BUS_FAIL_POLICY` (R15). -/
inductive BusFailPolicy where
  | abort
  | continue_
  deriving DecidableEq, Repr

/-- Where the byte of a successful register read comes from: an arbitrary answer of the transport (R43), or the
reference register file (R44). -/
inductive ReadOracle where
  | transport
  | registerFile
  deriving DecidableEq, Repr

/-- Units of a delay: those of `DelayUs` and `DelayMs` (R14). DESIGN CHOICE (log entry 31): `BEGIN_DELAY2`, whose unit R11
leaves OPEN, is in one of these two. -/
inductive TimeUnit where
  | us
  | ms
  deriving DecidableEq, Repr

/-- A delay: `DelayUs(n)`, `DelayMs(n)`, or the delay of OPEN length and unit that ends BEGIN. -/
structure Delay where
  length : Nat
  unit : TimeUnit
  deriving DecidableEq, Repr

/-- `PAIR_POS` (R73): local channel k has its mode field in pair `slot k`, so at bits `2 * slot k` and the one above.
Every position is even by construction (R79); `wf` is the permutation law. -/
structure PairPos where
  slot0 : Fin 4
  slot1 : Fin 4
  slot2 : Fin 4
  slot3 : Fin 4
  deriving DecidableEq, Repr

/-- The pair of local channel k. -/
def PairPos.slot (p : PairPos) (k : Fin 4) : Fin 4 :=
  match k with
  | 0 => p.slot0
  | 1 => p.slot1
  | 2 => p.slot2
  | 3 => p.slot3

/-- `PAIR_POS(k)`, the lowest bit of the field of local channel k. -/
def PairPos.pos (p : PairPos) (k : Fin 4) : Nat := 2 * (p.slot k).val

/-- The four positions are a permutation of 0, 2, 4, 6 (R73). -/
abbrev PairPos.wf (p : PairPos) : Prop := ∀ j k : Fin 4, j ≠ k → p.slot j ≠ p.slot k

/-- The default `PAIR_POS(k) = 2k`. -/
def PairPos.ascending : PairPos := ⟨0, 1, 2, 3⟩

/-- A row of the commutation table: which two of the roles 1..4 are energised. Exactly two are, so T1 and T2 of R103
hold by construction. -/
inductive PhaseRow where
  | on12
  | on13
  | on14
  | on23
  | on24
  | on34
  deriving DecidableEq, Repr, Inhabited

/-- Whether role r + 1 (r = 0..3) is energised in the row. -/
def PhaseRow.energised (row : PhaseRow) (r : Fin 4) : Bool :=
  match row, r with
  | .on12, 0 => true
  | .on12, 1 => true
  | .on13, 0 => true
  | .on13, 2 => true
  | .on14, 0 => true
  | .on14, 3 => true
  | .on23, 1 => true
  | .on23, 2 => true
  | .on24, 1 => true
  | .on24, 3 => true
  | .on34, 2 => true
  | .on34, 3 => true
  | _, _ => false

/-- `PHASE_TABLE`, forward: one row per phase (R103). -/
structure PhaseTable where
  row0 : PhaseRow
  row1 : PhaseRow
  row2 : PhaseRow
  row3 : PhaseRow
  deriving DecidableEq, Repr, Inhabited

/-- Row of a phase. -/
def PhaseTable.row (t : PhaseTable) (ph : Fin 4) : PhaseRow :=
  match ph with
  | 0 => t.row0
  | 1 => t.row1
  | 2 => t.row2
  | 3 => t.row3

/-- Two rows differ in exactly two roles. -/
def PhaseRow.adjacent (a b : PhaseRow) : Bool :=
  ((List.finRange 4).filter (fun r => a.energised r != b.energised r)).length == 2

/-- T3 of R103, as the spec reads it: consecutive rows (cyclically) differ in exactly two roles, and the four rows are
distinct. -/
abbrev PhaseTable.rotates (t : PhaseTable) : Prop :=
  (∀ ph : Fin 4, (t.row ph).adjacent (t.row (ph + 1)) = true) ∧ ∀ j k : Fin 4, j ≠ k → t.row j ≠ t.row k

/-- The example instance F_EX (R104), for test vectors only. -/
def PhaseTable.example_ : PhaseTable := ⟨.on13, .on23, .on24, .on14⟩

/-- The parameters of R11. The model takes them as an argument: they stand in State and no step changes them. -/
structure Params where
  devAddr : DevAddr
  pairPos : PairPos
  phaseTable : PhaseTable
  phaseWriteOp : PhaseWriteOp
  fadeoutSetsPwm : Bool
  busFail : BusFailPolicy
  clockBits : Nat
  beginDelay1Us : Nat
  beginDelay2 : Delay
  oracle : ReadOracle
  deriving DecidableEq, Repr

/-- What R73, R103 (T3) and D9 ask of the parameters. -/
abbrev Params.wf (p : Params) : Prop := p.pairPos.wf ∧ p.phaseTable.rotates ∧ p.devAddr ≠ resetDev

/-! ## Free values: constants without a body, so nothing can be proved of the value they take -/

/-- Free: picks `DEV_ADDR` among the 127 addresses other than 0x03 (R11, D9). -/
opaque devAddrIndex : Fin 127
/-- Free: `PHASE_TABLE` before T3 is imposed (R103). -/
opaque phaseTableRaw : PhaseTable
/-- Free: `BEGIN_DELAY1_US` (R117). -/
opaque beginDelay1Us : Nat
/-- Free: length of `BEGIN_DELAY2` (R117). -/
opaque beginDelay2Length : Nat
/-- Free: whether `BEGIN_DELAY2` counts milliseconds, else microseconds (R117). That it counts one of the two is the model's
DESIGN CHOICE (log entry 31). -/
opaque beginDelay2Millis : Bool
/-- Free: the reset draw of the direction (R33). -/
opaque resetForward : Bool
/-- Free: the reset draw of the last step timestamp (R33), before reduction to the clock's width. -/
opaque resetTimestamp : Nat
/-- Free: the n-th unscripted byte the transport answers (R15, R43). -/
opaque freeByte : Nat → Byte
/-- Free: the n-th unscripted transaction status, true for ok (R14). -/
opaque freeStatus : Nat → Bool
/-- Free: the n-th unscripted clock sample (R14), before reduction to the clock's width. -/
opaque freeClock : Nat → Nat
/-- Free: what an unknown chip register holds (R34, R44): how often SWRESET or BEGIN has made the chip unknown, how often this
register alone has become so, and the register's address. -/
opaque chipByte : Nat → Nat → Nat → Byte

/-- `DEV_ADDR` of the machine at reset: any 7-bit address but 0x03. -/
def devAddr : DevAddr :=
  if devAddrIndex.val < 3 then BitVec.ofNat 7 devAddrIndex.val else BitVec.ofNat 7 (devAddrIndex.val + 1)

/-- `PHASE_TABLE` of the machine at reset: any table meeting T1 to T3. -/
def phaseTable : PhaseTable :=
  if phaseTableRaw.rotates then phaseTableRaw else PhaseTable.example_

/-- The parameters at reset: the default of R11 where there is one, a free value where R11 says OPEN. -/
def params : Params where
  devAddr := devAddr
  pairPos := PairPos.ascending
  phaseTable := phaseTable
  phaseWriteOp := .dutyOnly
  fadeoutSetsPwm := false
  busFail := .abort
  clockBits := 32
  beginDelay1Us := beginDelay1Us
  beginDelay2 := ⟨beginDelay2Length, if beginDelay2Millis then .ms else .us⟩
  oracle := .transport

end Sys2Proof.Config
end

