-- ==== Sys2Proof/Machine/State.lean ====
section
/-! DEFINITION. The machine's state as plain data: every register of 10_state.md, the micro-sequencer position, the chip
registers as the sequencer knows them, the parameters of R11, the pending inputs from host, transport and clock, and the
trace (R18); and the state after sequencer reset (R33, R34, R140). -/

namespace Sys2Proof.Machine

open Sys2Proof.Config

/-- Mode of a channel (R17, R75). The fourth pattern, 0b11, is no mode: decoding it gives `none`. -/
inductive Mode where
  | off
  | on
  | pwm
  deriving DecidableEq, Repr

/-- `st.direction` (R26). -/
inductive Direction where
  | backward
  | forward
  deriving DecidableEq, Repr

/-- `st.en` (R32). -/
inductive EnLevel where
  | low
  | high
  | undriven
  deriving DecidableEq, Repr

/-- The error kinds a command can end with (R121, codes 1 to 6). -/
inductive ErrorKind where
  | invalidChannelState
  | divisionPrecondition
  | busTransportFailure
  | illegalCommand
  | stepperUnconfigured
  | stepIndexOutOfRange
  deriving DecidableEq, Repr

/-- What a command does with the byte a register read returned. -/
inductive ReadThen where
  /-- `setModeOne`: write back the byte with the field of `c` set to `m` (R81). -/
  | replaceField (c : Chan) (m : Mode)
  /-- GETMODE: report the mode of `c`, or InvalidChannelState (R84). -/
  | reportMode (c : Chan)
  /-- READDUTY: report the byte (R87). -/
  | reportByte
  /-- FADEOUT: the byte is the start duty `d0` (R97). -/
  | rampDown (c : Chan) (tgt : Byte) (dur : BitVec 32)
  deriving DecidableEq, Repr

/-- The primitives of R14, each exactly one micro-operation. The local values of a command (byte read, loop value,
interval; R30) are operands of the micro-operations still to come. -/
inductive MicroOp where
  /-- `chkRead(a)`, then what follows from the byte. -/
  | read (a : Byte) (next : ReadThen)
  /-- `chkWrite(a, v)`. -/
  | write (a v : Byte)
  /-- `chkBus(dev, bytes)`. -/
  | busWrite (dev : DevAddr) (bytes : List Byte)
  /-- `BusInit()`. -/
  | busInit
  /-- `PinWrite(EN, level)`. -/
  | pinWrite (level : Bool)
  /-- `DelayMs(n)`, `DelayUs(n)`, `Delay(BEGIN_DELAY2)`. -/
  | delay (d : Delay)
  /-- The head of MOVE's loop: `ClockRead()` and `advanceIfDue` (R108, R110). -/
  | poll (p1 p2 p3 p4 : Chan)
  /-- `respond(OK, data)`. -/
  | respond (data : Byte)
  /-- `raise E(info)`. -/
  | raise (e : ErrorKind) (info : Nat)
  deriving DecidableEq, Repr

/-- `st.seq` (R30): Idle, or Busy with the command word held, the position as the micro-operations still to perform (the
first is the next), and the number of transactions the command has made (the index R15 reports). -/
inductive Seq where
  | idle
  | busy (cmd : Word) (pos : List MicroOp) (txn : Nat)
  deriving DecidableEq, Repr

/-- One entry of the trace (R18): a micro-operation with its arguments, status and returned value, or a response. -/
inductive Event where
  /-- register read: device, address, status, the byte used (none after a failed read that ends the command) -/
  | memRead (dev : DevAddr) (a : Byte) (ok : Bool) (value : Option Byte)
  /-- register write `[a, v]` to the device, with its status -/
  | memWrite (dev : DevAddr) (a v : Byte) (ok : Bool)
  /-- raw bus write with its status -/
  | busWrite (dev : DevAddr) (bytes : List Byte) (ok : Bool)
  | busInit
  | pinWrite (level : Bool)
  | delay (d : Delay)
  | clockRead (now : Nat)
  /-- response (OK, data) -/
  | responded (data : Byte)
  /-- response (code of e, 0) with the info R121 lists -/
  | raised (e : ErrorKind) (info : Nat)
  deriving DecidableEq, Repr

/-- `st.numberSteps` and `st.stepDelayMicros`: written together by CFGSPEED, so either both hold a value or neither
does (R22, R23). -/
structure Speed where
  numberSteps : BitVec 16
  stepDelayMicros : BitVec 32
  deriving DecidableEq, Repr

/-- The chip's registers as the sequencer knows them (R34, R44): register address and byte, addresses strictly rising;
an address not listed is unknown. -/
abbrev Memory := List Host.Cell

/-- The state of the machine. -/
structure State where
  /-- `st.numberSteps`, `st.stepDelayMicros`; `none` is the spec's own "unwritten" (R22, R23, R33) -/
  speed : Option Speed
  /-- `st.stepsRemaining` (R24) -/
  stepsRemaining : BitVec 32
  /-- `st.currentStepIndex` (R25) -/
  currentStepIndex : BitVec 16
  /-- `st.direction` (R26) -/
  direction : Direction
  /-- `st.lastStepTimestamp` (R27), a clock value below 2^CLOCK_BITS; a number because its width is a parameter -/
  lastStepTimestamp : Nat
  /-- `st.status` (R28) -/
  status : Byte
  /-- `st.data` (R29) -/
  data : Byte
  /-- `st.seq` (R30) -/
  seq : Seq
  /-- `st.en` (R32) -/
  en : EnLevel
  /-- chip registers at DEV_ADDR (R34, R42, R44) -/
  chip : Memory
  /-- the parameters of R11; no step changes them -/
  params : Params
  /-- commands the host will present, in order (R143) -/
  cmdIn : List Word
  /-- statuses of the next transactions, true for ok (R14) -/
  statusIn : List Bool
  /-- bytes the transport answers to the next reads under the free oracle (R43) -/
  readIn : List Byte
  /-- values of the next clock samples (R14, R134) -/
  clockIn : List Nat
  /-- the model's own: how many free inputs have been drawn -/
  draws : Nat
  /-- the model's own: how often SWRESET or BEGIN has made the chip unknown -/
  epoch : Nat
  /-- the model's own: the address of each register that became unknown alone, the latest first -/
  lost : List Nat
  /-- the trace so far, oldest entry first (R18) -/
  trace : List Event
  deriving DecidableEq, Repr

/-- Why the machine stops. The spec gives it no such case: every error of R121 is a next state. -/
inductive Fault where
  /-- Raised by `step` and by a meaning that resumes, in a state whose `seq` is Busy with a command word that does not
  decode or with no micro-operation left. No run reaches such a state. Safe. -/
  | scriptLost
  deriving DecidableEq, Repr

/-- Why an instruction is refused. -/
inductive Refusal where
  /-- Raised by an arm of `exec` whose instruction has no meaning yet. Safe. -/
  | notModelled (mnemonic : String)
  /-- Raised by a meaning asked to start a command while another is Busy: the host has no such move (R143). `step` never
  asks. Safe. -/
  | notAccepted
  deriving DecidableEq, Repr

/-- Sequencer reset (R33, R34, R140). -/
def State.reset : State where
  speed := none
  stepsRemaining := 0
  currentStepIndex := 0
  direction := if resetForward then .forward else .backward
  lastStepTimestamp := resetTimestamp % 2 ^ 32
  status := 0
  data := 0
  seq := .idle
  en := .undriven
  chip := []
  params := Config.params
  cmdIn := []
  statusIn := []
  readIn := []
  clockIn := []
  draws := 0
  epoch := 0
  lost := []
  trace := []

end Sys2Proof.Machine
end

