-- ==== Sys2Proof/Machine/Flags.lean ====
section
/-! DEFINITION. `st.status` is the only flag register (R28): its codes (R121), and the numeric codes of modes and
directions. -/

namespace Sys2Proof.Machine

/-- Status code OK (R121). -/
def statusOk : Byte := 0

/-- Status codes 1 to 6 (R121). -/
def statusCode : ErrorKind → Byte
  | .invalidChannelState => 1
  | .divisionPrecondition => 2
  | .busTransportFailure => 3
  | .illegalCommand => 4
  | .stepperUnconfigured => 5
  | .stepIndexOutOfRange => 6

/-- The field code of a mode (R16, R75); also the data GETMODE reports (R84). -/
def modeCode : Mode → BitVec 2
  | .off => 0b00
  | .on => 0b01
  | .pwm => 0b10

/-- The mode a 2-bit code stands for; 0b11 stands for none (R75, R76). -/
def modeOfCode (f : BitVec 2) : Option Mode :=
  match f.toNat with
  | 0 => some .off
  | 1 => some .on
  | 2 => some .pwm
  | _ => none

/-- `Backward = 0`, `Forward = 1` (R26). -/
def directionCode : Direction → BitVec 1
  | .backward => 0
  | .forward => 1

end Sys2Proof.Machine
end

