-- ==== Sys2Proof/Machine/Operands.lean ====
section
/-! DEFINITION. Operand forms and pure arithmetic: channel to register mapping and the mode-field codec (R16, R72 to R78),
the ramp values and intervals (R95 to R97), the step arithmetic and the phase table (R102 to R110). -/

namespace Sys2Proof.Machine

open Sys2Proof.Config

/-! ## Registers of a channel -/

/-- `modeReg(c)` (R16, R72). -/
def modeReg (c : Chan) : Byte := if c.toNat < 4 then modeA else modeB

/-- `local(c)`: the index within the mode register, c or c - 4 (R16, R72). -/
def localIndex (c : Chan) : Fin 4 := ⟨c.toNat % 4, Nat.mod_lt _ (by decide)⟩

/-- `dutyReg(c) = c + 2` (R16, R85). -/
def dutyReg (c : Chan) : Byte := c.setWidth 8 + dutyBase

/-! ## Mode-field codec -/

/-- `decodeField(b, k)`; `none` is Invalid (R76). -/
def decodeField (pp : PairPos) (b : Byte) (k : Fin 4) : Option Mode :=
  modeOfCode ((b >>> pp.pos k).setWidth 2)

/-- `encodeField(b, k, m)`: clear the field, then set it (R77). -/
def encodeField (pp : PairPos) (b : Byte) (k : Fin 4) (m : Mode) : Byte :=
  (b &&& ~~~((0b11 : Byte) <<< pp.pos k)) ||| ((modeCode m).setWidth 8 <<< pp.pos k)

/-- `bulk(m)` (R16, R78). -/
def bulk : Mode → Byte
  | .off => bulkOff
  | .on => bulkOn
  | .pwm => bulkPwm

/-! ## Ramps -/

/-- The step interval `dur / n` in milliseconds, n at most 255 (R95). -/
def rampInterval (dur : BitVec 32) (n : Byte) : BitVec 32 := dur / n.setWidth 32

/-- The duty values of FADEIN: 0, 1, ..., tgt (R96). -/
def rampUpValues (tgt : Byte) : List Byte := (List.range (tgt.toNat + 1)).map (BitVec.ofNat 8)

/-- The duty values of FADEOUT: d0, d0 - 1, ..., tgt (R97). -/
def rampDownValues (d0 tgt : Byte) : List Byte :=
  (List.range (d0.toNat - tgt.toNat + 1)).map (fun j => d0 - BitVec.ofNat 8 j)

/-! ## Steps -/

/-- `60000000 / steps / speed`, two truncating u32 divisions (R107). -/
def stepDelay (speed steps : BitVec 16) : BitVec 32 := (usPerMin / steps.setWidth 32) / speed.setWidth 32

/-- `|cnt|` as u32, 0 .. 2^31 (R108). -/
def stepCount (cnt : BitVec 32) : BitVec 32 := BitVec.ofNat 32 cnt.toInt.natAbs

/-- `st.direction` after MOVE's start: by the sign of the count, kept when it is 0 (R108, R113). -/
def moveDirection (cnt : BitVec 32) (old : Direction) : Direction :=
  if 0 < cnt.toInt then .forward else if cnt.toInt < 0 then .backward else old

/-- `(now - last) mod 2^CLOCK_BITS` (R110). -/
def elapsed (clockBits now last : Nat) : Nat :=
  (now + (2 ^ clockBits - last % 2 ^ clockBits)) % 2 ^ clockBits

/-- The index after a step, wrapping at `numberSteps` (R110). -/
def nextIndex (d : Direction) (numberSteps index : BitVec 16) : BitVec 16 :=
  match d with
  | .forward => if index + 1 = numberSteps then 0 else index + 1
  | .backward => (if index = 0 then numberSteps else index) - 1

/-- `currentStepIndex mod 4` (R102). -/
def phaseOf (index : BitVec 16) : Fin 4 := ⟨index.toNat % 4, Nat.mod_lt _ (by decide)⟩

/-- `F[ph][r + 1]` for r = 0..3 (R103). -/
def forwardDuty (t : PhaseTable) (ph r : Fin 4) : Byte :=
  if (t.row ph).energised r then phaseOn else phaseOff

/-- `T[ph][r + 1]` for r = 0..3: F forward; backward the roles 1 and 4, 2 and 3 are swapped (R105, R106). -/
def phaseDuty (t : PhaseTable) (d : Direction) (ph r : Fin 4) : Byte :=
  match d with
  | .forward => forwardDuty t ph r
  | .backward => forwardDuty t ph r.rev

end Sys2Proof.Machine
end

