-- ==== Sys2Proof/Machine/Ops.lean ====
section
/-! DEFINITION. The shared operations: the chip register file (R44), the inputs (R14), ending a command by `respond` or
`raise` (R14, R130), each micro-operation (R14, R15), the poll step (R110), and running a command (R30, R67). -/

namespace Sys2Proof.Machine

open Sys2Proof.Config

/-! ## The chip register file (R44) -/

/-- The known byte of register `a`, if it is known. -/
def Memory.read : Memory → Nat → Option Byte
  | [], _ => none
  | (x, v) :: rest, a => if x = a then some v else Memory.read rest a

/-- Register `a` becomes unknown. -/
def Memory.forget (m : Memory) (a : Nat) : Memory := m.filter (fun c => c.1 != a)

/-- Insert a cell before the first greater address. -/
def Memory.insert (cell : Host.Cell) : Memory → Memory
  | [] => [cell]
  | c :: rest => if cell.1 < c.1 then cell :: c :: rest else c :: Memory.insert cell rest

/-- Register `a` becomes known with value `v`. -/
def Memory.write (m : Memory) (a : Nat) (v : Byte) : Memory := Memory.insert (a, v) (Memory.forget m a)

/-- The canonical form: addresses strictly rising, all 8-bit (R41). -/
abbrev Memory.wf (m : Memory) : Prop := m.Pairwise (fun x y => x.1 < y.1) ∧ ∀ c ∈ m, c.1 < 256

/-- What an unlisted (unknown) register holds: an unconstrained byte, the same at every read until this register next
becomes unknown (R34, R44, R46). -/
def unlistedByte (s : State) (a : Nat) : Byte := chipByte s.epoch (s.lost.count a) a

/-- What the reference register file answers for register `a` (R44). -/
def chipHolds (s : State) (a : Nat) : Byte := (Memory.read s.chip a).getD (unlistedByte s a)

/-- A successful register write (R44). -/
def storeReg (a v : Byte) (s : State) : State := { s with chip := Memory.write s.chip a.toNat v }

/-- A failed register write: the register, and no other, becomes unknown (R127, D11). -/
def forgetReg (a : Byte) (s : State) : State :=
  { s with chip := Memory.forget s.chip a.toNat, lost := a.toNat :: s.lost }

/-- Every chip register becomes unknown (R34, R44, R118). -/
def forgetChip (s : State) : State := { s with chip := [], epoch := s.epoch + 1 }

/-- The chip once BEGIN has initialised the bus: every register but 0x00 and 0x01 becomes unknown (R34 with
93_implementation_defined.md U2). DESIGN CHOICE (log entry 30): this happens at BusInit, so a BEGIN that ends at a failed
write has done it too. -/
def forgetBesideInit (s : State) : State :=
  { s with
    chip := s.chip.filter (fun c => c.1 == init0.1.toNat || c.1 == init1.1.toNat)
    epoch := s.epoch + 1 }

/-- The chip after a raw bus write (R44, R118): a write to the broadcast reset id, and one that is no register write,
leaves every register unknown; `[a, v]` to DEV_ADDR is a register write. -/
def busEffect (dev : DevAddr) (bytes : List Byte) (ok : Bool) (s : State) : State :=
  if dev = resetDev then forgetChip s
  else if dev = s.params.devAddr then
    match bytes with
    | [a, v] => if ok then storeReg a v s else forgetReg a s
    | _ => forgetChip s
  else forgetChip s

/-! ## Inputs: scripted first, free values after (R14, R43, R134) -/

/-- Status of the next transaction. -/
def nextStatus (s : State) : Bool :=
  match s.statusIn with
  | b :: _ => b
  | [] => freeStatus s.draws

/-- The state once that status is taken. -/
def popStatus (s : State) : State :=
  match s.statusIn with
  | _ :: rest => { s with statusIn := rest }
  | [] => { s with draws := s.draws + 1 }

/-- The next unconstrained byte of the transport. -/
def nextByte (s : State) : Byte :=
  match s.readIn with
  | b :: _ => b
  | [] => freeByte s.draws

/-- The state once that byte is taken. -/
def popByte (s : State) : State :=
  match s.readIn with
  | _ :: rest => { s with readIn := rest }
  | [] => { s with draws := s.draws + 1 }

/-- The byte a successful read of register `a` answers: any byte (R43), or the register file's (R44). -/
def answerByte (a : Byte) (s : State) : Byte :=
  match s.params.oracle with
  | .transport => nextByte s
  | .registerFile => chipHolds s a.toNat

/-- The state once that answer is taken. -/
def popAnswer (s : State) : State :=
  match s.params.oracle with
  | .transport => popByte s
  | .registerFile => s

/-- `ClockRead()`: the next clock sample, CLOCK_BITS wide (R14, R134). -/
def nextClock (s : State) : Nat :=
  (match s.clockIn with
   | t :: _ => t
   | [] => freeClock s.draws) % 2 ^ s.params.clockBits

/-- The state once that sample is taken. -/
def popClock (s : State) : State :=
  match s.clockIn with
  | _ :: rest => { s with clockIn := rest }
  | [] => { s with draws := s.draws + 1 }

/-! ## The trace and the end of a command -/

/-- Append an entry to the trace (R18). -/
def emit (e : Event) (s : State) : State := { s with trace := s.trace ++ [e] }

/-- `respond(OK, data)` (R14, R28 to R30). -/
def respond (data : Byte) (s : State) : State :=
  emit (.responded data) { s with status := statusOk, data := data, seq := .idle }

/-- `raise E(info)`, the one way an error is taken (R14, R130): status and data are set, the response is recorded, the
sequencer is Idle; nothing else changes and there is nothing to return from (R131). -/
def raise (e : ErrorKind) (info : Nat) (s : State) : State :=
  emit (.raised e info) { s with status := statusCode e, data := 0, seq := .idle }

/-- Go on with the micro-operations `pos` of command `cmd`, `txn` transactions made so far (R30). -/
def goOn (cmd : Word) (pos : List MicroOp) (txn : Nat) (s : State) : State :=
  { s with seq := .busy cmd pos txn }

/-- After a failed transaction, the `txn`-th of the command: Abort raises, Continue goes on (R15, R124). -/
def afterFailure (cmd : Word) (pos : List MicroOp) (txn : Nat) (s : State) : State :=
  match s.params.busFail with
  | .abort => raise .busTransportFailure txn s
  | .continue_ => goOn cmd pos (txn + 1) s

/-! ## Scripts: the micro-operations of the sub-procedures -/

/-- `setModeOne(c, m)`: read the mode register, write it back (R81). -/
def setModeOne (c : Chan) (m : Mode) : List MicroOp := [.read (modeReg c) (.replaceField c m)]

/-- `setModeAll(m)`: register A, then B, no read (R82). -/
def setModeAll (m : Mode) : List MicroOp := [.write modeA (bulk m), .write modeB (bulk m)]

/-- A ramp of channel c: each duty value is written, then the interval waited (R96, R97). -/
def ramp (c : Chan) (interval : BitVec 32) (values : List Byte) : List MicroOp :=
  values.flatMap (fun v => [.write (dutyReg c) v, .delay ⟨interval.toNat, .ms⟩])

/-- `phaseWrite(ph, dir, p1, p2, p3, p4)`: roles 1 to 4 in order (R106). -/
def phaseWrite (pr : Params) (ph : Fin 4) (d : Direction) (p1 p2 p3 p4 : Chan) : List MicroOp :=
  [((0 : Fin 4), p1), (1, p2), (2, p3), (3, p4)].flatMap (fun role =>
    (match pr.phaseWriteOp with
     | .dutyOnly => []
     | .setPwm => setModeOne role.2 .pwm) ++
    [.write (dutyReg role.2) (phaseDuty pr.phaseTable d ph role.1)])

/-- FADEOUT once the start duty `d0` is read (R97): the precondition, then the ramp and the mode changes around it. -/
def fadeOutFrom (pr : Params) (c : Chan) (d0 tgt : Byte) (dur : BitVec 32) : List MicroOp :=
  if d0 ≤ tgt then [.raise .divisionPrecondition d0.toNat]
  else
    (if pr.fadeoutSetsPwm then setModeOne c .pwm else []) ++
    ramp c (rampInterval dur (d0 - tgt)) (rampDownValues d0 tgt) ++
    (if tgt = 0 then setModeOne c .off else [])

/-- What follows a register read that returned `b`. -/
def afterRead (pr : Params) (next : ReadThen) (b : Byte) : List MicroOp :=
  match next with
  | .replaceField c m => [.write (modeReg c) (encodeField pr.pairPos b (localIndex c) m)]
  | .reportMode c =>
    match decodeField pr.pairPos b (localIndex c) with
    | some m => [.respond ((modeCode m).setWidth 8)]
    | none => [.raise .invalidChannelState c.toNat]
  | .reportByte => [.respond b]
  | .rampDown c tgt dur => fadeOutFrom pr c b tgt dur

/-! ## One micro-operation (R14, R15) -/

/-- `chkRead(a)` (R14, R15). Under Continue a failed read answers an unconstrained byte. -/
def chkRead (a : Byte) (next : ReadThen) (cmd : Word) (rest : List MicroOp) (txn : Nat) (s : State) : State :=
  let t := popStatus s
  if nextStatus s then
    let b := answerByte a t
    goOn cmd (afterRead s.params next b ++ rest) (txn + 1)
      (emit (.memRead s.params.devAddr a true (some b)) (popAnswer t))
  else
    match s.params.busFail with
    | .abort => raise .busTransportFailure txn (emit (.memRead s.params.devAddr a false none) t)
    | .continue_ =>
      let b := nextByte t
      goOn cmd (afterRead s.params next b ++ rest) (txn + 1)
        (emit (.memRead s.params.devAddr a false (some b)) (popByte t))

/-- `chkWrite(a, v)` (R14, R15, R127). -/
def chkWrite (a v : Byte) (cmd : Word) (rest : List MicroOp) (txn : Nat) (s : State) : State :=
  let t := emit (.memWrite s.params.devAddr a v (nextStatus s)) (popStatus s)
  if nextStatus s then goOn cmd rest (txn + 1) (storeReg a v t)
  else afterFailure cmd rest txn (forgetReg a t)

/-- `chkBus(dev, bytes)` (R14, R15, R118). -/
def chkBus (dev : DevAddr) (bytes : List Byte) (cmd : Word) (rest : List MicroOp) (txn : Nat) (s : State) : State :=
  let t := busEffect dev bytes (nextStatus s) (emit (.busWrite dev bytes (nextStatus s)) (popStatus s))
  if nextStatus s then goOn cmd rest (txn + 1) t else afterFailure cmd rest txn t

/-- The register updates of a step made at clock sample `now` (R110). -/
def advance (c : Speed) (now : Nat) (s : State) : State :=
  { s with
    lastStepTimestamp := now
    currentStepIndex := nextIndex s.direction c.numberSteps s.currentStepIndex
    stepsRemaining := s.stepsRemaining - 1 }

/-- The head of MOVE's loop (R108, R110): leave it when no step is pending; else sample the clock, and when the step is
due make it and its phase writes. A loop head reached unconfigured raises StepperUnconfigured, as every rule that would
read an unwritten register does (R33). -/
def pollStep (p1 p2 p3 p4 : Chan) (cmd : Word) (rest : List MicroOp) (txn : Nat) (s : State) : State :=
  if s.stepsRemaining = 0 then goOn cmd rest txn s
  else
    match s.speed with
    | none => raise .stepperUnconfigured 0 s
    | some c =>
      let now := nextClock s
      let t := emit (.clockRead now) (popClock s)
      if elapsed s.params.clockBits now s.lastStepTimestamp < c.stepDelayMicros.toNat then
        goOn cmd (.poll p1 p2 p3 p4 :: rest) txn t
      else
        let u := advance c now t
        goOn cmd
          (phaseWrite s.params (phaseOf u.currentStepIndex) u.direction p1 p2 p3 p4 ++
            (if u.stepsRemaining = 0 then rest else .poll p1 p2 p3 p4 :: rest))
          txn u

/-- Perform one micro-operation of command `cmd`, `rest` being those after it (R14, R30). -/
def perform (op : MicroOp) (cmd : Word) (rest : List MicroOp) (txn : Nat) (s : State) : State :=
  match op with
  | .read a next => chkRead a next cmd rest txn s
  | .write a v => chkWrite a v cmd rest txn s
  | .busWrite dev bytes => chkBus dev bytes cmd rest txn s
  | .busInit => goOn cmd rest txn (emit .busInit (forgetBesideInit s))
  | .pinWrite level =>
    goOn cmd rest txn (emit (.pinWrite level) { s with en := if level then .high else .low })
  | .delay d => goOn cmd rest txn (emit (.delay d) s)
  | .poll p1 p2 p3 p4 => pollStep p1 p2 p3 p4 cmd rest txn s
  | .respond data => respond data s
  | .raise e info => raise e info s

/-- The next micro-operation of a Busy sequencer. -/
def micro (s : State) : State :=
  match s.seq with
  | .busy cmd (op :: rest) txn => perform op cmd rest txn s
  | .busy _ [] _ => s
  | .idle => s

/-! ## Running a command -/

/-- Where one step of the model ends: the command has responded, or MOVE is at the head of its poll loop (R108, R115). -/
def paused (s : State) : Bool :=
  match s.seq with
  | .idle => true
  | .busy _ [] _ => true
  | .busy _ (.poll _ _ _ _ :: _) _ => true
  | .busy _ _ _ => false

/-- Micro-operations one after another until the step ends, at most `n`. -/
def runScript : Nat → State → State
  | 0, s => s
  | n + 1, s => if paused (micro s) then micro s else runScript n (micro s)

/-- A bound on the micro-operations that performing `op` brings before the step ends, itself included. -/
def opWeight : MicroOp → Nat
  | .read _ (.rampDown _ _ _) => 517
  | .read _ _ => 2
  | .poll _ _ _ _ => 13
  | _ => 1

/-- A bound for a whole script. -/
def weight : List MicroOp → Nat
  | [] => 0
  | op :: rest => opWeight op + weight rest

/-- Perform `pos` from its first micro-operation until the step ends. -/
def runFrom (cmd : Word) (pos : List MicroOp) (txn : Nat) (s : State) : State :=
  runScript (weight pos) (goOn cmd pos txn s)

/-- Run the command `i`. When Idle it is accepted: an ill-formed one raises IllegalCommand (R67), else its script `pos`
is performed from `start`, the state with the registers the command writes before its first micro-operation. When Busy
with this very command, it goes on from where it stands (R30). -/
def runCommand (i : Instr) (start : State) (pos : List MicroOp) (s : State) :
    Host.Outcome State Fault Refusal :=
  match s.seq with
  | .idle =>
    if i.wellFormed then .next (runFrom (encode i) pos 0 start)
    else .next (raise .illegalCommand i.opcode s)
  | .busy _ [] _ => .fault .scriptLost
  | .busy cmd (op :: rest) txn =>
    if cmd = encode i then .next (runFrom cmd (op :: rest) txn s) else .refused .notAccepted

end Sys2Proof.Machine
end

