-- ==== Sys2Proof/Machine/Fade.lean ====
section
/-! DEFINITION. Meanings of the fade family: FADEIN, FADEOUT (R95 to R97). -/

namespace Sys2Proof.Machine

open Sys2Proof.Config

/-- FADEIN (R96): the precondition comes before any transaction (R126). -/
def scriptFadein (ch : Chan) (tgt : Byte) (dur : BitVec 32) : List MicroOp :=
  if tgt = 0 then [.raise .divisionPrecondition 0]
  else
    setModeOne ch .pwm ++ ramp ch (rampInterval dur tgt) (rampUpValues tgt) ++
    (if tgt = 255 then setModeOne ch .on else []) ++ [.respond 0]

/-- FADEIN (R96). -/
def execFadein (ch : Chan) (tgt : Byte) (dur : BitVec 32) (s : State) : Host.Outcome State Fault Refusal :=
  runCommand (.fadein ch tgt dur) s (scriptFadein ch tgt dur) s

/-- FADEOUT (R97): the start duty is read first; `fadeOutFrom` is the rest. -/
def scriptFadeout (ch : Chan) (tgt : Byte) (dur : BitVec 32) : List MicroOp :=
  [.read (dutyReg ch) (.rampDown ch tgt dur), .respond 0]

/-- FADEOUT (R97). -/
def execFadeout (ch : Chan) (tgt : Byte) (dur : BitVec 32) (s : State) : Host.Outcome State Fault Refusal :=
  runCommand (.fadeout ch tgt dur) s (scriptFadeout ch tgt dur) s

end Sys2Proof.Machine
end

