-- ==== Sys2Proof/Machine/Init.lean ====
section
/-! DEFINITION. Meanings of the initialisation family: BEGIN, SWRESET (R117, R118). -/

namespace Sys2Proof.Machine

open Sys2Proof.Config

/-- BEGIN (R117). Its BusInit leaves every chip register but 0x00 and 0x01 unknown (`forgetBesideInit`). -/
def scriptBegin (pr : Params) : List MicroOp :=
  [.pinWrite false, .busInit, .write init0.1 init0.2, .delay ⟨pr.beginDelay1Us, .us⟩,
   .write init1.1 init1.2, .delay pr.beginDelay2, .respond 0]

/-- BEGIN (R117). -/
def execBegin (s : State) : Host.Outcome State Fault Refusal :=
  runCommand .begin s (scriptBegin s.params) s

/-- SWRESET (R118). -/
def scriptSwreset : List MicroOp := [.busWrite resetDev resetMagic, .respond 0]

/-- SWRESET (R118). -/
def execSwreset (s : State) : Host.Outcome State Fault Refusal := runCommand .swreset s scriptSwreset s

end Sys2Proof.Machine
end

