-- ==== Sys2Proof/Machine/ModeCodec.lean ====
section
/-! DEFINITION. Meanings of the mode-codec family: SETMODE, GETMODE (R83, R84). -/

namespace Sys2Proof.Machine

open Sys2Proof.Config

/-- SETMODE (R83). The operand value 3 is illegal (R65, R67). -/
def scriptSetmode (ch : Chan) (mode : BitVec 2) (all : Bool) : List MicroOp :=
  match modeOfCode mode with
  | some m => (if all then setModeAll m else setModeOne ch m) ++ [.respond 0]
  | none => [.raise .illegalCommand 0x01]

/-- SETMODE (R83). -/
def execSetmode (ch : Chan) (mode : BitVec 2) (all : Bool) (s : State) : Host.Outcome State Fault Refusal :=
  runCommand (.setmode ch mode all) s (scriptSetmode ch mode all) s

/-- GETMODE (R84): the response is made by what follows the read. -/
def scriptGetmode (ch : Chan) : List MicroOp := [.read (modeReg ch) (.reportMode ch)]

/-- GETMODE (R84). -/
def execGetmode (ch : Chan) (s : State) : Host.Outcome State Fault Refusal :=
  runCommand (.getmode ch) s (scriptGetmode ch) s

end Sys2Proof.Machine
end

