-- ==== Sys2Proof/Machine/PwmEngine.lean ====
section
/-! DEFINITION. Meanings of the PWM-engine family: WRITEDUTY, READDUTY, TURNON, TURNOFF, SETPWM, ALLON, ALLOFF
(R85 to R92). -/

namespace Sys2Proof.Machine

open Sys2Proof.Config

/-- All eight channels, ascending. -/
def allChannels : List Chan := [0, 1, 2, 3, 4, 5, 6, 7]

/-- The channels ALLON selects with a direction: even ones forward, odd ones backward (R91). -/
def sideChannels (dir : Bool) : List Chan := if dir then [0, 2, 4, 6] else [1, 3, 5, 7]

/-- Mode m, then duty v, of one channel (R88 to R90). -/
def modeThenDuty (c : Chan) (m : Mode) (v : Byte) : List MicroOp := setModeOne c m ++ [.write (dutyReg c) v]

/-- Every mode register, then every duty register, in bulk (R91, R92). -/
def bulkModeThenDuty (m : Mode) (v : Byte) : List MicroOp :=
  setModeAll m ++ allChannels.map (fun c => .write (dutyReg c) v)

/-- WRITEDUTY (R86). -/
def scriptWriteduty (ch : Chan) (val : Byte) : List MicroOp := [.write (dutyReg ch) val, .respond 0]

/-- WRITEDUTY (R86). -/
def execWriteduty (ch : Chan) (val : Byte) (s : State) : Host.Outcome State Fault Refusal :=
  runCommand (.writeduty ch val) s (scriptWriteduty ch val) s

/-- READDUTY (R87): the response carries the byte read. -/
def scriptReadduty (ch : Chan) : List MicroOp := [.read (dutyReg ch) .reportByte]

/-- READDUTY (R87). -/
def execReadduty (ch : Chan) (s : State) : Host.Outcome State Fault Refusal :=
  runCommand (.readduty ch) s (scriptReadduty ch) s

/-- TURNON (R88). -/
def scriptTurnon (ch : Chan) : List MicroOp := modeThenDuty ch .on fullOn ++ [.respond 0]

/-- TURNON (R88). -/
def execTurnon (ch : Chan) (s : State) : Host.Outcome State Fault Refusal :=
  runCommand (.turnon ch) s (scriptTurnon ch) s

/-- TURNOFF (R89). -/
def scriptTurnoff (ch : Chan) : List MicroOp := modeThenDuty ch .off 0 ++ [.respond 0]

/-- TURNOFF (R89). -/
def execTurnoff (ch : Chan) (s : State) : Host.Outcome State Fault Refusal :=
  runCommand (.turnoff ch) s (scriptTurnoff ch) s

/-- SETPWM (R90). -/
def scriptSetpwm (ch : Chan) (val : Byte) : List MicroOp := modeThenDuty ch .pwm val ++ [.respond 0]

/-- SETPWM (R90). -/
def execSetpwm (ch : Chan) (val : Byte) (s : State) : Host.Outcome State Fault Refusal :=
  runCommand (.setpwm ch val) s (scriptSetpwm ch val) s

/-- ALLON (R91): bulk without a direction, one channel after another with one. -/
def scriptAllon (dp dir : Bool) : List MicroOp :=
  (if dp then (sideChannels dir).flatMap (fun c => modeThenDuty c .on fullOn)
   else bulkModeThenDuty .on fullOn) ++ [.respond 0]

/-- ALLON (R91). -/
def execAllon (dp dir : Bool) (s : State) : Host.Outcome State Fault Refusal :=
  runCommand (.allon dp dir) s (scriptAllon dp dir) s

/-- ALLOFF (R92). -/
def scriptAlloff : List MicroOp := bulkModeThenDuty .off 0 ++ [.respond 0]

/-- ALLOFF (R92). -/
def execAlloff (s : State) : Host.Outcome State Fault Refusal := runCommand .alloff s scriptAlloff s

end Sys2Proof.Machine
end

