-- ==== Sys2Proof/Machine/Stepper.lean ====
section
/-! DEFINITION. Meanings of the stepper family: CFGSPEED, MOVE (R107 to R110). -/

namespace Sys2Proof.Machine

open Sys2Proof.Config

/-- The registers CFGSPEED writes (R107). -/
def configured (speed steps : BitVec 16) (s : State) : State :=
  if speed = 0 ∨ steps = 0 then s
  else { s with speed := some ⟨steps, stepDelay speed steps⟩ }

/-- CFGSPEED (R107): no transaction; a zero operand raises. -/
def scriptCfgspeed (speed steps : BitVec 16) : List MicroOp :=
  if speed = 0 ∨ steps = 0 then [.raise .divisionPrecondition 0] else [.respond 0]

/-- CFGSPEED (R107). -/
def execCfgspeed (speed steps : BitVec 16) (s : State) : Host.Outcome State Fault Refusal :=
  runCommand (.cfgspeed speed steps) (configured speed steps s) (scriptCfgspeed speed steps) s

/-- `moveChecks()`: the error a MOVE of `cnt` ends with before it changes anything, if any (R109). -/
def moveError (cnt : BitVec 32) (s : State) : Option ErrorKind :=
  if cnt = 0 then none
  else
    match s.speed with
    | none => some .stepperUnconfigured
    | some c => if c.numberSteps ≤ s.currentStepIndex then some .stepIndexOutOfRange else none

/-- The registers MOVE writes at its start, once the checks pass (R108). -/
def moveStarted (cnt : BitVec 32) (s : State) : State :=
  match moveError cnt s with
  | some _ => s
  | none => { s with stepsRemaining := stepCount cnt, direction := moveDirection cnt s.direction }

/-- MOVE (R108): the loop is entered when a step is pending. -/
def scriptMove (p1 p2 p3 p4 : Chan) (cnt : BitVec 32) (s : State) : List MicroOp :=
  match moveError cnt s with
  | some e => [.raise e 0]
  | none => if stepCount cnt = 0 then [.respond 0] else [.poll p1 p2 p3 p4, .respond 0]

/-- MOVE (R108). -/
def execMove (p1 p2 p3 p4 : Chan) (cnt : BitVec 32) (s : State) : Host.Outcome State Fault Refusal :=
  runCommand (.move p1 p2 p3 p4 cnt) (moveStarted cnt s) (scriptMove p1 p2 p3 p4 cnt s) s

end Sys2Proof.Machine
end

