-- ==== Sys2Proof/Machine/Dispatch.lean ====
section
/-! DEFINITION. The dispatch: one arm per command, each one direct call of its meaning. -/

namespace Sys2Proof.Machine

def exec (i : Instr) (s : State) : Host.Outcome State Fault Refusal :=
  match i with
  | .setmode ch mode all => Sys2Proof.Machine.execSetmode ch mode all s
  | .getmode ch => Sys2Proof.Machine.execGetmode ch s
  | .writeduty ch val => Sys2Proof.Machine.execWriteduty ch val s
  | .readduty ch => Sys2Proof.Machine.execReadduty ch s
  | .turnon ch => Sys2Proof.Machine.execTurnon ch s
  | .turnoff ch => Sys2Proof.Machine.execTurnoff ch s
  | .setpwm ch val => Sys2Proof.Machine.execSetpwm ch val s
  | .allon dp dir => Sys2Proof.Machine.execAllon dp dir s
  | .alloff => Sys2Proof.Machine.execAlloff s
  | .fadein ch tgt dur => Sys2Proof.Machine.execFadein ch tgt dur s
  | .fadeout ch tgt dur => Sys2Proof.Machine.execFadeout ch tgt dur s
  | .cfgspeed speed steps => Sys2Proof.Machine.execCfgspeed speed steps s
  | .move p1 p2 p3 p4 cnt => Sys2Proof.Machine.execMove p1 p2 p3 p4 cnt s
  | .begin => Sys2Proof.Machine.execBegin s
  | .swreset => Sys2Proof.Machine.execSwreset s

end Sys2Proof.Machine
end

