-- ==== Sys2Proof/Machine/Step.lean ====
section
/-! DEFINITION. One step of the machine (R30, R67, R143): an Idle sequencer accepts the host's next command, a Busy one
goes on with the command it holds. -/

namespace Sys2Proof.Machine

/-- One step. Idle with no command presented, the sequencer waits (R140). -/
def step (s : State) : Host.Outcome State Fault Refusal :=
  match s.seq with
  | .idle =>
    match s.cmdIn with
    | [] => .next s
    | w :: rest =>
      match decode w with
      | .instr i => exec i { s with cmdIn := rest }
      | .illegal _ => .next (raise .illegalCommand (opcodeOf w).toNat { s with cmdIn := rest })
  | .busy cmd _ _ =>
    match decode cmd with
    | .instr i => exec i s
    | .illegal _ => .fault .scriptLost

/-- `s` with the sequencer Idle and the table's instruction (bits `w`, those at or above `nbits` being 0) the next
command the host presents. -/
def State.withFetchWord (s : State) (nbits w : Nat) : State :=
  { s with seq := .idle, cmdIn := BitVec.ofNat 64 (w % 2 ^ nbits) :: s.cmdIn }

end Sys2Proof.Machine
end

