-- ==== Sys2Proof/Machine/Asm.lean ====
section
/-! DEFINITION. The assembler's view of the commands: each syntax of R69 and pseudo-instruction of R70, the command it
stands for, its text, and reading it from text. -/

namespace Sys2Proof.Machine

/-- One line per syntax of R69 and pseudo-instruction of R70. -/
inductive Asm where
  | setmode (ch : Chan) (m : Mode)
  | setmodeAll (m : Mode)
  | getmode (ch : Chan)
  | writeduty (ch : Chan) (v : Byte)
  | readduty (ch : Chan)
  | turnon (ch : Chan)
  | turnoff (ch : Chan)
  | setpwm (ch : Chan) (v : Byte)
  | allon
  | allonFwd
  | allonBwd
  | alloff
  | fadein (ch : Chan) (dur : BitVec 32) (tgt : Byte)
  | fadeinFull (ch : Chan) (dur : BitVec 32)
  | fadeout (ch : Chan) (dur : BitVec 32) (tgt : Byte)
  | fadeoutFull (ch : Chan) (dur : BitVec 32)
  | cfgspeed (rpm : BitVec 16) (steps : BitVec 16)
  | move (n : BitVec 32) (p1 p2 p3 p4 : Chan)
  | begin
  | swreset
  deriving DecidableEq, Repr

/-- The command a line encodes (R69), default arguments filled in (R70). -/
def Asm.toInstr : Asm → Instr
  | .setmode ch m => .setmode ch (modeCode m) false
  | .setmodeAll m => .setmode 0 (modeCode m) true
  | .getmode ch => .getmode ch
  | .writeduty ch v => .writeduty ch v
  | .readduty ch => .readduty ch
  | .turnon ch => .turnon ch
  | .turnoff ch => .turnoff ch
  | .setpwm ch v => .setpwm ch v
  | .allon => .allon false false
  | .allonFwd => .allon true true
  | .allonBwd => .allon true false
  | .alloff => .alloff
  | .fadein ch dur tgt => .fadein ch tgt dur
  | .fadeinFull ch dur => .fadein ch 255 dur
  | .fadeout ch dur tgt => .fadeout ch tgt dur
  | .fadeoutFull ch dur => .fadeout ch 0 dur
  | .cfgspeed rpm steps => .cfgspeed rpm steps
  | .move n p1 p2 p3 p4 => .move p1 p2 p3 p4 n
  | .begin => .begin
  | .swreset => .swreset

/-- `off`, `on` or `pwm` (R69). -/
def modeText : Mode → String
  | .off => "off"
  | .on => "on"
  | .pwm => "pwm"

/-- Operands separated by commas (R69). -/
def operandText (ops : List String) : String := ", ".intercalate ops

/-- A number in decimal (R69). -/
def numText {n : Nat} (v : BitVec n) : String := toString v.toNat

/-- The line's text (R69): the mnemonic in lower case, then its operands. -/
def Asm.text : Asm → String
  | .setmode ch m => "setmode " ++ operandText [numText ch, modeText m]
  | .setmodeAll m => "setmode " ++ operandText ["all", modeText m]
  | .getmode ch => "getmode " ++ numText ch
  | .writeduty ch v => "writeduty " ++ operandText [numText ch, numText v]
  | .readduty ch => "readduty " ++ numText ch
  | .turnon ch => "turnon " ++ numText ch
  | .turnoff ch => "turnoff " ++ numText ch
  | .setpwm ch v => "setpwm " ++ operandText [numText ch, numText v]
  | .allon => "allon"
  | .allonFwd => "allon fwd"
  | .allonBwd => "allon bwd"
  | .alloff => "alloff"
  | .fadein ch dur tgt => "fadein " ++ operandText [numText ch, numText dur, numText tgt]
  | .fadeinFull ch dur => "fadein " ++ operandText [numText ch, numText dur]
  | .fadeout ch dur tgt => "fadeout " ++ operandText [numText ch, numText dur, numText tgt]
  | .fadeoutFull ch dur => "fadeout " ++ operandText [numText ch, numText dur]
  | .cfgspeed rpm steps => "cfgspeed " ++ operandText [numText rpm, numText steps]
  | .move n p1 p2 p3 p4 =>
    "move " ++ operandText [toString n.toInt, numText p1, numText p2, numText p3, numText p4]
  | .begin => "begin"
  | .swreset => "swreset"

/-! ## Reading a line (R69): lower-case mnemonic, operands separated by commas, numbers decimal or 0x hex -/

/-- The value of a digit of a base up to 16. -/
def digitValue (base : Nat) (c : Char) : Option Nat :=
  let v :=
    if '0' ≤ c ∧ c ≤ '9' then c.toNat - '0'.toNat
    else if 'a' ≤ c ∧ c ≤ 'f' then c.toNat - 'a'.toNat + 10
    else if 'A' ≤ c ∧ c ≤ 'F' then c.toNat - 'A'.toNat + 10
    else base
  if v < base then some v else none

/-- Digits read after `acc`. -/
def readDigits (base : Nat) : List Char → Nat → Option Nat
  | [], acc => some acc
  | c :: cs, acc =>
    match digitValue base c with
    | some d => readDigits base cs (base * acc + d)
    | none => none

/-- A number, decimal or `0x` hex. -/
def readNumber : List Char → Option Nat
  | '0' :: 'x' :: c :: cs => readDigits 16 (c :: cs) 0
  | c :: cs => readDigits 10 (c :: cs) 0
  | [] => none

/-- A number that fits `n` bits. -/
def readField (n : Nat) (cs : List Char) : Option (BitVec n) :=
  match readNumber cs with
  | some v => if v < 2 ^ n then some (BitVec.ofNat n v) else none
  | none => none

/-- A signed step count, -2^31 .. 2^31 - 1 (R63). -/
def readCount : List Char → Option (BitVec 32)
  | '-' :: cs =>
    match readNumber cs with
    | some v => if v ≤ 2 ^ 31 then some (BitVec.ofInt 32 (-(v : Int))) else none
    | none => none
  | cs =>
    match readNumber cs with
    | some v => if v < 2 ^ 31 then some (BitVec.ofNat 32 v) else none
    | none => none

/-- `off`, `on` or `pwm`. -/
def readMode (cs : List Char) : Option Mode :=
  if cs = "off".toList then some .off
  else if cs = "on".toList then some .on
  else if cs = "pwm".toList then some .pwm
  else none

/-- The text up to a separator and what follows it, cut at every separator. -/
def cutAt (sep : Char) : List Char → List (List Char)
  | [] => [[]]
  | c :: cs =>
    match cutAt sep cs with
    | [] => [[c]]
    | piece :: pieces => if c = sep then [] :: piece :: pieces else (c :: piece) :: pieces

/-- Text without leading and trailing spaces. -/
def trimmed (cs : List Char) : List Char :=
  ((cs.dropWhile (· = ' ')).reverse.dropWhile (· = ' ')).reverse

/-- The operands of a line: none when there is no text. -/
def operandsOf (cs : List Char) : List (List Char) :=
  if trimmed cs = [] then [] else (cutAt ',' cs).map trimmed

/-- The line a mnemonic and its operands make, if they are one of R69's or R70's. -/
def Asm.ofParts (mnemonic : String) (ops : List (List Char)) : Option Asm :=
  match ops with
  | [] =>
    if mnemonic = "allon" then some .allon
    else if mnemonic = "alloff" then some .alloff
    else if mnemonic = "begin" then some .begin
    else if mnemonic = "swreset" then some .swreset
    else none
  | [a] =>
    if mnemonic = "allon" then
      if a = "fwd".toList then some .allonFwd else if a = "bwd".toList then some .allonBwd else none
    else
      match readField 3 a with
      | some ch =>
        if mnemonic = "getmode" then some (.getmode ch)
        else if mnemonic = "readduty" then some (.readduty ch)
        else if mnemonic = "turnon" then some (.turnon ch)
        else if mnemonic = "turnoff" then some (.turnoff ch)
        else none
      | none => none
  | [a, b] =>
    if mnemonic = "setmode" then
      if a = "all".toList then (readMode b).map .setmodeAll
      else (readField 3 a).bind (fun ch => (readMode b).map (.setmode ch))
    else if mnemonic = "writeduty" then
      (readField 3 a).bind (fun ch => (readField 8 b).map (.writeduty ch))
    else if mnemonic = "setpwm" then
      (readField 3 a).bind (fun ch => (readField 8 b).map (.setpwm ch))
    else if mnemonic = "fadein" then
      (readField 3 a).bind (fun ch => (readField 32 b).map (.fadeinFull ch))
    else if mnemonic = "fadeout" then
      (readField 3 a).bind (fun ch => (readField 32 b).map (.fadeoutFull ch))
    else if mnemonic = "cfgspeed" then
      (readField 16 a).bind (fun rpm => (readField 16 b).map (.cfgspeed rpm))
    else none
  | [a, b, c] =>
    (readField 3 a).bind (fun ch => (readField 32 b).bind (fun dur => (readField 8 c).bind (fun tgt =>
      if mnemonic = "fadein" then some (.fadein ch dur tgt)
      else if mnemonic = "fadeout" then some (.fadeout ch dur tgt)
      else none)))
  | [n, a, b, c, d] =>
    if mnemonic = "move" then
      (readCount n).bind (fun cnt => (readField 3 a).bind (fun p1 => (readField 3 b).bind (fun p2 =>
        (readField 3 c).bind (fun p3 => (readField 3 d).map (fun p4 => .move cnt p1 p2 p3 p4)))))
    else none
  | _ => none

/-- Read a line: the mnemonic up to the first space, then the operands; `none` when it is no line of R69 or R70. -/
def Asm.read (line : String) : Option Asm :=
  let text := trimmed line.toList
  Asm.ofParts (String.ofList (text.takeWhile (· ≠ ' '))) (operandsOf (text.dropWhile (· ≠ ' ')))

/-- The command word of a line, if it is one. -/
def assemble (line : String) : Option Word := (Asm.read line).map (fun a => encode a.toInstr)

end Sys2Proof.Machine
end

