-- ==== Sys2Proof/Safety.lean ====
section
/-! DEFINITION. What claims are stated in: the end of a run (R154), the accesses the register map allows (R42), the
invariant of the machine, the frames of an instruction, the trace entries of the sub-procedures, and what a
failed transaction leaves (R127). -/

namespace Sys2Proof.Machine

open Sys2Proof.Config

/-! ## Runs -/

/-- A program's run has ended: every command has responded and none is pending (R154). -/
def ended (s : State) : Prop := s.seq = .idle ∧ s.cmdIn = []

/-- MOVE at its loop head: Busy with `i`'s word, the poll next (R108, R110). -/
def atLoopHead (s : State) (p1 p2 p3 p4 : Chan) (cnt : BitVec 32) (k : Nat) : Prop :=
  s.seq = .busy (encode (.move p1 p2 p3 p4 cnt)) [.poll p1 p2 p3 p4, .respond 0] k

/-! ## Legal command words (R65 to R67) -/

/-- The value checks of R65 on the word's own bits. -/
def valueChecks (w : Word) : Prop :=
  (opcodeOf w = 0x01 → w.extractLsb' 12 2 ≠ 3 ∧ (w.extractLsb' 14 1 = 1 → w.extractLsb' 8 3 = 0)) ∧
  (opcodeOf w = 0x08 → w.extractLsb' 8 1 = 0 → w.extractLsb' 9 1 = 0)

/-- A legal command word: its opcode is assigned, the mask test of its format holds, and its value checks do. -/
def legalWord (w : Word) : Prop :=
  1 ≤ (opcodeOf w).toNat ∧ (opcodeOf w).toNat ≤ 15 ∧
  w &&& formatMask (opcodeOf w).toNat = BitVec.ofNat 64 (opcodeOf w).toNat ∧ valueChecks w

/-! ## The register map (R42) -/

/-- Registers the sequencer may read: DUTY[0..7], MODE_A, MODE_B. -/
def mapRead (a : Byte) : Bool := (0x02 ≤ a && a ≤ 0x09) || a == modeA || a == modeB

/-- Registers the sequencer may write, and INIT0, INIT1 with their one value. -/
def mapWrite (a v : Byte) : Bool := mapRead a || (a, v) == init0 || (a, v) == init1

/-- A trace entry that stays on the register map and on the two device addresses (R41, R42), and drives the pin low
only (R32). -/
def Event.onMap (p : Params) : Event → Bool
  | .memRead dev a _ _ => dev == p.devAddr && mapRead a
  | .memWrite dev a v _ => dev == p.devAddr && mapWrite a v
  | .busWrite dev bytes _ => dev == resetDev && bytes == resetMagic
  | .pinWrite level => !level
  | .busInit => true
  | .delay _ => true
  | .clockRead _ => true
  | .responded _ => true
  | .raised _ _ => true

/-- The whole trace stays on the map. -/
def traceOnMap (s : State) : Prop := ∀ e ∈ s.trace, e.onMap s.params = true

/-! ## The invariant -/

/-- Between steps the sequencer is Idle, or a MOVE stands at its loop head with steps pending, configured, its index
below the steps per revolution (R25, R30, R109). -/
def seqInv (s : State) : Prop :=
  s.seq = .idle ∨
  ∃ p1 p2 p3 p4 cnt k c, atLoopHead s p1 p2 p3 p4 cnt k ∧ s.stepsRemaining ≠ 0 ∧ s.speed = some c ∧
    s.currentStepIndex < c.numberSteps

/-- What every step keeps: legal parameters, the canonical register file, registers in the ranges 10_state.md gives
(R22 to R24, R27 to R29, R32), and `seqInv`. -/
structure Inv (s : State) : Prop where
  params : s.params.wf
  chip : s.chip.wf
  speed : ∀ c, s.speed = some c → c.numberSteps ≠ 0 ∧ c.stepDelayMicros ≤ usPerMin
  remaining : s.stepsRemaining.toNat ≤ 2 ^ 31
  timestamp : s.lastStepTimestamp < 2 ^ s.params.clockBits
  status : s.status ≤ 6
  data : s.status ≠ statusOk → s.data = 0
  pin : s.en ≠ .high
  seq : seqInv s

/-- The response registers are those of the last response in the trace (R28, R29, R130). -/
def responseInv (s : State) : Prop :=
  s.seq = .idle →
    match s.trace.getLast? with
    | some (.responded d) => s.status = statusOk ∧ s.data = d
    | some (.raised e _) => s.status = statusCode e ∧ s.data = 0
    | some _ => False
    | none => s.status = statusOk ∧ s.data = 0

/-! ## Frames -/

/-- The stepper registers are the same in both states (R22 to R27). -/
def sameStepper (s t : State) : Prop :=
  t.speed = s.speed ∧ t.stepsRemaining = s.stepsRemaining ∧ t.currentStepIndex = s.currentStepIndex ∧
  t.direction = s.direction ∧ t.lastStepTimestamp = s.lastStepTimestamp

/-- The chip registers a command may store to (R42, and each command's own rule); BEGIN and
SWRESET, which make registers unknown that they do not store to, stand apart. -/
def storeTargets (p : Params) : Instr → List Byte
  | .setmode ch _ all => if all then [modeA, modeB] else [modeReg ch]
  | .getmode _ => []
  | .writeduty ch _ => [dutyReg ch]
  | .readduty _ => []
  | .turnon ch => [modeReg ch, dutyReg ch]
  | .turnoff ch => [modeReg ch, dutyReg ch]
  | .setpwm ch _ => [modeReg ch, dutyReg ch]
  | .allon dp dir =>
    if dp then (sideChannels dir).flatMap (fun c => [modeReg c, dutyReg c])
    else [modeA, modeB] ++ allChannels.map dutyReg
  | .alloff => [modeA, modeB] ++ allChannels.map dutyReg
  | .fadein ch _ _ => [modeReg ch, dutyReg ch]
  | .fadeout ch tgt _ => dutyReg ch :: (if tgt = 0 ∨ p.fadeoutSetsPwm = true then [modeReg ch] else [])
  | .cfgspeed _ _ => []
  | .move p1 p2 p3 p4 _ =>
    [p1, p2, p3, p4].map dutyReg ++
    (if p.phaseWriteOp = .setPwm then [p1, p2, p3, p4].map modeReg else [])
  | .begin => [init0.1, init1.1]
  | .swreset => []

/-! ## Trace entries of the sub-procedures, every transaction succeeding -/

/-- A register write. -/
def wrote (p : Params) (a v : Byte) : Event := .memWrite p.devAddr a v true

/-- `setModeOne(c, m)` when the mode register reads `b` (R81). -/
def rmwEvents (p : Params) (c : Chan) (m : Mode) (b : Byte) : List Event :=
  [.memRead p.devAddr (modeReg c) true (some b), wrote p (modeReg c) (encodeField p.pairPos b (localIndex c) m)]

/-- The writes and delays of a ramp (R96, R97). -/
def rampEvents (p : Params) (c : Chan) (interval : BitVec 32) (values : List Byte) : List Event :=
  values.flatMap (fun v => [wrote p (dutyReg c) v, .delay ⟨interval.toNat, .ms⟩])

/-- The four phase writes with `PHASE_WRITE_OP = DutyOnly` (R106). -/
def phaseEvents (p : Params) (d : Direction) (ph : Fin 4) (p1 p2 p3 p4 : Chan) : List Event :=
  [wrote p (dutyReg p1) (phaseDuty p.phaseTable d ph 0), wrote p (dutyReg p2) (phaseDuty p.phaseTable d ph 1),
   wrote p (dutyReg p3) (phaseDuty p.phaseTable d ph 2), wrote p (dutyReg p4) (phaseDuty p.phaseTable d ph 3)]

/-- The four phase writes with `PHASE_WRITE_OP = SetPwm`, the mode registers reading `b1` to `b4` (R106). -/
def phasePwmEvents (p : Params) (d : Direction) (ph : Fin 4) (p1 p2 p3 p4 : Chan) (b1 b2 b3 b4 : Byte) : List Event :=
  rmwEvents p p1 .pwm b1 ++ [wrote p (dutyReg p1) (phaseDuty p.phaseTable d ph 0)] ++
  rmwEvents p p2 .pwm b2 ++ [wrote p (dutyReg p2) (phaseDuty p.phaseTable d ph 1)] ++
  rmwEvents p p3 .pwm b3 ++ [wrote p (dutyReg p3) (phaseDuty p.phaseTable d ph 2)] ++
  rmwEvents p p4 .pwm b4 ++ [wrote p (dutyReg p4) (phaseDuty p.phaseTable d ph 3)]

/-- The register file after a list of register writes, in order. -/
def storeAll (m : Memory) (writes : List (Byte × Byte)) : Memory :=
  writes.foldl (fun m w => Memory.write m w.1.toNat w.2) m

/-- Reading register `a` in `s` answers `b` and leaves the byte inputs `rest`: any byte of the transport (R43), or what
the register file holds (R44). -/
def answers (s : State) (a b : Byte) (rest : List Byte) : Prop :=
  (s.params.oracle = .transport ∧ s.readIn = b :: rest) ∨
  (s.params.oracle = .registerFile ∧ b = chipHolds s a.toNat ∧ rest = s.readIn)

/-- The duty write an entry records, whatever its status. -/
def dutyWrite : Event → Option (Byte × Byte)
  | .memWrite _ a v _ => if 0x02 ≤ a ∧ a ≤ 0x09 then some (a, v) else none
  | _ => none

/-- Milliseconds an entry waits (R99). -/
def delayMillis : Event → Nat
  | .delay ⟨n, .ms⟩ => n
  | _ => 0

/-- `s` after a command that ended with the response OK and `data`: statuses and bytes left to take, the register file
`chip`, the trace longer by `events` and the response; nothing else changed. -/
def completed (s : State) (statuses : List Bool) (reads : List Byte) (chip : Memory) (data : Byte)
    (events : List Event) : State :=
  { s with
    statusIn := statuses
    readIn := reads
    chip := chip
    status := statusOk
    data := data
    seq := .idle
    trace := s.trace ++ events ++ [.responded data] }

/-- `s` after a command that ended with the error `e`: status and data set, the response recorded; nothing else. -/
def errored (s : State) (e : ErrorKind) (info : Nat) : State :=
  { s with status := statusCode e, data := 0, seq := .idle, trace := s.trace ++ [.raised e info] }

/-! ## A transaction that fails under Abort (R127, R128) -/

/-- The entries of a command up to its transaction number `j`, that one failing: what comes before it has happened, nothing
after it has. -/
def failedAt : List Event → Nat → List Event
  | [], _ => []
  | .memRead dev a _ _ :: _, 0 => [.memRead dev a false none]
  | .memWrite dev a v _ :: _, 0 => [.memWrite dev a v false]
  | .busWrite dev bytes _ :: _, 0 => [.busWrite dev bytes false]
  | .memRead dev a ok v :: rest, j + 1 => .memRead dev a ok v :: failedAt rest j
  | .memWrite dev a v ok :: rest, j + 1 => .memWrite dev a v ok :: failedAt rest j
  | .busWrite dev bytes ok :: rest, j + 1 => .busWrite dev bytes ok :: failedAt rest j
  | e :: rest, j => e :: failedAt rest j

/-- The register file after one register transaction: a write that succeeds stores, one that fails makes its register
unknown. -/
def chipAfterEvent (m : Memory) : Event → Memory
  | .memWrite _ a v true => Memory.write m a.toNat v
  | .memWrite _ a _ false => Memory.forget m a.toNat
  | _ => m

/-- The registers lost after one entry. -/
def lostAfterEvent (lost : List Nat) : Event → List Nat
  | .memWrite _ a _ false => a.toNat :: lost
  | _ => lost

/-- `s` after some entries of a command: statuses and bytes left to take, the register file and the losses the entries'
writes bring, the trace longer by them; nothing else changed. -/
def happened (s : State) (events : List Event) (statuses : List Bool) (reads : List Byte) : State :=
  { s with
    statusIn := statuses
    readIn := reads
    chip := events.foldl chipAfterEvent s.chip
    lost := events.foldl lostAfterEvent s.lost
    trace := s.trace ++ events }

/-- `s` after a command whose entries would be `events` and whose transaction number `j` of these fails under Abort, `before`
transactions of the command made earlier: BusTransportFailure with the number within the command, the failed write's register
unknown, everything before in place, nothing after made (R127, R128). -/
def abortedAt (s : State) (events : List Event) (before j : Nat) (statuses : List Bool) (reads : List Byte) : State :=
  errored (happened s (failedAt events j) statuses reads) .busTransportFailure (before + j)

/-! ## Entries under either oracle, and under Continue (R15, R43, R44) -/

/-- The reads among `events` answer what the transport or the register file of `s` gives them, one after another, each
seeing the writes before it, and leave the byte inputs `rest`. A read that fails under Continue takes a byte of the transport
under either oracle (R15; log entry 26); one that ends its command takes none. -/
def answersAll : State → List Event → List Byte → Prop
  | s, [], rest => s.readIn = rest
  | s, .memRead _ a true (some b) :: events, rest =>
    ∃ bs, answers s a b bs ∧ answersAll { s with readIn := bs } events rest
  | s, .memRead _ _ false (some b) :: events, rest =>
    ∃ bs, s.readIn = b :: bs ∧ answersAll { s with readIn := bs } events rest
  | s, .memWrite _ a v true :: events, rest => answersAll (storeReg a v s) events rest
  | s, .memWrite _ a _ false :: events, rest => answersAll (forgetReg a s) events rest
  | s, _ :: events, rest => answersAll s events rest

/-- The entries with the statuses `oks` for their transactions, in order. -/
def withStatuses : List Event → List Bool → List Event
  | .memRead dev a _ v :: events, ok :: oks => .memRead dev a ok v :: withStatuses events oks
  | .memWrite dev a v _ :: events, ok :: oks => .memWrite dev a v ok :: withStatuses events oks
  | .busWrite dev bytes _ :: events, ok :: oks => .busWrite dev bytes ok :: withStatuses events oks
  | e :: events, oks => e :: withStatuses events oks
  | [], _ => []

/-- `s` after a command whose entries are `events`, whatever their statuses, and that ended with the response OK and `data`:
each register whose write failed is unknown (R15, R127). -/
def continued (s : State) (events : List Event) (statuses : List Bool) (reads : List Byte) (data : Byte) : State :=
  let t := happened s events statuses reads
  completed t statuses reads t.chip data []

end Sys2Proof.Machine
end

