-- ==== Sys2Proof/Certificates/Slice0/Obligations.lean ====
section
/-! DEFINITION. The statements for the provers. Statuses, bytes and clock samples are universally quantified inputs, so a
statement holds for every answer of the transport and every value of the clock. `completed` and `errored` give the whole
next state: what they do not name is unchanged. -/

open Sys2Proof Sys2Proof.Machine Sys2Proof.Config

/-! ## Encoding -/

/-- Decoding the word of a legal command gives the command back (R62 to R64). -/
def Obligations.DecodeOfEncode : Prop :=
  ∀ i : Instr, i.wellFormed = true → decode (encode i) = .instr i

/-- A legal word is the word of the command it decodes to, so each command has one word (R62 to R64). -/
def Obligations.EncodeOfDecode : Prop :=
  ∀ (w : Word) (i : Instr), decode w = .instr i → encode i = w ∧ i.wellFormed = true

/-- R71: each sample line assembles to the word listed, and the word decodes to the line's command. -/
def Obligations.SampleCommandWords : Prop :=
  ∀ row ∈ ([("setmode 5, pwm", 0x0000000000002501), ("setmode all, on", 0x0000000000005001),
      ("getmode 6", 0x0000000000000602), ("writeduty 7, 0x80", 0x0000000000800703),
      ("turnon 0", 0x0000000000000005), ("setpwm 3, 128", 0x0000000000800307),
      ("allon fwd", 0x0000000000000308), ("allon bwd", 0x0000000000000108),
      ("alloff", 0x0000000000000009), ("fadein 2, 1000", 0x000003E800FF020A),
      ("fadeout 2, 1000", 0x000003E80000020B), ("cfgspeed 60, 200", 0x000000C8003C000C),
      ("move 4, 0, 1, 2, 3", 0x000000040032100D), ("move -4, 0, 1, 2, 3", 0xFFFFFFFC0032100D),
      ("begin", 0x000000000000000E), ("swreset", 0x000000000000000F)] : List (String × Word)),
    ∃ line, Asm.read row.1 = some line ∧ encode line.toInstr = row.2 ∧ decode row.2 = .instr line.toInstr

/-- R65: a word decodes to a command exactly when its opcode is assigned, the mask test of its format holds and its value
checks do. -/
def Obligations.DecodesWhenMaskAndChecksHold : Prop :=
  ∀ w : Word, (∃ i, decode w = .instr i) ↔ legalWord w

/-! ## Steps -/

/-- R67: an illegal word changes status and data only, performs no micro-operation, and leaves the sequencer Idle. -/
def Obligations.IllegalCommandIsRaised : Prop :=
  ∀ (s : State) (w : Word) (rest : List Word), s.seq = .idle → s.cmdIn = w :: rest → ¬ legalWord w →
    step s = .next (errored { s with cmdIn := rest } .illegalCommand (opcodeOf w).toNat)

/-- A step runs the decoded command: the host's next one when Idle, the one held when Busy (R30). Two clauses are the
model's own choice: an Idle step with no command presented waits (log entry 22), and exec of an ill-formed command term,
which no word decodes to, ends with IllegalCommand (log entry 16). -/
def Obligations.StepRunsDecodedCommand : Prop :=
  (∀ (s : State) (w : Word) (rest : List Word) (i : Instr), s.seq = .idle → s.cmdIn = w :: rest →
    decode w = .instr i → step s = exec i { s with cmdIn := rest }) ∧
  (∀ (s : State) (w : Word) (pos : List MicroOp) (k : Nat) (i : Instr), s.seq = .busy w pos k →
    decode w = .instr i → step s = exec i s) ∧
  (∀ s : State, s.seq = .idle → s.cmdIn = [] → step s = .next s) ∧
  (∀ (i : Instr) (s : State), i.wellFormed = false → s.seq = .idle →
    exec i s = .next (errored s .illegalCommand i.opcode))

/-- While a command is Busy no other is accepted and none is taken from the host (section 3 of 70_reset_and_hazards.md);
that exec of another command is then the refusal notAccepted is the model's choice (log entry 14). -/
def Obligations.BusyAcceptsNoOtherCommand : Prop :=
  (∀ (i : Instr) (s : State) (w : Word) (op : MicroOp) (rest : List MicroOp) (k : Nat),
    s.seq = .busy w (op :: rest) k → w ≠ encode i → exec i s = .refused .notAccepted) ∧
  (∀ s t : State, s.seq ≠ .idle → step s = .next t → t.cmdIn = s.cmdIn)

/-- The registers at reset (R33, R34, R140); the direction and the timestamp are draws, of which only the timestamp's
range is a fact. -/
def Obligations.ResetRegisters : Prop :=
  State.reset.speed = none ∧ State.reset.stepsRemaining = 0 ∧ State.reset.currentStepIndex = 0 ∧
  State.reset.lastStepTimestamp < 2 ^ 32 ∧ State.reset.status = 0 ∧ State.reset.data = 0 ∧
  State.reset.seq = .idle ∧ State.reset.en = .undriven ∧ (∀ a, Memory.read State.reset.chip a = none)

/-! ## Mode codec -/

/-- R72: which mode register and which local index a channel has; and its duty register (R85). -/
def Obligations.ChannelRegisters : Prop :=
  ∀ c : Chan,
    (c.toNat < 4 → modeReg c = 0x0C ∧ (localIndex c).val = c.toNat) ∧
    (4 ≤ c.toNat → modeReg c = 0x0D ∧ (localIndex c).val = c.toNat - 4) ∧
    (dutyReg c).toNat = c.toNat + 2

/-- R78: a bulk pattern sets all four fields, whichever pair belongs to which channel. -/
def Obligations.BulkPatternsSetEveryField : Prop :=
  bulk .off = 0x00 ∧ bulk .on = 0x55 ∧ bulk .pwm = 0xAA ∧
  ∀ (pp : PairPos) (k : Fin 4) (m : Mode), decodeField pp (bulk m) k = some m

/-- R80: round trip, isolation, idempotence, last write wins, bulk, and no write makes a field Invalid. -/
def Obligations.CodecLaws : Prop :=
  ∀ (pp : PairPos) (b : Byte) (m m1 m2 : Mode), pp.wf →
    (∀ k, decodeField pp (encodeField pp b k m) k = some m) ∧
    (∀ k j, j ≠ k → decodeField pp (encodeField pp b k m) j = decodeField pp b j) ∧
    (∀ k, encodeField pp (encodeField pp b k m) k m = encodeField pp b k m) ∧
    (∀ k, encodeField pp (encodeField pp b k m1) k m2 = encodeField pp b k m2) ∧
    encodeField pp (encodeField pp (encodeField pp (encodeField pp b 0 m) 1 m) 2 m) 3 m = bulk m ∧
    (∀ k j, decodeField pp (encodeField pp b k m) j = none → decodeField pp b j = none)

/-- SETMODE completes: one channel by a read and a write back of that channel's field, all channels by two bulk writes (R81
to R83). Under Abort a failed read leaves everything, a failed write back the mode register unknown, a failed first bulk
write register A unknown and B untouched, a failed second one A written and B unknown (R127, R148). Under Continue it goes
on to (OK, 0) whichever transactions fail: a failed read answers a drawn byte, which is written back, and a failed write
leaves its register unknown (R15, D11; log entries 11 and 26). -/
def Obligations.SetmodeCompletes : Prop :=
  (∀ (s : State) (ch : Chan) (m : Mode) (l : List Bool) (b : Byte) (bs : List Byte), s.seq = .idle →
    s.statusIn = true :: true :: l → answers s (modeReg ch) b bs →
    exec (.setmode ch (modeCode m) false) s =
      .next (completed s l bs
        (storeAll s.chip [(modeReg ch, encodeField s.params.pairPos b (localIndex ch) m)]) 0
        (rmwEvents s.params ch m b))) ∧
  (∀ (s : State) (m : Mode) (l : List Bool), s.seq = .idle → s.statusIn = true :: true :: l →
    exec (.setmode 0 (modeCode m) true) s =
      .next (completed s l s.readIn (storeAll s.chip [(0x0C, bulk m), (0x0D, bulk m)]) 0
        [wrote s.params 0x0C (bulk m), wrote s.params 0x0D (bulk m)])) ∧
  (∀ (s : State) (ch : Chan) (m : Mode) (l : List Bool), s.seq = .idle → s.params.busFail = .abort →
    s.statusIn = false :: l →
    exec (.setmode ch (modeCode m) false) s = .next (errored
      { s with statusIn := l, trace := s.trace ++ [.memRead s.params.devAddr (modeReg ch) false none] }
      .busTransportFailure 0)) ∧
  (∀ (s : State) (ch : Chan) (m : Mode) (l : List Bool) (b : Byte) (bs : List Byte), s.seq = .idle →
    s.params.busFail = .abort → s.statusIn = true :: false :: l → answers s (modeReg ch) b bs →
    exec (.setmode ch (modeCode m) false) s = .next (errored
      { s with
        statusIn := l
        readIn := bs
        chip := Memory.forget s.chip (modeReg ch).toNat
        lost := (modeReg ch).toNat :: s.lost
        trace := s.trace ++ [.memRead s.params.devAddr (modeReg ch) true (some b),
          .memWrite s.params.devAddr (modeReg ch) (encodeField s.params.pairPos b (localIndex ch) m) false] }
      .busTransportFailure 1)) ∧
  (∀ (s : State) (m : Mode) (l : List Bool), s.seq = .idle → s.params.busFail = .abort →
    (s.statusIn = false :: l → exec (.setmode 0 (modeCode m) true) s = .next (errored
      { s with
        statusIn := l
        chip := Memory.forget s.chip 0x0C
        lost := 0x0C :: s.lost
        trace := s.trace ++ [.memWrite s.params.devAddr 0x0C (bulk m) false] }
      .busTransportFailure 0)) ∧
    (s.statusIn = true :: false :: l → exec (.setmode 0 (modeCode m) true) s = .next (errored
      { s with
        statusIn := l
        chip := Memory.forget (Memory.write s.chip 0x0C (bulk m)) 0x0D
        lost := 0x0D :: s.lost
        trace := s.trace ++ [wrote s.params 0x0C (bulk m), .memWrite s.params.devAddr 0x0D (bulk m) false] }
      .busTransportFailure 1))) ∧
  (∀ (s : State) (ch : Chan) (m : Mode) (oks l : List Bool) (b : Byte) (bs : List Byte), s.seq = .idle →
    s.params.busFail = .continue_ → oks.length = 2 → s.statusIn = oks ++ l →
    let events := withStatuses (rmwEvents s.params ch m b) oks
    answersAll s events bs → exec (.setmode ch (modeCode m) false) s = .next (continued s events l bs 0)) ∧
  (∀ (s : State) (m : Mode) (oks l : List Bool), s.seq = .idle → s.params.busFail = .continue_ → oks.length = 2 →
    s.statusIn = oks ++ l →
    exec (.setmode 0 (modeCode m) true) s =
      .next (continued s (withStatuses [wrote s.params 0x0C (bulk m), wrote s.params 0x0D (bulk m)] oks) l s.readIn 0))

/-- GETMODE reports (R84) the mode code of whatever byte its one read answers, or InvalidChannelState with the channel when
the field is 0b11; under Continue a failed read answers a drawn byte (R15; log entry 26), under Abort it ends the command.
No chip register is written. -/
def Obligations.GetmodeReportsTheField : Prop :=
  (∀ (s : State) (ch : Chan) (ok : Bool) (l : List Bool) (b : Byte) (bs : List Byte), s.seq = .idle →
    s.statusIn = ok :: l →
    (ok = true ∧ answers s (modeReg ch) b bs) ∨ (ok = false ∧ s.params.busFail = .continue_ ∧ s.readIn = b :: bs) →
    let didRead := Event.memRead s.params.devAddr (modeReg ch) ok (some b)
    exec (.getmode ch) s = .next
      (match decodeField s.params.pairPos b (localIndex ch) with
       | some .off => completed s l bs s.chip 0 [didRead]
       | some .on => completed s l bs s.chip 1 [didRead]
       | some .pwm => completed s l bs s.chip 2 [didRead]
       | none => errored { s with statusIn := l, readIn := bs, trace := s.trace ++ [didRead] }
          .invalidChannelState ch.toNat)) ∧
  (∀ (s : State) (ch : Chan) (l : List Bool), s.seq = .idle → s.statusIn = false :: l →
    s.params.busFail = .abort →
    exec (.getmode ch) s = .next (errored
      { s with statusIn := l, trace := s.trace ++ [.memRead s.params.devAddr (modeReg ch) false none] }
      .busTransportFailure 0))

/-- SETMODE then GETMODE on the reference register file: the mode set is reported, and every other channel of the
register decodes as before (the source's round trip and isolation, W1; R44, R83, R84). -/
def Obligations.SetmodeThenGetmode : Prop :=
  ∀ (s : State) (ch : Chan) (m : Mode) (l : List Bool), s.seq = .idle → s.params.oracle = .registerFile →
    s.params.pairPos.wf → s.statusIn = true :: true :: true :: l →
    ∃ t u, exec (.setmode ch (modeCode m) false) s = .next t ∧ exec (.getmode ch) t = .next u ∧
      u.status = 0 ∧ u.data = (modeCode m).setWidth 8 ∧ u.seq = .idle ∧
      ∀ c : Chan, c ≠ ch →
        decodeField s.params.pairPos (chipHolds u (modeReg c).toNat) (localIndex c) =
          decodeField s.params.pairPos (chipHolds s (modeReg c).toNat) (localIndex c)

/-- R51: a write of the mode register by another agent between the read and the write of `setModeOne` is lost. -/
def Obligations.ForeignWriteBetweenIsLost : Prop :=
  ∀ (s : State) (w : Word) (c : Chan) (m : Mode) (rest : List MicroOp) (k : Nat) (l : List Bool) (b : Byte)
    (bs : List Byte) (foreign : Memory), s.seq = .busy w (setModeOne c m ++ rest) k →
    s.statusIn = true :: true :: l → answers s (modeReg c) b bs →
    Memory.read (micro { micro s with chip := foreign }).chip (modeReg c).toNat =
      some (encodeField s.params.pairPos b (localIndex c) m)

/-! ## PWM engine -/

/-- WRITEDUTY makes one transaction, the duty register's write (R86); a failed one leaves that register unknown, and ends the
command under Abort, while under Continue it goes on to (OK, 0) (R15, R127, D11; log entry 11). -/
def Obligations.WritedutyWritesOneRegister : Prop :=
  (∀ (s : State) (ch : Chan) (v : Byte) (l : List Bool), s.seq = .idle → s.statusIn = true :: l →
    exec (.writeduty ch v) s =
      .next (completed s l s.readIn (storeAll s.chip [(dutyReg ch, v)]) 0 [wrote s.params (dutyReg ch) v])) ∧
  (∀ (s : State) (ch : Chan) (v : Byte) (l : List Bool), s.seq = .idle → s.statusIn = false :: l →
    s.params.busFail = .abort →
    exec (.writeduty ch v) s = .next (errored
      { s with
        statusIn := l
        chip := Memory.forget s.chip (dutyReg ch).toNat
        lost := (dutyReg ch).toNat :: s.lost
        trace := s.trace ++ [.memWrite s.params.devAddr (dutyReg ch) v false] }
      .busTransportFailure 0)) ∧
  (∀ (s : State) (ch : Chan) (v : Byte) (l : List Bool), s.seq = .idle → s.statusIn = false :: l →
    s.params.busFail = .continue_ →
    exec (.writeduty ch v) s =
      .next (completed { s with lost := (dutyReg ch).toNat :: s.lost } l s.readIn
        (Memory.forget s.chip (dutyReg ch).toNat) 0 [.memWrite s.params.devAddr (dutyReg ch) v false]))

/-- READDUTY responds (R87) with the byte its one read answers, whatever it is; under Continue a failed read answers a
drawn byte (R15; log entry 26), under Abort it ends the command. -/
def Obligations.ReaddutyReturnsTheByteRead : Prop :=
  (∀ (s : State) (ch : Chan) (ok : Bool) (l : List Bool) (b : Byte) (bs : List Byte), s.seq = .idle →
    s.statusIn = ok :: l →
    (ok = true ∧ answers s (dutyReg ch) b bs) ∨ (ok = false ∧ s.params.busFail = .continue_ ∧ s.readIn = b :: bs) →
    exec (.readduty ch) s =
      .next (completed s l bs s.chip b [.memRead s.params.devAddr (dutyReg ch) ok (some b)])) ∧
  (∀ (s : State) (ch : Chan) (l : List Bool), s.seq = .idle → s.statusIn = false :: l →
    s.params.busFail = .abort →
    exec (.readduty ch) s = .next (errored
      { s with statusIn := l, trace := s.trace ++ [.memRead s.params.devAddr (dutyReg ch) false none] }
      .busTransportFailure 0))

/-- TURNON, TURNOFF and SETPWM complete: the channel's mode field is set, then its duty written (R88 to R90). Under Continue
they go on to (OK, 0) whichever transactions fail: a failed read answers a drawn byte, which the mode write carries, and a
failed write leaves its register unknown (R15, D11; log entries 11 and 26). -/
def Obligations.ModeThenDutyCompletes : Prop :=
  ∀ (s : State) (ch : Chan) (v : Byte) (l : List Bool) (b : Byte) (bs : List Byte), s.seq = .idle →
    ∀ row ∈ ([(.turnon ch, .on, 255), (.turnoff ch, .off, 0), (.setpwm ch v, .pwm, v)] : List (Instr × Mode × Byte)),
      let events := rmwEvents s.params ch row.2.1 b ++ [wrote s.params (dutyReg ch) row.2.2]
      (s.statusIn = true :: true :: true :: l → answers s (modeReg ch) b bs →
        exec row.1 s =
          .next (completed s l bs
            (storeAll s.chip
              [(modeReg ch, encodeField s.params.pairPos b (localIndex ch) row.2.1), (dutyReg ch, row.2.2)]) 0
            events)) ∧
      (∀ oks : List Bool, s.params.busFail = .continue_ → oks.length = 3 → s.statusIn = oks ++ l →
        answersAll s (withStatuses events oks) bs →
        exec row.1 s = .next (continued s (withStatuses events oks) l bs 0))

/-- TURNON, TURNOFF and SETPWM under Abort: a failure at the read leaves both registers unwritten, at the mode write the
duty unwritten, at the duty write the mode changed; the failed write's register is unknown (R88 to R90, R127). -/
def Obligations.ModeThenDutyFailures : Prop :=
  ∀ (s : State) (ch : Chan) (v : Byte) (l : List Bool) (b : Byte) (bs : List Byte), s.seq = .idle →
    s.params.busFail = .abort →
    ∀ row ∈ ([(.turnon ch, .on, 255), (.turnoff ch, .off, 0), (.setpwm ch v, .pwm, v)] : List (Instr × Mode × Byte)),
      let field := encodeField s.params.pairPos b (localIndex ch) row.2.1
      let didRead := Event.memRead s.params.devAddr (modeReg ch) true (some b)
      (s.statusIn = false :: l → exec row.1 s = .next (errored
        { s with statusIn := l, trace := s.trace ++ [.memRead s.params.devAddr (modeReg ch) false none] }
        .busTransportFailure 0)) ∧
      (answers s (modeReg ch) b bs → s.statusIn = true :: false :: l → exec row.1 s = .next (errored
        { s with
          statusIn := l
          readIn := bs
          chip := Memory.forget s.chip (modeReg ch).toNat
          lost := (modeReg ch).toNat :: s.lost
          trace := s.trace ++ [didRead, .memWrite s.params.devAddr (modeReg ch) field false] }
        .busTransportFailure 1)) ∧
      (answers s (modeReg ch) b bs → s.statusIn = true :: true :: false :: l → exec row.1 s = .next (errored
        { s with
          statusIn := l
          readIn := bs
          chip := Memory.forget (Memory.write s.chip (modeReg ch).toNat field) (dutyReg ch).toNat
          lost := (dutyReg ch).toNat :: s.lost
          trace := s.trace ++ [didRead, wrote s.params (modeReg ch) field,
            .memWrite s.params.devAddr (dutyReg ch) row.2.2 false] }
        .busTransportFailure 2))

/-- ALLON without a direction and ALLOFF complete: both mode registers, then the eight duty registers, no read
(R91, R92). Under Continue they do so whichever writes fail, a failed one leaving its register unknown (R15, D11; log
entry 11). -/
def Obligations.BulkCommandsComplete : Prop :=
  ∀ (s : State) (l : List Bool), s.seq = .idle →
    ∀ row ∈ ([(.allon false false, [(0x0C, 0x55), (0x0D, 0x55), (0x02, 0xFF), (0x03, 0xFF), (0x04, 0xFF), (0x05, 0xFF),
          (0x06, 0xFF), (0x07, 0xFF), (0x08, 0xFF), (0x09, 0xFF)]),
        (.alloff, [(0x0C, 0x00), (0x0D, 0x00), (0x02, 0x00), (0x03, 0x00), (0x04, 0x00), (0x05, 0x00),
          (0x06, 0x00), (0x07, 0x00), (0x08, 0x00), (0x09, 0x00)])] : List (Instr × List (Byte × Byte))),
      let events := row.2.map (fun w => wrote s.params w.1 w.2)
      (s.statusIn = List.replicate 10 true ++ l →
        exec row.1 s = .next (completed s l s.readIn (storeAll s.chip row.2) 0 events)) ∧
      (∀ oks : List Bool, s.params.busFail = .continue_ → oks.length = 10 → s.statusIn = oks ++ l →
        exec row.1 s = .next (continued s (withStatuses events oks) l s.readIn 0))

/-- ALLON without a direction and ALLOFF under Abort: a failure of write j keeps the j writes before it, leaves its own
register unknown and makes no later write (R91, R92, R127, R148). -/
def Obligations.BulkCommandFailure : Prop :=
  ∀ (s : State) (l : List Bool) (j : Fin 10), s.seq = .idle → s.params.busFail = .abort →
    s.statusIn = List.replicate j.val true ++ false :: l →
    ∀ row ∈ ([(.allon false false, .on, 0xFF), (.alloff, .off, 0x00)] : List (Instr × Mode × Byte)),
      let writes : List (Byte × Byte) :=
        [(0x0C, bulk row.2.1), (0x0D, bulk row.2.1)] ++
          ([0x02, 0x03, 0x04, 0x05, 0x06, 0x07, 0x08, 0x09] : List Byte).map (fun a => (a, row.2.2))
      let failed := writes.getD j.val (0, 0)
      exec row.1 s = .next (errored
        { s with
          statusIn := l
          chip := Memory.forget (storeAll s.chip (writes.take j.val)) failed.1.toNat
          lost := failed.1.toNat :: s.lost
          trace := s.trace ++ (writes.take j.val).map (fun w => wrote s.params w.1 w.2) ++
            [.memWrite s.params.devAddr failed.1 failed.2 false] }
        .busTransportFailure j.val)

/-- ALLON with a direction completes: the four even (forward) or odd (backward) channels, ascending, each by a
read-modify-write and a duty write, whatever the four reads answer, under either oracle (R91, R43, R44). Transaction j failing
under Abort, the channels written before it stay written, its own register is unknown if it was a write, and no later
transaction is made (R127). Under Continue it completes whichever transactions fail (R15, D11; log entries 11 and 26). -/
def Obligations.DirectedAllonCompletes : Prop :=
  ∀ (s : State) (dir : Bool) (l : List Bool) (b1 b2 b3 b4 : Byte) (bs : List Byte), s.seq = .idle →
    let side : List (Chan × Byte) :=
      if dir then [(0, b1), (2, b2), (4, b3), (6, b4)] else [(1, b1), (3, b2), (5, b3), (7, b4)]
    let events := side.flatMap (fun c => rmwEvents s.params c.1 .on c.2 ++ [wrote s.params (dutyReg c.1) 255])
    (s.statusIn = List.replicate 12 true ++ l → answersAll s events bs →
      exec (.allon true dir) s =
        .next (completed s l bs
          (storeAll s.chip (side.flatMap (fun c =>
            [(modeReg c.1, encodeField s.params.pairPos c.2 (localIndex c.1) .on), (dutyReg c.1, 255)]))) 0 events)) ∧
    (∀ j : Fin 12, s.params.busFail = .abort → s.statusIn = List.replicate j.val true ++ false :: l →
      answersAll s (failedAt events j.val) bs →
      exec (.allon true dir) s = .next (abortedAt s events 0 j.val l bs)) ∧
    (∀ oks : List Bool, s.params.busFail = .continue_ → oks.length = 12 → s.statusIn = oks ++ l →
      answersAll s (withStatuses events oks) bs →
      exec (.allon true dir) s = .next (continued s (withStatuses events oks) l bs 0))

/-- ALLON with a direction on the reference register file: the selected channels end On at duty 255, the others keep
field and duty (R91). -/
def Obligations.DirectedAllonEffect : Prop :=
  ∀ (s : State) (dir : Bool) (l : List Bool), s.seq = .idle → s.params.oracle = .registerFile →
    s.params.pairPos.wf → s.statusIn = List.replicate 12 true ++ l →
    ∃ t, exec (.allon true dir) s = .next t ∧ t.status = 0 ∧ t.seq = .idle ∧
      ∀ c : Chan,
        (decide (c.toNat % 2 = 0) = dir →
          decodeField s.params.pairPos (chipHolds t (modeReg c).toNat) (localIndex c) = some .on ∧
          Memory.read t.chip (dutyReg c).toNat = some 255) ∧
        (decide (c.toNat % 2 = 0) ≠ dir →
          decodeField s.params.pairPos (chipHolds t (modeReg c).toNat) (localIndex c) =
            decodeField s.params.pairPos (chipHolds s (modeReg c).toNat) (localIndex c) ∧
          Memory.read t.chip (dutyReg c).toNat = Memory.read s.chip (dutyReg c).toNat)

/-- R93: for the mode registers, ALLON without a direction and ALLOFF leave what SETMODE on (off) of each of the eight
channels leaves, run one after another from the same state. -/
def Obligations.BulkEqualsPerChannel : Prop :=
  ∀ (s : State) (l : List Bool), s.seq = .idle → s.params.oracle = .registerFile → s.params.pairPos.wf →
    s.cmdIn = [] → s.statusIn = List.replicate 16 true ++ l →
    ∀ row ∈ ([(.allon false false, .on), (.alloff, .off)] : List (Instr × Mode)),
      ∃ t u, exec row.1 s = .next t ∧
        Host.Core.run Sys2Proof.core 8
          { s with cmdIn := ([0, 1, 2, 3, 4, 5, 6, 7] : List Chan).map (fun c => encode (.setmode c (modeCode row.2) false)) } =
          .next u ∧
        ∀ r ∈ ([0x0C, 0x0D] : List Nat),
          Memory.read t.chip r = some (bulk row.2) ∧ Memory.read u.chip r = some (bulk row.2)

/-! ## Fades -/

/-- FADEIN completes: PWM mode, then duty 0, 1, ..., tgt each followed by a delay of dur / tgt, then mode On when tgt is 255
(R95, R96), whatever the reads answer, under either oracle (R43, R44). Transaction j failing under Abort, be it of a mode
change or of a duty write in mid-ramp, everything before it is in place, its own register is unknown if it was a write, and
nothing after it is made (R96, R127, R148). Under Continue it completes whichever transactions fail (R15, D11; log entries
11 and 26). -/
def Obligations.FadeinCompletes : Prop :=
  ∀ (s : State) (ch : Chan) (tgt : Byte) (dur : BitVec 32) (l : List Bool) (b b' : Byte) (bs : List Byte),
    s.seq = .idle → tgt ≠ 0 →
    let transactions := 2 + (tgt.toNat + 1) + (if tgt = 255 then 2 else 0)
    let values := (List.range (tgt.toNat + 1)).map (BitVec.ofNat 8)
    let field := fun (m : Mode) (x : Byte) => encodeField s.params.pairPos x (localIndex ch) m
    let events := rmwEvents s.params ch .pwm b ++
      values.flatMap (fun v => [wrote s.params (dutyReg ch) v, .delay ⟨dur.toNat / tgt.toNat, .ms⟩]) ++
      (if tgt = 255 then rmwEvents s.params ch .on b' else [])
    (s.statusIn = List.replicate transactions true ++ l → answersAll s events bs →
      exec (.fadein ch tgt dur) s =
        .next (completed s l bs
          (storeAll s.chip ([(modeReg ch, field .pwm b)] ++ values.map (fun v => (dutyReg ch, v)) ++
            (if tgt = 255 then [(modeReg ch, field .on b')] else []))) 0 events)) ∧
    (∀ j : Nat, j < transactions → s.params.busFail = .abort → s.statusIn = List.replicate j true ++ false :: l →
      answersAll s (failedAt events j) bs → exec (.fadein ch tgt dur) s = .next (abortedAt s events 0 j l bs)) ∧
    (∀ oks : List Bool, s.params.busFail = .continue_ → oks.length = transactions → s.statusIn = oks ++ l →
      answersAll s (withStatuses events oks) bs →
      exec (.fadein ch tgt dur) s = .next (continued s (withStatuses events oks) l bs 0))

/-- FADEIN on the reference register file ends at duty tgt, in mode On when tgt is 255 and PWM otherwise, from any start
(W3; R96). -/
def Obligations.FadeinEndState : Prop :=
  ∀ (s : State) (ch : Chan) (tgt : Byte) (dur : BitVec 32) (l : List Bool), s.seq = .idle →
    s.params.oracle = .registerFile → tgt ≠ 0 →
    s.statusIn = List.replicate (2 + (tgt.toNat + 1) + (if tgt = 255 then 2 else 0)) true ++ l →
    ∃ t, exec (.fadein ch tgt dur) s = .next t ∧ t.status = 0 ∧ t.seq = .idle ∧
      Memory.read t.chip (dutyReg ch).toNat = some tgt ∧
      decodeField s.params.pairPos (chipHolds t (modeReg ch).toNat) (localIndex ch) =
        some (if tgt = 255 then .on else .pwm)

/-- FADEIN with target 0, FADEOUT whose start duty as read is not above the target, and CFGSPEED with a zero operand
end with DivisionPrecondition (R123): no division, no write, and no register changed but status and data. FADEOUT's one read has
happened (under Continue a failed one answers a drawn byte, R15 and log entry 26), and its failure under Abort comes first (R129). -/
def Obligations.PreconditionsRaise : Prop :=
  (∀ (s : State) (ch : Chan) (dur : BitVec 32), s.seq = .idle →
    exec (.fadein ch 0 dur) s = .next (errored s .divisionPrecondition 0)) ∧
  (∀ (s : State) (speed steps : BitVec 16), s.seq = .idle → speed = 0 ∨ steps = 0 →
    exec (.cfgspeed speed steps) s = .next (errored s .divisionPrecondition 0)) ∧
  (∀ (s : State) (ch : Chan) (tgt : Byte) (dur : BitVec 32) (ok : Bool) (l : List Bool) (d0 : Byte) (bs : List Byte),
    s.seq = .idle → s.statusIn = ok :: l →
    (ok = true ∧ answers s (dutyReg ch) d0 bs) ∨ (ok = false ∧ s.params.busFail = .continue_ ∧ s.readIn = d0 :: bs) →
    d0.toNat ≤ tgt.toNat →
    exec (.fadeout ch tgt dur) s = .next (errored
      { s with
        statusIn := l
        readIn := bs
        trace := s.trace ++ [.memRead s.params.devAddr (dutyReg ch) ok (some d0)] }
      .divisionPrecondition d0.toNat)) ∧
  (∀ (s : State) (ch : Chan) (tgt : Byte) (dur : BitVec 32) (l : List Bool), s.seq = .idle →
    s.statusIn = false :: l → s.params.busFail = .abort →
    exec (.fadeout ch tgt dur) s = .next (errored
      { s with statusIn := l, trace := s.trace ++ [.memRead s.params.devAddr (dutyReg ch) false none] }
      .busTransportFailure 0))

/-- FADEOUT completes: the duty read d0, PWM mode first if FADEOUT_SETS_PWM, then duty d0, d0 - 1, ..., tgt each followed by
a delay of dur / (d0 - tgt), then mode Off when tgt is 0 (R95, R97), whatever the reads answer, under either oracle (R43,
R44). Transaction j failing under Abort, be it of a mode change or of a duty write in mid-ramp, everything before it is in
place, its own register is unknown if it was a write, and nothing after it is made (R97, R127, R148). Under Continue it
completes whichever transactions fail (R15, D11; log entries 11 and 26). -/
def Obligations.FadeoutCompletes : Prop :=
  ∀ (s : State) (ch : Chan) (tgt d0 : Byte) (dur : BitVec 32) (l : List Bool) (b b' : Byte)
    (bs : List Byte),
    s.seq = .idle → tgt.toNat < d0.toNat →
    let transactions := 1 + (if s.params.fadeoutSetsPwm then 2 else 0) + (d0.toNat - tgt.toNat + 1) + (if tgt = 0 then 2 else 0)
    let values := (List.range (d0.toNat - tgt.toNat + 1)).map (fun j => BitVec.ofNat 8 (d0.toNat - j))
    let field := fun (m : Mode) (x : Byte) => encodeField s.params.pairPos x (localIndex ch) m
    let events := [.memRead s.params.devAddr (dutyReg ch) true (some d0)] ++
      (if s.params.fadeoutSetsPwm then rmwEvents s.params ch .pwm b else []) ++
      values.flatMap (fun v =>
        [wrote s.params (dutyReg ch) v, .delay ⟨dur.toNat / (d0.toNat - tgt.toNat), .ms⟩]) ++
      (if tgt = 0 then rmwEvents s.params ch .off b' else [])
    (s.statusIn = List.replicate transactions true ++ l → answersAll s events bs →
      exec (.fadeout ch tgt dur) s =
        .next (completed s l bs
          (storeAll s.chip ((if s.params.fadeoutSetsPwm then [(modeReg ch, field .pwm b)] else []) ++
            values.map (fun v => (dutyReg ch, v)) ++
            (if tgt = 0 then [(modeReg ch, field .off b')] else []))) 0 events)) ∧
    (∀ j : Nat, j < transactions → s.params.busFail = .abort → s.statusIn = List.replicate j true ++ false :: l →
      answersAll s (failedAt events j) bs → exec (.fadeout ch tgt dur) s = .next (abortedAt s events 0 j l bs)) ∧
    (∀ oks : List Bool, s.params.busFail = .continue_ → oks.length = transactions → s.statusIn = oks ++ l →
      answersAll s (withStatuses events oks) bs →
      exec (.fadeout ch tgt dur) s = .next (continued s (withStatuses events oks) l bs 0))

/-- FADEOUT on the reference register file ends at duty tgt; in mode Off when tgt is 0, else in PWM if FADEOUT_SETS_PWM,
else in the mode it was in (W4; R97). -/
def Obligations.FadeoutEndState : Prop :=
  ∀ (s : State) (ch : Chan) (tgt d0 : Byte) (dur : BitVec 32) (l : List Bool), s.seq = .idle →
    s.params.oracle = .registerFile → chipHolds s (dutyReg ch).toNat = d0 → tgt.toNat < d0.toNat →
    s.statusIn = List.replicate (1 + (if s.params.fadeoutSetsPwm then 2 else 0) + (d0.toNat - tgt.toNat + 1) +
      (if tgt = 0 then 2 else 0)) true ++ l →
    ∃ t, exec (.fadeout ch tgt dur) s = .next t ∧ t.status = 0 ∧ t.seq = .idle ∧
      Memory.read t.chip (dutyReg ch).toNat = some tgt ∧
      decodeField s.params.pairPos (chipHolds t (modeReg ch).toNat) (localIndex ch) =
        (if tgt = 0 then some .off
         else if s.params.fadeoutSetsPwm then some .pwm
         else decodeField s.params.pairPos (chipHolds s (modeReg ch).toNat) (localIndex ch))

/-- R99: the delays a FADEIN or FADEOUT that ends with status OK adds to the trace sum to (n + 1) * (dur / n) milliseconds,
n being tgt, or the duty it read less tgt; for dur = 1000, n = 255 that is within dur, for dur = 10, n = 5 it is not. This
holds whichever transactions fail under Continue. -/
def Obligations.RampTotalDelay : Prop :=
  let waited := fun (s t : State) => ((t.trace.drop s.trace.length).map delayMillis).sum
  (∀ (s t : State) (ch : Chan) (tgt : Byte) (dur : BitVec 32), s.seq = .idle →
    exec (.fadein ch tgt dur) s = .next t → t.status = 0 →
    waited s t = (tgt.toNat + 1) * (dur.toNat / tgt.toNat)) ∧
  (∀ (s t : State) (ch : Chan) (tgt : Byte) (dur : BitVec 32), s.seq = .idle →
    exec (.fadeout ch tgt dur) s = .next t → t.status = 0 →
    ∃ (ok : Bool) (d0 : Byte),
      (t.trace.drop s.trace.length).head? = some (.memRead s.params.devAddr (dutyReg ch) ok (some d0)) ∧
      tgt.toNat < d0.toNat ∧
      waited s t = (d0.toNat - tgt.toNat + 1) * (dur.toNat / (d0.toNat - tgt.toNat))) ∧
  (∀ (s t : State) (ch : Chan), s.seq = .idle → exec (.fadein ch 255 1000) s = .next t → t.status = 0 →
    waited s t ≤ 1000) ∧
  (∀ (s t : State) (ch : Chan), s.seq = .idle → exec (.fadein ch 5 10) s = .next t → t.status = 0 →
    10 < waited s t)

/-! ## Stepper -/

/-- R107: CFGSPEED with both operands non-zero writes the two registers, the delay being 60000000 / (steps * speed)
truncated and at most 60,000,000; no other register and no transaction. -/
def Obligations.CfgspeedCompletes : Prop :=
  ∀ (s : State) (speed steps : BitVec 16), s.seq = .idle → speed ≠ 0 → steps ≠ 0 →
    exec (.cfgspeed speed steps) s =
      .next (completed { s with speed := some ⟨steps, BitVec.ofNat 32 (60000000 / (steps.toNat * speed.toNat))⟩ }
        s.statusIn s.readIn s.chip 0 [])

/-- R109: a MOVE with non-zero count before CFGSPEED, then one with its index out of range, end before any change. -/
def Obligations.MoveChecksComeFirst : Prop :=
  (∀ (s : State) (p1 p2 p3 p4 : Chan) (cnt : BitVec 32), s.seq = .idle → cnt ≠ 0 → s.speed = none →
    exec (.move p1 p2 p3 p4 cnt) s = .next (errored s .stepperUnconfigured 0)) ∧
  (∀ (s : State) (p1 p2 p3 p4 : Chan) (cnt : BitVec 32) (c : Speed), s.seq = .idle → cnt ≠ 0 → s.speed = some c →
    c.numberSteps.toNat ≤ s.currentStepIndex.toNat →
    exec (.move p1 p2 p3 p4 cnt) s = .next (errored s .stepIndexOutOfRange 0))

/-- R113: MOVE with count 0 keeps the direction, clears the pending steps, makes no poll and no transaction. -/
def Obligations.ZeroCountMoveCompletes : Prop :=
  ∀ (s : State) (p1 p2 p3 p4 : Chan), s.seq = .idle →
    exec (.move p1 p2 p3 p4 0) s = .next (completed { s with stepsRemaining := 0 } s.statusIn s.readIn s.chip 0 [])

/-- A MOVE that passes its checks sets the pending steps and the direction by its count's sign and enters the poll loop
(R108, R109). -/
def Obligations.MoveEntersItsLoop : Prop :=
  ∀ (s : State) (p1 p2 p3 p4 : Chan) (cnt : BitVec 32) (c : Speed), s.seq = .idle → cnt ≠ 0 → s.speed = some c →
    s.currentStepIndex.toNat < c.numberSteps.toNat →
    exec (.move p1 p2 p3 p4 cnt) s =
      exec (.move p1 p2 p3 p4 cnt)
        { s with
          stepsRemaining := BitVec.ofNat 32 cnt.toInt.natAbs
          direction := if 0 < cnt.toInt then .forward else .backward
          seq := .busy (encode (.move p1 p2 p3 p4 cnt)) [.poll p1 p2 p3 p4, .respond 0] 0 }

/-- A poll that finds the step not yet due changes nothing but the clock input and the trace (R108, R110). -/
def Obligations.PollNotDueWaits : Prop :=
  ∀ (s : State) (p1 p2 p3 p4 : Chan) (cnt : BitVec 32) (k now : Nat) (clk : List Nat) (c : Speed),
    atLoopHead s p1 p2 p3 p4 cnt k → s.stepsRemaining ≠ 0 → s.speed = some c → s.clockIn = now :: clk →
    now < 2 ^ s.params.clockBits → elapsed s.params.clockBits now s.lastStepTimestamp < c.stepDelayMicros.toNat →
    exec (.move p1 p2 p3 p4 cnt) s =
      .next { s with clockIn := clk, trace := s.trace ++ [.clockRead now] }

/-- A due poll with PHASE_WRITE_OP = DutyOnly: timestamp, index and pending steps are updated, the four phase writes are
made in role order, and MOVE responds OK when no step is left, else stands at its loop head again (R106, R108, R110). Under
Continue it does so whichever phase writes fail, a failed one leaving its register unknown (R15, D11; log entry 11). -/
def Obligations.DueStepWritesThePhase : Prop :=
  ∀ (s : State) (p1 p2 p3 p4 : Chan) (cnt : BitVec 32) (k now : Nat) (clk : List Nat) (c : Speed) (l : List Bool),
    atLoopHead s p1 p2 p3 p4 cnt k → s.stepsRemaining ≠ 0 → s.speed = some c → s.clockIn = now :: clk →
    now < 2 ^ s.params.clockBits → c.stepDelayMicros.toNat ≤ elapsed s.params.clockBits now s.lastStepTimestamp →
    s.params.phaseWriteOp = .dutyOnly →
    let index := nextIndex s.direction c.numberSteps s.currentStepIndex
    let ph := phaseOf index
    let duty := phaseDuty s.params.phaseTable s.direction ph
    let events := phaseEvents s.params s.direction ph p1 p2 p3 p4
    let polled : State := { s with
      clockIn := clk
      lastStepTimestamp := now
      currentStepIndex := index
      stepsRemaining := s.stepsRemaining - 1
      trace := s.trace ++ [.clockRead now] }
    let after := fun (u : State) =>
      if s.stepsRemaining = 1 then completed u u.statusIn u.readIn u.chip 0 []
      else { u with seq := .busy (encode (.move p1 p2 p3 p4 cnt)) [.poll p1 p2 p3 p4, .respond 0] (k + 4) }
    (s.statusIn = true :: true :: true :: true :: l →
      exec (.move p1 p2 p3 p4 cnt) s = .next (after
        { polled with
          statusIn := l
          chip := storeAll s.chip
            [(dutyReg p1, duty 0), (dutyReg p2, duty 1), (dutyReg p3, duty 2), (dutyReg p4, duty 3)]
          trace := polled.trace ++ events })) ∧
    (∀ oks : List Bool, s.params.busFail = .continue_ → oks.length = 4 → s.statusIn = oks ++ l →
      exec (.move p1 p2 p3 p4 cnt) s = .next (after (happened polled (withStatuses events oks) l s.readIn)))

/-- The same with PHASE_WRITE_OP = SetPwm: each role's mode field is set to PWM before its duty write, whatever the four
reads answer, under either oracle (R106, R110, R43, R44); under Continue whichever transactions fail (R15, D11; log entries 11
and 26). -/
def Obligations.DueStepSetsPwmFirst : Prop :=
  ∀ (s : State) (p1 p2 p3 p4 : Chan) (cnt : BitVec 32) (k now : Nat) (clk : List Nat) (c : Speed) (l : List Bool)
    (b1 b2 b3 b4 : Byte) (bs : List Byte),
    atLoopHead s p1 p2 p3 p4 cnt k → s.stepsRemaining ≠ 0 → s.speed = some c → s.clockIn = now :: clk →
    now < 2 ^ s.params.clockBits → c.stepDelayMicros.toNat ≤ elapsed s.params.clockBits now s.lastStepTimestamp →
    s.params.phaseWriteOp = .setPwm →
    let index := nextIndex s.direction c.numberSteps s.currentStepIndex
    let ph := phaseOf index
    let duty := phaseDuty s.params.phaseTable s.direction ph
    let field := fun (p : Chan) (b : Byte) => encodeField s.params.pairPos b (localIndex p) .pwm
    let events := phasePwmEvents s.params s.direction ph p1 p2 p3 p4 b1 b2 b3 b4
    let polled : State := { s with
      clockIn := clk
      lastStepTimestamp := now
      currentStepIndex := index
      stepsRemaining := s.stepsRemaining - 1
      trace := s.trace ++ [.clockRead now] }
    let after := fun (u : State) =>
      if s.stepsRemaining = 1 then completed u u.statusIn u.readIn u.chip 0 []
      else { u with seq := .busy (encode (.move p1 p2 p3 p4 cnt)) [.poll p1 p2 p3 p4, .respond 0] (k + 12) }
    (s.statusIn = List.replicate 12 true ++ l → answersAll s events bs →
      exec (.move p1 p2 p3 p4 cnt) s = .next (after
        { polled with
          statusIn := l
          readIn := bs
          chip := storeAll s.chip
            [(modeReg p1, field p1 b1), (dutyReg p1, duty 0), (modeReg p2, field p2 b2), (dutyReg p2, duty 1),
             (modeReg p3, field p3 b3), (dutyReg p3, duty 2), (modeReg p4, field p4 b4), (dutyReg p4, duty 3)]
          trace := polled.trace ++ events })) ∧
    (∀ oks : List Bool, s.params.busFail = .continue_ → oks.length = 12 → s.statusIn = oks ++ l →
      answersAll s (withStatuses events oks) bs →
      exec (.move p1 p2 p3 p4 cnt) s = .next (after (happened polled (withStatuses events oks) l bs)))

/-- A MOVE of one step whose first poll is due completes at once, with either PHASE_WRITE_OP (R106, R108, R110). -/
def Obligations.SingleStepMoveCompletes : Prop :=
  ∀ (s : State) (p1 p2 p3 p4 : Chan) (forward : Bool) (now : Nat) (clk : List Nat) (c : Speed) (l : List Bool),
    s.seq = .idle → s.speed = some c → s.currentStepIndex.toNat < c.numberSteps.toNat → s.clockIn = now :: clk →
    now < 2 ^ s.params.clockBits → c.stepDelayMicros.toNat ≤ elapsed s.params.clockBits now s.lastStepTimestamp →
    let dir : Direction := if forward then .forward else .backward
    let index := nextIndex dir c.numberSteps s.currentStepIndex
    let ph := phaseOf index
    let duty := phaseDuty s.params.phaseTable dir ph
    let field := fun (p : Chan) (b : Byte) => encodeField s.params.pairPos b (localIndex p) .pwm
    let stepped : State := { s with
      clockIn := clk
      lastStepTimestamp := now
      currentStepIndex := index
      stepsRemaining := 0
      direction := dir }
    (s.params.phaseWriteOp = .dutyOnly → s.statusIn = true :: true :: true :: true :: l →
      exec (.move p1 p2 p3 p4 (if forward then 1 else -1)) s =
        .next (completed stepped l s.readIn
          (storeAll s.chip [(dutyReg p1, duty 0), (dutyReg p2, duty 1), (dutyReg p3, duty 2), (dutyReg p4, duty 3)]) 0
          (.clockRead now :: phaseEvents s.params dir ph p1 p2 p3 p4))) ∧
    (∀ (b1 b2 b3 b4 : Byte) (bs : List Byte), s.params.phaseWriteOp = .setPwm →
      s.statusIn = List.replicate 12 true ++ l →
      let events := phasePwmEvents s.params dir ph p1 p2 p3 p4 b1 b2 b3 b4
      answersAll s events bs →
      exec (.move p1 p2 p3 p4 (if forward then 1 else -1)) s =
        .next (completed stepped l bs
          (storeAll s.chip
            [(modeReg p1, field p1 b1), (dutyReg p1, duty 0), (modeReg p2, field p2 b2), (dutyReg p2, duty 1),
             (modeReg p3, field p3 b3), (dutyReg p3, duty 2), (modeReg p4, field p4 b4), (dutyReg p4, duty 3)]) 0
          (.clockRead now :: events)))

/-- A transaction of a step's phase writes that fails under Abort leaves the step's register updates and the transactions
before it in place, its own register unknown if it was a write, and nothing after it is made: with DutyOnly the duty write
number j, with SetPwm the mode read, mode write or duty write that is transaction j of twelve, under either oracle (R106,
R108, R127, R148). -/
def Obligations.PhaseWriteFailure : Prop :=
  ∀ (s : State) (p1 p2 p3 p4 : Chan) (cnt : BitVec 32) (k now : Nat) (clk : List Nat) (c : Speed) (l : List Bool),
    atLoopHead s p1 p2 p3 p4 cnt k → s.stepsRemaining ≠ 0 → s.speed = some c → s.clockIn = now :: clk →
    now < 2 ^ s.params.clockBits → c.stepDelayMicros.toNat ≤ elapsed s.params.clockBits now s.lastStepTimestamp →
    s.params.busFail = .abort →
    let index := nextIndex s.direction c.numberSteps s.currentStepIndex
    let ph := phaseOf index
    let duty := phaseDuty s.params.phaseTable s.direction ph
    let polled : State := { s with
      clockIn := clk
      lastStepTimestamp := now
      currentStepIndex := index
      stepsRemaining := s.stepsRemaining - 1
      trace := s.trace ++ [.clockRead now] }
    (∀ j : Fin 4, s.params.phaseWriteOp = .dutyOnly → s.statusIn = List.replicate j.val true ++ false :: l →
      let writes : List (Byte × Byte) :=
        [(dutyReg p1, duty 0), (dutyReg p2, duty 1), (dutyReg p3, duty 2), (dutyReg p4, duty 3)]
      let failed := writes.getD j.val (0, 0)
      exec (.move p1 p2 p3 p4 cnt) s = .next (errored
        { polled with
          statusIn := l
          chip := Memory.forget (storeAll s.chip (writes.take j.val)) failed.1.toNat
          lost := failed.1.toNat :: s.lost
          trace := polled.trace ++ (writes.take j.val).map (fun w => wrote s.params w.1 w.2) ++
            [.memWrite s.params.devAddr failed.1 failed.2 false] }
        .busTransportFailure (k + j.val))) ∧
    (∀ (j : Fin 12) (b1 b2 b3 b4 : Byte) (bs : List Byte), s.params.phaseWriteOp = .setPwm →
      s.statusIn = List.replicate j.val true ++ false :: l →
      let events := phasePwmEvents s.params s.direction ph p1 p2 p3 p4 b1 b2 b3 b4
      answersAll s (failedAt events j.val) bs →
      exec (.move p1 p2 p3 p4 cnt) s = .next (abortedAt polled events k j.val l bs))

/-- The index moves by one modulo the steps per revolution: to 0 at the top forward, to the top at 0 backward (R25,
R110). -/
def Obligations.StepIndexWraps : Prop :=
  ∀ (n i : BitVec 16), i.toNat < n.toNat →
    ((nextIndex .forward n i).toNat : Int) = ((i.toNat : Int) + 1) % n.toNat ∧
    ((nextIndex .backward n i).toNat : Int) = ((i.toNat : Int) - 1) % n.toNat

/-- R112: when the steps per revolution are a multiple of 4, each step moves the phase by one, across the wrap too. Else the
wrap breaks the cycle, in both directions, and no other step does: with six the phase goes from 1 to 0, with one every step
is phase 0, with two the phases alternate. -/
def Obligations.PhaseContinuity : Prop :=
  (∀ (n i : BitVec 16), i.toNat < n.toNat → n.toNat % 4 = 0 →
    (phaseOf (nextIndex .forward n i)).val = ((phaseOf i).val + 1) % 4 ∧
    (phaseOf (nextIndex .backward n i)).val = ((phaseOf i).val + 3) % 4) ∧
  (∀ n : BitVec 16, n.toNat % 4 ≠ 0 →
    (phaseOf (nextIndex .forward n (n - 1))).val ≠ ((phaseOf (n - 1)).val + 1) % 4 ∧
    (phaseOf (nextIndex .backward n 0)).val ≠ ((phaseOf 0).val + 3) % 4) ∧
  (∀ (n i : BitVec 16), i.toNat < n.toNat →
    (i.toNat + 1 ≠ n.toNat → (phaseOf (nextIndex .forward n i)).val = ((phaseOf i).val + 1) % 4) ∧
    (i ≠ 0 → (phaseOf (nextIndex .backward n i)).val = ((phaseOf i).val + 3) % 4)) ∧
  (nextIndex .forward 6 5 = 0 ∧ phaseOf 5 = 1 ∧ phaseOf 0 = 0) ∧
  (∀ (d : Direction) (i : BitVec 16), i.toNat < 1 → phaseOf (nextIndex d 1 i) = 0) ∧
  (∀ (d : Direction) (i : BitVec 16), i.toNat < 2 → (phaseOf (nextIndex d 2 i)).val = 1 - (phaseOf i).val)

/-- T1 and T2 of R103: every entry is 250 or 0, and every row has two of each; backward, the roles 1 and 4, and 2 and 3,
are swapped (R105), and so the example table's rows. That the parameters the machine resets with meet T3, a permutation and
D9 is the model's choice of free values (log entry 7). -/
def Obligations.PhaseTableProperties : Prop :=
  (∀ (t : PhaseTable) (d : Direction) (ph r : Fin 4), phaseDuty t d ph r = 250 ∨ phaseDuty t d ph r = 0) ∧
  (∀ (t : PhaseTable) (d : Direction) (ph : Fin 4),
    ((List.finRange 4).filter (fun r => phaseDuty t d ph r == 250)).length = 2) ∧
  State.reset.params.wf ∧
  (∀ (t : PhaseTable) (ph : Fin 4),
    phaseDuty t .backward ph 0 = phaseDuty t .forward ph 3 ∧ phaseDuty t .backward ph 1 = phaseDuty t .forward ph 2 ∧
    phaseDuty t .backward ph 2 = phaseDuty t .forward ph 1 ∧ phaseDuty t .backward ph 3 = phaseDuty t .forward ph 0) ∧
  (List.finRange 4).map (fun ph => (List.finRange 4).map (phaseDuty PhaseTable.example_ .backward ph)) =
    [[0, 250, 0, 250], [0, 250, 250, 0], [250, 0, 250, 0], [250, 0, 0, 250]]

/-- The elapsed time is the difference modulo 2^CLOCK_BITS, right across a wrap of the clock (R110, R134). -/
def Obligations.ElapsedIsModular : Prop :=
  ∀ w now last : Nat, now < 2 ^ w → last < 2 ^ w →
    (elapsed w now last : Int) = ((now : Int) - (last : Int)) % (2 ^ w : Nat)

/-- R116: a poll that makes a step leaves a timestamp at least stepDelayMicros after the one before, modulo
2^CLOCK_BITS. -/
def Obligations.StepsAreSpaced : Prop :=
  ∀ (s t : State) (p1 p2 p3 p4 : Chan) (cnt : BitVec 32) (k : Nat) (c : Speed),
    atLoopHead s p1 p2 p3 p4 cnt k → s.stepsRemaining ≠ 0 → s.speed = some c →
    exec (.move p1 p2 p3 p4 cnt) s = .next t → t.stepsRemaining ≠ s.stepsRemaining →
    c.stepDelayMicros.toNat ≤ elapsed s.params.clockBits t.lastStepTimestamp s.lastStepTimestamp ∧
    t.lastStepTimestamp < 2 ^ s.params.clockBits

/-- R115: while every clock sample finds the step not due, MOVE stays at its loop head, however many steps are taken. -/
def Obligations.MovePollsWhileNotDue : Prop :=
  ∀ (n : Nat) (s : State) (p1 p2 p3 p4 : Chan) (cnt : BitVec 32) (k : Nat) (c : Speed),
    atLoopHead s p1 p2 p3 p4 cnt k → s.stepsRemaining ≠ 0 → s.speed = some c → n ≤ s.clockIn.length →
    (∀ now ∈ s.clockIn, now < 2 ^ s.params.clockBits ∧
      elapsed s.params.clockBits now s.lastStepTimestamp < c.stepDelayMicros.toNat) →
    ∃ t, Host.Core.run Sys2Proof.core n s = .next t ∧ atLoopHead t p1 p2 p3 p4 cnt k ∧
      t.stepsRemaining = s.stepsRemaining ∧ t.chip = s.chip ∧ sameStepper s t

/-- R111: a MOVE of n steps that completes with status OK leaves the index at (i0 + n) mod numberSteps and no step
pending, and has written the phases of the indices passed, in order, role by role. -/
def Obligations.MoveIndexLaw : Prop :=
  ∀ (s t : State) (p1 p2 p3 p4 : Chan) (cnt : BitVec 32) (c : Speed) (n : Nat),
    s.seq = .idle → s.cmdIn = [encode (.move p1 p2 p3 p4 cnt)] → cnt ≠ 0 → s.speed = some c →
    s.currentStepIndex.toNat < c.numberSteps.toNat → 1 ≤ n → Host.Core.run Sys2Proof.core n s = .next t →
    t.seq = .idle → t.status = 0 →
    let dir : Direction := if 0 < cnt.toInt then .forward else .backward
    let index : Nat → Int := fun k =>
      ((s.currentStepIndex.toNat : Int) + (if 0 < cnt.toInt then 1 else -1) * (k : Int)) % c.numberSteps.toNat
    (t.currentStepIndex.toNat : Int) = ((s.currentStepIndex.toNat : Int) + cnt.toInt) % c.numberSteps.toNat ∧
    t.stepsRemaining = 0 ∧
    (t.trace.drop s.trace.length).filterMap dutyWrite =
      (List.range cnt.toInt.natAbs).flatMap (fun k =>
        let ph : Fin 4 := ⟨(index (k + 1)).toNat % 4, Nat.mod_lt _ (by decide)⟩
        [(dutyReg p1, phaseDuty s.params.phaseTable dir ph 0), (dutyReg p2, phaseDuty s.params.phaseTable dir ph 1),
         (dutyReg p3, phaseDuty s.params.phaseTable dir ph 2), (dutyReg p4, phaseDuty s.params.phaseTable dir ph 3)])

/-! ## Initialisation -/

/-- R117: BEGIN drives the pin low, initialises the bus, makes its two register writes and its two delays in the source's
order; a write that fails under Abort ends it there. After it registers 0x00 and 0x01 hold their two bytes and every other
chip register is unknown (U2). That the others are unknown after a BEGIN that a failed write ended too, and that 0x01 is then
as it was if the first one failed, is the model's choice (log entry 30). Under
Continue it completes whichever writes fail, a failed one leaving its register unknown (R15, D11; log entry 11). -/
def Obligations.BeginSequence : Prop :=
  ∀ (s : State) (l : List Bool), s.seq = .idle →
    let start := [Event.pinWrite false, .busInit]
    let mid := [wrote s.params 0x00 0x01, .delay ⟨s.params.beginDelay1Us, .us⟩]
    (s.statusIn = true :: true :: l →
      exec .begin s = .next (completed { s with en := .low, epoch := s.epoch + 1 } l s.readIn
        [(0x00, 0x01), (0x01, 0x14)] 0
        (start ++ mid ++ [wrote s.params 0x01 0x14, .delay s.params.beginDelay2]))) ∧
    (s.statusIn = false :: l → s.params.busFail = .abort →
      exec .begin s = .next (errored
        { s with
          en := .low
          statusIn := l
          chip := s.chip.filter (fun c => c.1 == 1)
          epoch := s.epoch + 1
          lost := 0 :: s.lost
          trace := s.trace ++ start ++ [.memWrite s.params.devAddr 0x00 0x01 false] }
        .busTransportFailure 0)) ∧
    (s.statusIn = true :: false :: l → s.params.busFail = .abort →
      exec .begin s = .next (errored
        { s with
          en := .low
          statusIn := l
          chip := [(0x00, 0x01)]
          epoch := s.epoch + 1
          lost := 1 :: s.lost
          trace := s.trace ++ start ++ mid ++ [.memWrite s.params.devAddr 0x01 0x14 false] }
        .busTransportFailure 1)) ∧
    (∀ oks : List Bool, s.params.busFail = .continue_ → oks.length = 2 → s.statusIn = oks ++ l →
      let events := withStatuses (mid ++ [wrote s.params 0x01 0x14, .delay s.params.beginDelay2]) oks
      exec .begin s = .next (completed
        { s with en := .low, epoch := s.epoch + 1, lost := events.foldl lostAfterEvent s.lost } l s.readIn
        (events.foldl chipAfterEvent (s.chip.filter (fun c => c.1 == 0 || c.1 == 1))) 0
        (start ++ events)))

/-- R118: SWRESET writes 0xA5, 0x5A to device 0x03 in one transaction, after which every chip register is unknown; no
other register changes. A failed one ends it under Abort, and under Continue it
goes on to (OK, 0) (R15); that it also leaves every register unknown is the model's choice (log entry 10). -/
def Obligations.SwresetSequence : Prop :=
  ∀ (s : State) (l : List Bool), s.seq = .idle →
    (s.statusIn = true :: l →
      exec .swreset s = .next (completed { s with epoch := s.epoch + 1 } l s.readIn [] 0
        [.busWrite 0x03 [0xA5, 0x5A] true])) ∧
    (s.statusIn = false :: l → s.params.busFail = .abort →
      exec .swreset s = .next (errored
        { s with
          statusIn := l
          chip := []
          epoch := s.epoch + 1
          trace := s.trace ++ [.busWrite 0x03 [0xA5, 0x5A] false] }
        .busTransportFailure 0)) ∧
    (s.statusIn = false :: l → s.params.busFail = .continue_ →
      exec .swreset s = .next (completed { s with epoch := s.epoch + 1 } l s.readIn [] 0
        [.busWrite 0x03 [0xA5, 0x5A] false]))

/-! ## Frames -/

/-- Only CFGSPEED and MOVE write a stepper register (R22 to R27, R35). -/
def Obligations.StepperFrame : Prop :=
  ∀ (i : Instr) (s t : State), s.seq = .idle → exec i s = .next t →
    (∀ speed steps, i ≠ .cfgspeed speed steps) → (∀ p1 p2 p3 p4 cnt, i ≠ .move p1 p2 p3 p4 cnt) →
    sameStepper s t ∧ t.clockIn = s.clockIn

/-- CFGSPEED writes numberSteps and stepDelayMicros only; MOVE writes the other four stepper registers only (R22 to R27,
R107, R108). -/
def Obligations.StepperCommandsFrame : Prop :=
  (∀ (speed steps : BitVec 16) (s t : State), s.seq = .idle → exec (.cfgspeed speed steps) s = .next t →
    t.stepsRemaining = s.stepsRemaining ∧ t.currentStepIndex = s.currentStepIndex ∧ t.direction = s.direction ∧
    t.lastStepTimestamp = s.lastStepTimestamp ∧ t.chip = s.chip ∧ t.statusIn = s.statusIn ∧
    t.readIn = s.readIn ∧ t.clockIn = s.clockIn) ∧
  (∀ (p1 p2 p3 p4 : Chan) (cnt : BitVec 32) (s t : State), exec (.move p1 p2 p3 p4 cnt) s = .next t →
    t.speed = s.speed)

/-- R32: only BEGIN drives the enable pin, and it drives it to 0. -/
def Obligations.EnablePinFrame : Prop :=
  ∀ (i : Instr) (s t : State), seqInv s → exec i s = .next t →
    (i ≠ .begin → t.en = s.en) ∧ (i = .begin → t.en = .low)

/-- Every chip register outside those a command stores to reads as before, known or unknown, whichever transactions fail; two
commands make others unknown: BEGIN all but 0x00 and 0x01, SWRESET all (R34, R42, R46, R81 to R92, R96, R97, R106, R117,
R118, U2). That they do so when their transactions fail too is the model's choice (log entries 10 and 30). -/
def Obligations.ChipFrame : Prop :=
  (∀ (i : Instr) (s t : State), seqInv s → exec i s = .next t → i ≠ .begin → i ≠ .swreset →
    ∀ a : Nat, (∀ r ∈ storeTargets s.params i, r.toNat ≠ a) →
      Memory.read t.chip a = Memory.read s.chip a ∧ chipHolds t a = chipHolds s a) ∧
  (∀ s t : State, seqInv s → exec .begin s = .next t → ∀ a : Nat, a ≠ 0x00 → a ≠ 0x01 → Memory.read t.chip a = none) ∧
  (∀ s t : State, seqInv s → exec .swreset s = .next t → ∀ a : Nat, Memory.read t.chip a = none)

/-- No command changes the parameters or takes a command from the host; the trace only grows (R11, R18, R143). -/
def Obligations.ParametersAndTraceFrame : Prop :=
  ∀ (i : Instr) (s t : State), exec i s = .next t →
    t.params = s.params ∧ t.cmdIn = s.cmdIn ∧ ∃ events, t.trace = s.trace ++ events

/-- R126: an error other than BusTransportFailure leaves the chip registers and every sequencer register other than
status and data as they were before the command. -/
def Obligations.ErrorsLeaveStateUnchanged : Prop :=
  ∀ (i : Instr) (s t : State) (e : ErrorKind) (info : Nat), s.seq = .idle → exec i s = .next t →
    t.trace.getLast? = some (.raised e info) → t.seq = .idle → e ≠ .busTransportFailure →
    t.chip = s.chip ∧ sameStepper s t ∧ t.en = s.en ∧ t.epoch = s.epoch ∧ t.lost = s.lost

/-- R124: under Continue no command ends with BusTransportFailure. -/
def Obligations.ContinueNeverRaisesBusFailure : Prop :=
  ∀ (i : Instr) (s t : State), seqInv s → s.params.busFail = .continue_ → exec i s = .next t →
    ∃ events, t.trace = s.trace ++ events ∧ ∀ info, Event.raised .busTransportFailure info ∉ events

/-! ## Invariants -/

/-- The machine's invariant holds at reset. -/
def Obligations.ResetMeetsInvariant : Prop := Inv State.reset ∧ traceOnMap State.reset ∧ responseInv State.reset

/-- Every step keeps the machine's invariant (R22 to R32, R38 to R42). -/
def Obligations.StepKeepsInvariant : Prop := ∀ s t : State, Inv s → step s = .next t → Inv t

/-- Every step stays on the register map and the two device addresses, and never drives the pin high: 0x0A, 0x0B and
0x0E..0xFF are never accessed, 0x00 and 0x01 only written, with their one value (R32, R40 to R42). -/
def Obligations.StepStaysOnRegisterMap : Prop :=
  ∀ s t : State, Inv s → traceOnMap s → step s = .next t → traceOnMap t

/-- Every step keeps the response registers equal to the last response of the trace (R28 to R30, R130). -/
def Obligations.StepKeepsResponse : Prop :=
  ∀ s t : State, responseInv s → step s = .next t → responseInv t

/-- No fault and no refusal: in every state meeting the invariant the machine takes a step (R120). -/
def Obligations.StepAlwaysAnswers : Prop := ∀ s : State, Inv s → ∃ t, step s = .next t
end

