-- ==== Sys2Proof/Laws/State.lean ====
section
/-! SUPPORT. What each state update does to each field: one lemma per field per update, for the simp set. -/

namespace Sys2Proof.Machine

/-! ## emit -/

@[simp] theorem emit_speed (e : Event) (s : State) : (emit e s).speed = s.speed := rfl
@[simp] theorem emit_stepsRemaining (e : Event) (s : State) : (emit e s).stepsRemaining = s.stepsRemaining := rfl
@[simp] theorem emit_currentStepIndex (e : Event) (s : State) : (emit e s).currentStepIndex = s.currentStepIndex := rfl
@[simp] theorem emit_direction (e : Event) (s : State) : (emit e s).direction = s.direction := rfl
@[simp] theorem emit_lastStepTimestamp (e : Event) (s : State) : (emit e s).lastStepTimestamp = s.lastStepTimestamp := rfl
@[simp] theorem emit_status (e : Event) (s : State) : (emit e s).status = s.status := rfl
@[simp] theorem emit_data (e : Event) (s : State) : (emit e s).data = s.data := rfl
@[simp] theorem emit_seq (e : Event) (s : State) : (emit e s).seq = s.seq := rfl
@[simp] theorem emit_en (e : Event) (s : State) : (emit e s).en = s.en := rfl
@[simp] theorem emit_chip (e : Event) (s : State) : (emit e s).chip = s.chip := rfl
@[simp] theorem emit_params (e : Event) (s : State) : (emit e s).params = s.params := rfl
@[simp] theorem emit_cmdIn (e : Event) (s : State) : (emit e s).cmdIn = s.cmdIn := rfl
@[simp] theorem emit_statusIn (e : Event) (s : State) : (emit e s).statusIn = s.statusIn := rfl
@[simp] theorem emit_readIn (e : Event) (s : State) : (emit e s).readIn = s.readIn := rfl
@[simp] theorem emit_clockIn (e : Event) (s : State) : (emit e s).clockIn = s.clockIn := rfl
@[simp] theorem emit_draws (e : Event) (s : State) : (emit e s).draws = s.draws := rfl
@[simp] theorem emit_epoch (e : Event) (s : State) : (emit e s).epoch = s.epoch := rfl
@[simp] theorem emit_lost (e : Event) (s : State) : (emit e s).lost = s.lost := rfl
@[simp] theorem emit_trace (e : Event) (s : State) : (emit e s).trace = s.trace ++ [e] := rfl

/-! ## respond -/

@[simp] theorem respond_speed (d : Byte) (s : State) : (respond d s).speed = s.speed := rfl
@[simp] theorem respond_stepsRemaining (d : Byte) (s : State) : (respond d s).stepsRemaining = s.stepsRemaining := rfl
@[simp] theorem respond_currentStepIndex (d : Byte) (s : State) : (respond d s).currentStepIndex = s.currentStepIndex := rfl
@[simp] theorem respond_direction (d : Byte) (s : State) : (respond d s).direction = s.direction := rfl
@[simp] theorem respond_lastStepTimestamp (d : Byte) (s : State) : (respond d s).lastStepTimestamp = s.lastStepTimestamp := rfl
@[simp] theorem respond_status (d : Byte) (s : State) : (respond d s).status = statusOk := rfl
@[simp] theorem respond_data (d : Byte) (s : State) : (respond d s).data = d := rfl
@[simp] theorem respond_seq (d : Byte) (s : State) : (respond d s).seq = .idle := rfl
@[simp] theorem respond_en (d : Byte) (s : State) : (respond d s).en = s.en := rfl
@[simp] theorem respond_chip (d : Byte) (s : State) : (respond d s).chip = s.chip := rfl
@[simp] theorem respond_params (d : Byte) (s : State) : (respond d s).params = s.params := rfl
@[simp] theorem respond_cmdIn (d : Byte) (s : State) : (respond d s).cmdIn = s.cmdIn := rfl
@[simp] theorem respond_statusIn (d : Byte) (s : State) : (respond d s).statusIn = s.statusIn := rfl
@[simp] theorem respond_readIn (d : Byte) (s : State) : (respond d s).readIn = s.readIn := rfl
@[simp] theorem respond_clockIn (d : Byte) (s : State) : (respond d s).clockIn = s.clockIn := rfl
@[simp] theorem respond_draws (d : Byte) (s : State) : (respond d s).draws = s.draws := rfl
@[simp] theorem respond_epoch (d : Byte) (s : State) : (respond d s).epoch = s.epoch := rfl
@[simp] theorem respond_lost (d : Byte) (s : State) : (respond d s).lost = s.lost := rfl
@[simp] theorem respond_trace (d : Byte) (s : State) : (respond d s).trace = s.trace ++ [.responded d] := rfl

/-! ## raise -/

@[simp] theorem raise_speed (e : ErrorKind) (n : Nat) (s : State) : (raise e n s).speed = s.speed := rfl
@[simp] theorem raise_stepsRemaining (e : ErrorKind) (n : Nat) (s : State) : (raise e n s).stepsRemaining = s.stepsRemaining := rfl
@[simp] theorem raise_currentStepIndex (e : ErrorKind) (n : Nat) (s : State) : (raise e n s).currentStepIndex = s.currentStepIndex := rfl
@[simp] theorem raise_direction (e : ErrorKind) (n : Nat) (s : State) : (raise e n s).direction = s.direction := rfl
@[simp] theorem raise_lastStepTimestamp (e : ErrorKind) (n : Nat) (s : State) : (raise e n s).lastStepTimestamp = s.lastStepTimestamp := rfl
@[simp] theorem raise_status (e : ErrorKind) (n : Nat) (s : State) : (raise e n s).status = statusCode e := rfl
@[simp] theorem raise_data (e : ErrorKind) (n : Nat) (s : State) : (raise e n s).data = 0 := rfl
@[simp] theorem raise_seq (e : ErrorKind) (n : Nat) (s : State) : (raise e n s).seq = .idle := rfl
@[simp] theorem raise_en (e : ErrorKind) (n : Nat) (s : State) : (raise e n s).en = s.en := rfl
@[simp] theorem raise_chip (e : ErrorKind) (n : Nat) (s : State) : (raise e n s).chip = s.chip := rfl
@[simp] theorem raise_params (e : ErrorKind) (n : Nat) (s : State) : (raise e n s).params = s.params := rfl
@[simp] theorem raise_cmdIn (e : ErrorKind) (n : Nat) (s : State) : (raise e n s).cmdIn = s.cmdIn := rfl
@[simp] theorem raise_statusIn (e : ErrorKind) (n : Nat) (s : State) : (raise e n s).statusIn = s.statusIn := rfl
@[simp] theorem raise_readIn (e : ErrorKind) (n : Nat) (s : State) : (raise e n s).readIn = s.readIn := rfl
@[simp] theorem raise_clockIn (e : ErrorKind) (n : Nat) (s : State) : (raise e n s).clockIn = s.clockIn := rfl
@[simp] theorem raise_draws (e : ErrorKind) (n : Nat) (s : State) : (raise e n s).draws = s.draws := rfl
@[simp] theorem raise_epoch (e : ErrorKind) (n : Nat) (s : State) : (raise e n s).epoch = s.epoch := rfl
@[simp] theorem raise_lost (e : ErrorKind) (n : Nat) (s : State) : (raise e n s).lost = s.lost := rfl
@[simp] theorem raise_trace (e : ErrorKind) (n : Nat) (s : State) : (raise e n s).trace = s.trace ++ [.raised e n] := rfl

/-! ## goOn -/

@[simp] theorem goOn_speed (c : Word) (p : List MicroOp) (n : Nat) (s : State) : (goOn c p n s).speed = s.speed := rfl
@[simp] theorem goOn_stepsRemaining (c : Word) (p : List MicroOp) (n : Nat) (s : State) : (goOn c p n s).stepsRemaining = s.stepsRemaining := rfl
@[simp] theorem goOn_currentStepIndex (c : Word) (p : List MicroOp) (n : Nat) (s : State) : (goOn c p n s).currentStepIndex = s.currentStepIndex := rfl
@[simp] theorem goOn_direction (c : Word) (p : List MicroOp) (n : Nat) (s : State) : (goOn c p n s).direction = s.direction := rfl
@[simp] theorem goOn_lastStepTimestamp (c : Word) (p : List MicroOp) (n : Nat) (s : State) : (goOn c p n s).lastStepTimestamp = s.lastStepTimestamp := rfl
@[simp] theorem goOn_status (c : Word) (p : List MicroOp) (n : Nat) (s : State) : (goOn c p n s).status = s.status := rfl
@[simp] theorem goOn_data (c : Word) (p : List MicroOp) (n : Nat) (s : State) : (goOn c p n s).data = s.data := rfl
@[simp] theorem goOn_seq (c : Word) (p : List MicroOp) (n : Nat) (s : State) : (goOn c p n s).seq = .busy c p n := rfl
@[simp] theorem goOn_en (c : Word) (p : List MicroOp) (n : Nat) (s : State) : (goOn c p n s).en = s.en := rfl
@[simp] theorem goOn_chip (c : Word) (p : List MicroOp) (n : Nat) (s : State) : (goOn c p n s).chip = s.chip := rfl
@[simp] theorem goOn_params (c : Word) (p : List MicroOp) (n : Nat) (s : State) : (goOn c p n s).params = s.params := rfl
@[simp] theorem goOn_cmdIn (c : Word) (p : List MicroOp) (n : Nat) (s : State) : (goOn c p n s).cmdIn = s.cmdIn := rfl
@[simp] theorem goOn_statusIn (c : Word) (p : List MicroOp) (n : Nat) (s : State) : (goOn c p n s).statusIn = s.statusIn := rfl
@[simp] theorem goOn_readIn (c : Word) (p : List MicroOp) (n : Nat) (s : State) : (goOn c p n s).readIn = s.readIn := rfl
@[simp] theorem goOn_clockIn (c : Word) (p : List MicroOp) (n : Nat) (s : State) : (goOn c p n s).clockIn = s.clockIn := rfl
@[simp] theorem goOn_draws (c : Word) (p : List MicroOp) (n : Nat) (s : State) : (goOn c p n s).draws = s.draws := rfl
@[simp] theorem goOn_epoch (c : Word) (p : List MicroOp) (n : Nat) (s : State) : (goOn c p n s).epoch = s.epoch := rfl
@[simp] theorem goOn_lost (c : Word) (p : List MicroOp) (n : Nat) (s : State) : (goOn c p n s).lost = s.lost := rfl
@[simp] theorem goOn_trace (c : Word) (p : List MicroOp) (n : Nat) (s : State) : (goOn c p n s).trace = s.trace := rfl

/-! ## storeReg -/

@[simp] theorem storeReg_speed (a v : Byte) (s : State) : (storeReg a v s).speed = s.speed := rfl
@[simp] theorem storeReg_stepsRemaining (a v : Byte) (s : State) : (storeReg a v s).stepsRemaining = s.stepsRemaining := rfl
@[simp] theorem storeReg_currentStepIndex (a v : Byte) (s : State) : (storeReg a v s).currentStepIndex = s.currentStepIndex := rfl
@[simp] theorem storeReg_direction (a v : Byte) (s : State) : (storeReg a v s).direction = s.direction := rfl
@[simp] theorem storeReg_lastStepTimestamp (a v : Byte) (s : State) : (storeReg a v s).lastStepTimestamp = s.lastStepTimestamp := rfl
@[simp] theorem storeReg_status (a v : Byte) (s : State) : (storeReg a v s).status = s.status := rfl
@[simp] theorem storeReg_data (a v : Byte) (s : State) : (storeReg a v s).data = s.data := rfl
@[simp] theorem storeReg_seq (a v : Byte) (s : State) : (storeReg a v s).seq = s.seq := rfl
@[simp] theorem storeReg_en (a v : Byte) (s : State) : (storeReg a v s).en = s.en := rfl
@[simp] theorem storeReg_chip (a v : Byte) (s : State) : (storeReg a v s).chip = Memory.write s.chip a.toNat v := rfl
@[simp] theorem storeReg_params (a v : Byte) (s : State) : (storeReg a v s).params = s.params := rfl
@[simp] theorem storeReg_cmdIn (a v : Byte) (s : State) : (storeReg a v s).cmdIn = s.cmdIn := rfl
@[simp] theorem storeReg_statusIn (a v : Byte) (s : State) : (storeReg a v s).statusIn = s.statusIn := rfl
@[simp] theorem storeReg_readIn (a v : Byte) (s : State) : (storeReg a v s).readIn = s.readIn := rfl
@[simp] theorem storeReg_clockIn (a v : Byte) (s : State) : (storeReg a v s).clockIn = s.clockIn := rfl
@[simp] theorem storeReg_draws (a v : Byte) (s : State) : (storeReg a v s).draws = s.draws := rfl
@[simp] theorem storeReg_epoch (a v : Byte) (s : State) : (storeReg a v s).epoch = s.epoch := rfl
@[simp] theorem storeReg_lost (a v : Byte) (s : State) : (storeReg a v s).lost = s.lost := rfl
@[simp] theorem storeReg_trace (a v : Byte) (s : State) : (storeReg a v s).trace = s.trace := rfl

/-! ## forgetReg -/

@[simp] theorem forgetReg_speed (a : Byte) (s : State) : (forgetReg a s).speed = s.speed := rfl
@[simp] theorem forgetReg_stepsRemaining (a : Byte) (s : State) : (forgetReg a s).stepsRemaining = s.stepsRemaining := rfl
@[simp] theorem forgetReg_currentStepIndex (a : Byte) (s : State) : (forgetReg a s).currentStepIndex = s.currentStepIndex := rfl
@[simp] theorem forgetReg_direction (a : Byte) (s : State) : (forgetReg a s).direction = s.direction := rfl
@[simp] theorem forgetReg_lastStepTimestamp (a : Byte) (s : State) : (forgetReg a s).lastStepTimestamp = s.lastStepTimestamp := rfl
@[simp] theorem forgetReg_status (a : Byte) (s : State) : (forgetReg a s).status = s.status := rfl
@[simp] theorem forgetReg_data (a : Byte) (s : State) : (forgetReg a s).data = s.data := rfl
@[simp] theorem forgetReg_seq (a : Byte) (s : State) : (forgetReg a s).seq = s.seq := rfl
@[simp] theorem forgetReg_en (a : Byte) (s : State) : (forgetReg a s).en = s.en := rfl
@[simp] theorem forgetReg_chip (a : Byte) (s : State) : (forgetReg a s).chip = Memory.forget s.chip a.toNat := rfl
@[simp] theorem forgetReg_params (a : Byte) (s : State) : (forgetReg a s).params = s.params := rfl
@[simp] theorem forgetReg_cmdIn (a : Byte) (s : State) : (forgetReg a s).cmdIn = s.cmdIn := rfl
@[simp] theorem forgetReg_statusIn (a : Byte) (s : State) : (forgetReg a s).statusIn = s.statusIn := rfl
@[simp] theorem forgetReg_readIn (a : Byte) (s : State) : (forgetReg a s).readIn = s.readIn := rfl
@[simp] theorem forgetReg_clockIn (a : Byte) (s : State) : (forgetReg a s).clockIn = s.clockIn := rfl
@[simp] theorem forgetReg_draws (a : Byte) (s : State) : (forgetReg a s).draws = s.draws := rfl
@[simp] theorem forgetReg_epoch (a : Byte) (s : State) : (forgetReg a s).epoch = s.epoch := rfl
@[simp] theorem forgetReg_lost (a : Byte) (s : State) : (forgetReg a s).lost = a.toNat :: s.lost := rfl
@[simp] theorem forgetReg_trace (a : Byte) (s : State) : (forgetReg a s).trace = s.trace := rfl

/-! ## forgetChip -/

@[simp] theorem forgetChip_speed (s : State) : (forgetChip s).speed = s.speed := rfl
@[simp] theorem forgetChip_stepsRemaining (s : State) : (forgetChip s).stepsRemaining = s.stepsRemaining := rfl
@[simp] theorem forgetChip_currentStepIndex (s : State) : (forgetChip s).currentStepIndex = s.currentStepIndex := rfl
@[simp] theorem forgetChip_direction (s : State) : (forgetChip s).direction = s.direction := rfl
@[simp] theorem forgetChip_lastStepTimestamp (s : State) : (forgetChip s).lastStepTimestamp = s.lastStepTimestamp := rfl
@[simp] theorem forgetChip_status (s : State) : (forgetChip s).status = s.status := rfl
@[simp] theorem forgetChip_data (s : State) : (forgetChip s).data = s.data := rfl
@[simp] theorem forgetChip_seq (s : State) : (forgetChip s).seq = s.seq := rfl
@[simp] theorem forgetChip_en (s : State) : (forgetChip s).en = s.en := rfl
@[simp] theorem forgetChip_chip (s : State) : (forgetChip s).chip = [] := rfl
@[simp] theorem forgetChip_params (s : State) : (forgetChip s).params = s.params := rfl
@[simp] theorem forgetChip_cmdIn (s : State) : (forgetChip s).cmdIn = s.cmdIn := rfl
@[simp] theorem forgetChip_statusIn (s : State) : (forgetChip s).statusIn = s.statusIn := rfl
@[simp] theorem forgetChip_readIn (s : State) : (forgetChip s).readIn = s.readIn := rfl
@[simp] theorem forgetChip_clockIn (s : State) : (forgetChip s).clockIn = s.clockIn := rfl
@[simp] theorem forgetChip_draws (s : State) : (forgetChip s).draws = s.draws := rfl
@[simp] theorem forgetChip_epoch (s : State) : (forgetChip s).epoch = s.epoch + 1 := rfl
@[simp] theorem forgetChip_lost (s : State) : (forgetChip s).lost = s.lost := rfl
@[simp] theorem forgetChip_trace (s : State) : (forgetChip s).trace = s.trace := rfl

/-! ## forgetBesideInit -/

@[simp] theorem forgetBesideInit_speed (s : State) : (forgetBesideInit s).speed = s.speed := rfl
@[simp] theorem forgetBesideInit_stepsRemaining (s : State) : (forgetBesideInit s).stepsRemaining = s.stepsRemaining := rfl
@[simp] theorem forgetBesideInit_currentStepIndex (s : State) : (forgetBesideInit s).currentStepIndex = s.currentStepIndex := rfl
@[simp] theorem forgetBesideInit_direction (s : State) : (forgetBesideInit s).direction = s.direction := rfl
@[simp] theorem forgetBesideInit_lastStepTimestamp (s : State) : (forgetBesideInit s).lastStepTimestamp = s.lastStepTimestamp := rfl
@[simp] theorem forgetBesideInit_status (s : State) : (forgetBesideInit s).status = s.status := rfl
@[simp] theorem forgetBesideInit_data (s : State) : (forgetBesideInit s).data = s.data := rfl
@[simp] theorem forgetBesideInit_seq (s : State) : (forgetBesideInit s).seq = s.seq := rfl
@[simp] theorem forgetBesideInit_en (s : State) : (forgetBesideInit s).en = s.en := rfl
@[simp] theorem forgetBesideInit_chip (s : State) : (forgetBesideInit s).chip =
    s.chip.filter (fun c => c.1 == Sys2Proof.Config.init0.1.toNat || c.1 == Sys2Proof.Config.init1.1.toNat) := rfl
@[simp] theorem forgetBesideInit_params (s : State) : (forgetBesideInit s).params = s.params := rfl
@[simp] theorem forgetBesideInit_cmdIn (s : State) : (forgetBesideInit s).cmdIn = s.cmdIn := rfl
@[simp] theorem forgetBesideInit_statusIn (s : State) : (forgetBesideInit s).statusIn = s.statusIn := rfl
@[simp] theorem forgetBesideInit_readIn (s : State) : (forgetBesideInit s).readIn = s.readIn := rfl
@[simp] theorem forgetBesideInit_clockIn (s : State) : (forgetBesideInit s).clockIn = s.clockIn := rfl
@[simp] theorem forgetBesideInit_draws (s : State) : (forgetBesideInit s).draws = s.draws := rfl
@[simp] theorem forgetBesideInit_epoch (s : State) : (forgetBesideInit s).epoch = s.epoch + 1 := rfl
@[simp] theorem forgetBesideInit_lost (s : State) : (forgetBesideInit s).lost = s.lost := rfl
@[simp] theorem forgetBesideInit_trace (s : State) : (forgetBesideInit s).trace = s.trace := rfl

/-! ## advance -/

@[simp] theorem advance_speed (c : Speed) (now : Nat) (s : State) : (advance c now s).speed = s.speed := rfl
@[simp] theorem advance_stepsRemaining (c : Speed) (now : Nat) (s : State) : (advance c now s).stepsRemaining = s.stepsRemaining - 1 := rfl
@[simp] theorem advance_currentStepIndex (c : Speed) (now : Nat) (s : State) : (advance c now s).currentStepIndex = nextIndex s.direction c.numberSteps s.currentStepIndex := rfl
@[simp] theorem advance_direction (c : Speed) (now : Nat) (s : State) : (advance c now s).direction = s.direction := rfl
@[simp] theorem advance_lastStepTimestamp (c : Speed) (now : Nat) (s : State) : (advance c now s).lastStepTimestamp = now := rfl
@[simp] theorem advance_status (c : Speed) (now : Nat) (s : State) : (advance c now s).status = s.status := rfl
@[simp] theorem advance_data (c : Speed) (now : Nat) (s : State) : (advance c now s).data = s.data := rfl
@[simp] theorem advance_seq (c : Speed) (now : Nat) (s : State) : (advance c now s).seq = s.seq := rfl
@[simp] theorem advance_en (c : Speed) (now : Nat) (s : State) : (advance c now s).en = s.en := rfl
@[simp] theorem advance_chip (c : Speed) (now : Nat) (s : State) : (advance c now s).chip = s.chip := rfl
@[simp] theorem advance_params (c : Speed) (now : Nat) (s : State) : (advance c now s).params = s.params := rfl
@[simp] theorem advance_cmdIn (c : Speed) (now : Nat) (s : State) : (advance c now s).cmdIn = s.cmdIn := rfl
@[simp] theorem advance_statusIn (c : Speed) (now : Nat) (s : State) : (advance c now s).statusIn = s.statusIn := rfl
@[simp] theorem advance_readIn (c : Speed) (now : Nat) (s : State) : (advance c now s).readIn = s.readIn := rfl
@[simp] theorem advance_clockIn (c : Speed) (now : Nat) (s : State) : (advance c now s).clockIn = s.clockIn := rfl
@[simp] theorem advance_draws (c : Speed) (now : Nat) (s : State) : (advance c now s).draws = s.draws := rfl
@[simp] theorem advance_epoch (c : Speed) (now : Nat) (s : State) : (advance c now s).epoch = s.epoch := rfl
@[simp] theorem advance_lost (c : Speed) (now : Nat) (s : State) : (advance c now s).lost = s.lost := rfl
@[simp] theorem advance_trace (c : Speed) (now : Nat) (s : State) : (advance c now s).trace = s.trace := rfl

/-! ## popStatus: it changes only statusIn and the draw counter -/

@[simp] theorem popStatus_speed (s : State) : (popStatus s).speed = s.speed := by unfold popStatus; split <;> rfl
@[simp] theorem popStatus_stepsRemaining (s : State) : (popStatus s).stepsRemaining = s.stepsRemaining := by unfold popStatus; split <;> rfl
@[simp] theorem popStatus_currentStepIndex (s : State) : (popStatus s).currentStepIndex = s.currentStepIndex := by unfold popStatus; split <;> rfl
@[simp] theorem popStatus_direction (s : State) : (popStatus s).direction = s.direction := by unfold popStatus; split <;> rfl
@[simp] theorem popStatus_lastStepTimestamp (s : State) : (popStatus s).lastStepTimestamp = s.lastStepTimestamp := by unfold popStatus; split <;> rfl
@[simp] theorem popStatus_status (s : State) : (popStatus s).status = s.status := by unfold popStatus; split <;> rfl
@[simp] theorem popStatus_data (s : State) : (popStatus s).data = s.data := by unfold popStatus; split <;> rfl
@[simp] theorem popStatus_seq (s : State) : (popStatus s).seq = s.seq := by unfold popStatus; split <;> rfl
@[simp] theorem popStatus_en (s : State) : (popStatus s).en = s.en := by unfold popStatus; split <;> rfl
@[simp] theorem popStatus_chip (s : State) : (popStatus s).chip = s.chip := by unfold popStatus; split <;> rfl
@[simp] theorem popStatus_params (s : State) : (popStatus s).params = s.params := by unfold popStatus; split <;> rfl
@[simp] theorem popStatus_cmdIn (s : State) : (popStatus s).cmdIn = s.cmdIn := by unfold popStatus; split <;> rfl
@[simp] theorem popStatus_readIn (s : State) : (popStatus s).readIn = s.readIn := by unfold popStatus; split <;> rfl
@[simp] theorem popStatus_clockIn (s : State) : (popStatus s).clockIn = s.clockIn := by unfold popStatus; split <;> rfl
@[simp] theorem popStatus_epoch (s : State) : (popStatus s).epoch = s.epoch := by unfold popStatus; split <;> rfl
@[simp] theorem popStatus_lost (s : State) : (popStatus s).lost = s.lost := by unfold popStatus; split <;> rfl
@[simp] theorem popStatus_trace (s : State) : (popStatus s).trace = s.trace := by unfold popStatus; split <;> rfl

/-! ## popByte: it changes only readIn and the draw counter -/

@[simp] theorem popByte_speed (s : State) : (popByte s).speed = s.speed := by unfold popByte; split <;> rfl
@[simp] theorem popByte_stepsRemaining (s : State) : (popByte s).stepsRemaining = s.stepsRemaining := by unfold popByte; split <;> rfl
@[simp] theorem popByte_currentStepIndex (s : State) : (popByte s).currentStepIndex = s.currentStepIndex := by unfold popByte; split <;> rfl
@[simp] theorem popByte_direction (s : State) : (popByte s).direction = s.direction := by unfold popByte; split <;> rfl
@[simp] theorem popByte_lastStepTimestamp (s : State) : (popByte s).lastStepTimestamp = s.lastStepTimestamp := by unfold popByte; split <;> rfl
@[simp] theorem popByte_status (s : State) : (popByte s).status = s.status := by unfold popByte; split <;> rfl
@[simp] theorem popByte_data (s : State) : (popByte s).data = s.data := by unfold popByte; split <;> rfl
@[simp] theorem popByte_seq (s : State) : (popByte s).seq = s.seq := by unfold popByte; split <;> rfl
@[simp] theorem popByte_en (s : State) : (popByte s).en = s.en := by unfold popByte; split <;> rfl
@[simp] theorem popByte_chip (s : State) : (popByte s).chip = s.chip := by unfold popByte; split <;> rfl
@[simp] theorem popByte_params (s : State) : (popByte s).params = s.params := by unfold popByte; split <;> rfl
@[simp] theorem popByte_cmdIn (s : State) : (popByte s).cmdIn = s.cmdIn := by unfold popByte; split <;> rfl
@[simp] theorem popByte_statusIn (s : State) : (popByte s).statusIn = s.statusIn := by unfold popByte; split <;> rfl
@[simp] theorem popByte_clockIn (s : State) : (popByte s).clockIn = s.clockIn := by unfold popByte; split <;> rfl
@[simp] theorem popByte_epoch (s : State) : (popByte s).epoch = s.epoch := by unfold popByte; split <;> rfl
@[simp] theorem popByte_lost (s : State) : (popByte s).lost = s.lost := by unfold popByte; split <;> rfl
@[simp] theorem popByte_trace (s : State) : (popByte s).trace = s.trace := by unfold popByte; split <;> rfl

/-! ## popClock: it changes only clockIn and the draw counter -/

@[simp] theorem popClock_speed (s : State) : (popClock s).speed = s.speed := by unfold popClock; split <;> rfl
@[simp] theorem popClock_stepsRemaining (s : State) : (popClock s).stepsRemaining = s.stepsRemaining := by unfold popClock; split <;> rfl
@[simp] theorem popClock_currentStepIndex (s : State) : (popClock s).currentStepIndex = s.currentStepIndex := by unfold popClock; split <;> rfl
@[simp] theorem popClock_direction (s : State) : (popClock s).direction = s.direction := by unfold popClock; split <;> rfl
@[simp] theorem popClock_lastStepTimestamp (s : State) : (popClock s).lastStepTimestamp = s.lastStepTimestamp := by unfold popClock; split <;> rfl
@[simp] theorem popClock_status (s : State) : (popClock s).status = s.status := by unfold popClock; split <;> rfl
@[simp] theorem popClock_data (s : State) : (popClock s).data = s.data := by unfold popClock; split <;> rfl
@[simp] theorem popClock_seq (s : State) : (popClock s).seq = s.seq := by unfold popClock; split <;> rfl
@[simp] theorem popClock_en (s : State) : (popClock s).en = s.en := by unfold popClock; split <;> rfl
@[simp] theorem popClock_chip (s : State) : (popClock s).chip = s.chip := by unfold popClock; split <;> rfl
@[simp] theorem popClock_params (s : State) : (popClock s).params = s.params := by unfold popClock; split <;> rfl
@[simp] theorem popClock_cmdIn (s : State) : (popClock s).cmdIn = s.cmdIn := by unfold popClock; split <;> rfl
@[simp] theorem popClock_statusIn (s : State) : (popClock s).statusIn = s.statusIn := by unfold popClock; split <;> rfl
@[simp] theorem popClock_readIn (s : State) : (popClock s).readIn = s.readIn := by unfold popClock; split <;> rfl
@[simp] theorem popClock_epoch (s : State) : (popClock s).epoch = s.epoch := by unfold popClock; split <;> rfl
@[simp] theorem popClock_lost (s : State) : (popClock s).lost = s.lost := by unfold popClock; split <;> rfl
@[simp] theorem popClock_trace (s : State) : (popClock s).trace = s.trace := by unfold popClock; split <;> rfl

/-! ## popAnswer: it changes only readIn and the draw counter -/

@[simp] theorem popAnswer_speed (s : State) : (popAnswer s).speed = s.speed := by unfold popAnswer; split; exacts [popByte_speed s, rfl]
@[simp] theorem popAnswer_stepsRemaining (s : State) : (popAnswer s).stepsRemaining = s.stepsRemaining := by unfold popAnswer; split; exacts [popByte_stepsRemaining s, rfl]
@[simp] theorem popAnswer_currentStepIndex (s : State) : (popAnswer s).currentStepIndex = s.currentStepIndex := by unfold popAnswer; split; exacts [popByte_currentStepIndex s, rfl]
@[simp] theorem popAnswer_direction (s : State) : (popAnswer s).direction = s.direction := by unfold popAnswer; split; exacts [popByte_direction s, rfl]
@[simp] theorem popAnswer_lastStepTimestamp (s : State) : (popAnswer s).lastStepTimestamp = s.lastStepTimestamp := by unfold popAnswer; split; exacts [popByte_lastStepTimestamp s, rfl]
@[simp] theorem popAnswer_status (s : State) : (popAnswer s).status = s.status := by unfold popAnswer; split; exacts [popByte_status s, rfl]
@[simp] theorem popAnswer_data (s : State) : (popAnswer s).data = s.data := by unfold popAnswer; split; exacts [popByte_data s, rfl]
@[simp] theorem popAnswer_seq (s : State) : (popAnswer s).seq = s.seq := by unfold popAnswer; split; exacts [popByte_seq s, rfl]
@[simp] theorem popAnswer_en (s : State) : (popAnswer s).en = s.en := by unfold popAnswer; split; exacts [popByte_en s, rfl]
@[simp] theorem popAnswer_chip (s : State) : (popAnswer s).chip = s.chip := by unfold popAnswer; split; exacts [popByte_chip s, rfl]
@[simp] theorem popAnswer_params (s : State) : (popAnswer s).params = s.params := by unfold popAnswer; split; exacts [popByte_params s, rfl]
@[simp] theorem popAnswer_cmdIn (s : State) : (popAnswer s).cmdIn = s.cmdIn := by unfold popAnswer; split; exacts [popByte_cmdIn s, rfl]
@[simp] theorem popAnswer_statusIn (s : State) : (popAnswer s).statusIn = s.statusIn := by unfold popAnswer; split; exacts [popByte_statusIn s, rfl]
@[simp] theorem popAnswer_clockIn (s : State) : (popAnswer s).clockIn = s.clockIn := by unfold popAnswer; split; exacts [popByte_clockIn s, rfl]
@[simp] theorem popAnswer_epoch (s : State) : (popAnswer s).epoch = s.epoch := by unfold popAnswer; split; exacts [popByte_epoch s, rfl]
@[simp] theorem popAnswer_lost (s : State) : (popAnswer s).lost = s.lost := by unfold popAnswer; split; exacts [popByte_lost s, rfl]
@[simp] theorem popAnswer_trace (s : State) : (popAnswer s).trace = s.trace := by unfold popAnswer; split; exacts [popByte_trace s, rfl]

/-! ## Scripted inputs -/

/-- A scripted status is the next status. -/
theorem nextStatus_cons {s : State} {b : Bool} {l : List Bool} (h : s.statusIn = b :: l) : nextStatus s = b := by
  simp [nextStatus, h]

/-- Taking a scripted status leaves the rest of the script. -/
theorem popStatus_cons {s : State} {b : Bool} {l : List Bool} (h : s.statusIn = b :: l) :
    popStatus s = { s with statusIn := l } := by
  simp [popStatus, h]

/-- A scripted byte is the next byte. -/
theorem nextByte_cons {s : State} {b : Byte} {l : List Byte} (h : s.readIn = b :: l) : nextByte s = b := by
  simp [nextByte, h]

/-- Taking a scripted byte leaves the rest of the script. -/
theorem popByte_cons {s : State} {b : Byte} {l : List Byte} (h : s.readIn = b :: l) :
    popByte s = { s with readIn := l } := by
  simp [popByte, h]

/-- A scripted clock sample, reduced to the clock's width, is the next sample. -/
theorem nextClock_cons {s : State} {t : Nat} {l : List Nat} (h : s.clockIn = t :: l) :
    nextClock s = t % 2 ^ s.params.clockBits := by
  simp [nextClock, h]

/-- Taking a scripted clock sample leaves the rest of the script. -/
theorem popClock_cons {s : State} {t : Nat} {l : List Nat} (h : s.clockIn = t :: l) :
    popClock s = { s with clockIn := l } := by
  simp [popClock, h]

/-- A clock sample is CLOCK_BITS wide (R134). -/
theorem nextClock_lt (s : State) : nextClock s < 2 ^ s.params.clockBits :=
  Nat.mod_lt _ (Nat.two_pow_pos _)

/-- Under the free oracle a read answers the next unconstrained byte (R43). -/
theorem answerByte_transport {s : State} (a : Byte) (h : s.params.oracle = .transport) :
    answerByte a s = nextByte s ∧ popAnswer s = popByte s := by
  simp [answerByte, popAnswer, h]

/-- Under the reference register file a read answers what the register holds and takes no input (R44, R46). -/
theorem answerByte_registerFile {s : State} (a : Byte) (h : s.params.oracle = .registerFile) :
    answerByte a s = chipHolds s a.toNat ∧ popAnswer s = s := by
  simp [answerByte, popAnswer, h]

end Sys2Proof.Machine
end

