-- ==== Sys2Proof/Laws/Memory.lean ====
section
/-! SUPPORT. The chip register file: a read after a write or a forget (R44), and that every operation keeps the
canonical form. -/

namespace Sys2Proof.Machine

theorem Memory.read_insert_same (m : Memory) (a : Nat) (v : Byte) (h : ∀ c ∈ m, c.1 ≠ a) :
    Memory.read (Memory.insert (a, v) m) a = some v := by
  induction m with
  | nil => simp [Memory.insert, Memory.read]
  | cons c rest ih =>
    obtain ⟨x, w⟩ := c
    have hx : x ≠ a := h (x, w) (by simp)
    have hrest : ∀ c ∈ rest, c.1 ≠ a := fun c hc => h c (by simp [hc])
    by_cases hlt : a < x
    · simp [Memory.insert, hlt, Memory.read]
    · simp [Memory.insert, hlt, Memory.read, hx, ih hrest]

theorem Memory.read_insert_other (m : Memory) (a b : Nat) (v : Byte) (h : b ≠ a) :
    Memory.read (Memory.insert (a, v) m) b = Memory.read m b := by
  induction m with
  | nil => simp [Memory.insert, Memory.read, h.symm]
  | cons c rest ih =>
    obtain ⟨x, w⟩ := c
    by_cases hlt : a < x
    · simp [Memory.insert, hlt, Memory.read, h.symm]
    · simp [Memory.insert, hlt, Memory.read, ih]

/-- A forgotten register is unknown. -/
@[simp] theorem Memory.read_forget_same (m : Memory) (a : Nat) : Memory.read (Memory.forget m a) a = none := by
  induction m with
  | nil => rfl
  | cons c rest ih =>
    obtain ⟨x, w⟩ := c
    by_cases hx : x = a
    · simpa [Memory.forget, hx] using ih
    · have hc : Memory.forget ((x, w) :: rest) a = (x, w) :: Memory.forget rest a := by simp [Memory.forget, hx]
      simp [hc, Memory.read, hx, ih]

/-- Forgetting a register leaves every other one. -/
theorem Memory.read_forget_other (m : Memory) (a b : Nat) (h : b ≠ a) :
    Memory.read (Memory.forget m a) b = Memory.read m b := by
  induction m with
  | nil => rfl
  | cons c rest ih =>
    obtain ⟨x, w⟩ := c
    by_cases hx : x = a
    · have hc : Memory.forget ((x, w) :: rest) a = Memory.forget rest a := by simp [Memory.forget, hx]
      rw [hc, ih]
      simp [Memory.read, hx, h.symm]
    · have hc : Memory.forget ((x, w) :: rest) a = (x, w) :: Memory.forget rest a := by simp [Memory.forget, hx]
      simp [hc, Memory.read, ih]

/-- A read after a write of the same register gives the value written (R44). -/
@[simp] theorem Memory.read_write_same (m : Memory) (a : Nat) (v : Byte) :
    Memory.read (Memory.write m a v) a = some v :=
  Memory.read_insert_same _ a v (by simp [Memory.forget])

/-- A write leaves every other register. -/
theorem Memory.read_write_other (m : Memory) (a b : Nat) (v : Byte) (h : b ≠ a) :
    Memory.read (Memory.write m a v) b = Memory.read m b := by
  rw [Memory.write, Memory.read_insert_other _ _ _ _ h, Memory.read_forget_other _ _ _ h]

/-- The register file after a write, at any address. -/
theorem Memory.read_write (m : Memory) (a b : Nat) (v : Byte) :
    Memory.read (Memory.write m a v) b = if b = a then some v else Memory.read m b := by
  by_cases h : b = a
  · simp [h]
  · simp [h, Memory.read_write_other]

/-- The register file after a forget, at any address. -/
theorem Memory.read_forget (m : Memory) (a b : Nat) :
    Memory.read (Memory.forget m a) b = if b = a then none else Memory.read m b := by
  by_cases h : b = a
  · simp [h]
  · simp [h, Memory.read_forget_other]

theorem Memory.wf_nil : Memory.wf [] := by simp [Memory.wf]

/-- Forgetting keeps the canonical form. -/
theorem Memory.wf_forget {m : Memory} (a : Nat) (h : m.wf) : (Memory.forget m a).wf :=
  ⟨h.1.filter _, fun c hc => h.2 c (List.mem_of_mem_filter hc)⟩

theorem Memory.mem_insert {cell c : Host.Cell} {m : Memory} :
    c ∈ Memory.insert cell m ↔ c = cell ∨ c ∈ m := by
  induction m with
  | nil => simp [Memory.insert]
  | cons d rest ih =>
    by_cases hlt : cell.1 < d.1
    · simp [Memory.insert, hlt]
    · simp [Memory.insert, hlt, ih]; tauto

theorem Memory.sorted_insert {cell : Host.Cell} {m : Memory} (hm : m.Pairwise (fun x y => x.1 < y.1))
    (hne : ∀ c ∈ m, c.1 ≠ cell.1) : (Memory.insert cell m).Pairwise (fun x y => x.1 < y.1) := by
  induction m with
  | nil => simp [Memory.insert]
  | cons d rest ih =>
    obtain ⟨hd, hrest⟩ := List.pairwise_cons.1 hm
    have hdne : d.1 ≠ cell.1 := hne d (by simp)
    by_cases hlt : cell.1 < d.1
    · simp only [Memory.insert, hlt, if_true, List.pairwise_cons]
      refine ⟨fun c hc => ?_, hd, hrest⟩
      rcases List.mem_cons.1 hc with rfl | hc
      · exact hlt
      · exact hlt.trans (hd c hc)
    · simp only [Memory.insert, hlt, if_false, List.pairwise_cons]
      refine ⟨fun c hc => ?_, ih hrest (fun c hc => hne c (by simp [hc]))⟩
      rcases Memory.mem_insert.1 hc with rfl | hc
      · omega
      · exact hd c hc

/-- Writing an 8-bit address keeps the canonical form. -/
theorem Memory.wf_write {m : Memory} {a : Nat} (v : Byte) (ha : a < 256) (h : m.wf) : (Memory.write m a v).wf := by
  obtain ⟨hs, hb⟩ := Memory.wf_forget a h
  refine ⟨Memory.sorted_insert hs (by simp [Memory.forget]), fun c hc => ?_⟩
  rcases Memory.mem_insert.1 hc with rfl | hc
  · exact ha
  · exact hb c hc

/-- A successful register write keeps the canonical form. -/
theorem storeReg_wf (a v : Byte) {s : State} (h : s.chip.wf) : (storeReg a v s).chip.wf :=
  Memory.wf_write v a.isLt h

/-- A failed register write keeps the canonical form. -/
theorem forgetReg_wf (a : Byte) {s : State} (h : s.chip.wf) : (forgetReg a s).chip.wf := Memory.wf_forget _ h

/-- A raw bus write keeps the canonical form. -/
theorem busEffect_wf (dev : Sys2Proof.DevAddr) (bytes : List Byte) (ok : Bool) {s : State} (h : s.chip.wf) :
    (busEffect dev bytes ok s).chip.wf := by
  unfold busEffect
  split
  · exact Memory.wf_nil
  split
  · split
    · split
      · exact storeReg_wf _ _ h
      · exact forgetReg_wf _ h
    · exact Memory.wf_nil
  · exact Memory.wf_nil

/-- BEGIN's bus initialisation keeps the canonical form. -/
theorem forgetBesideInit_wf {s : State} (h : s.chip.wf) : (forgetBesideInit s).chip.wf :=
  ⟨h.1.filter _, fun c hc => h.2 c (List.mem_of_mem_filter hc)⟩

/-- A filter on addresses keeps a register it lets through and forgets one it does not. -/
theorem Memory.read_filter (m : Memory) (p : Nat → Bool) (a : Nat) :
    Memory.read (m.filter (fun c => p c.1)) a = if p a then Memory.read m a else none := by
  induction m with
  | nil => simp [Memory.read]
  | cons c rest ih =>
    obtain ⟨x, w⟩ := c
    by_cases hx : x = a
    · subst hx; cases hp : p x <;> simp [Memory.read, hp, ih]
    · cases hp : p x <;> simp [Memory.read, hp, hx, ih]

/-- After BEGIN's bus initialisation registers 0x00 and 0x01 read as before, every other one is unknown (U2). -/
theorem forgetBesideInit_read (s : State) (a : Nat) :
    Memory.read (forgetBesideInit s).chip a = if a = 0 ∨ a = 1 then Memory.read s.chip a else none := by
  rw [forgetBesideInit_chip,
    Memory.read_filter s.chip (fun x => x == Config.init0.1.toNat || x == Config.init1.1.toNat)]
  simp [Config.init0, Config.init1]

/-- BEGIN's first write, on the register file its bus initialisation leaves. -/
theorem write_init0_forgetBesideInit (s : State) (v : Byte) :
    Memory.forget (Memory.write (forgetBesideInit s).chip 0 v) 1 = [(0, v)] := by
  have h : ∀ m : Memory, (∀ c ∈ m, c.1 = 1) → Memory.forget (Memory.insert (0, v) m) 1 = [(0, v)] := by
    intro m hm
    have hf : m.filter (fun c => c.1 != 1) = [] := by simpa using hm
    cases m with
    | nil => simp [Memory.insert, Memory.forget]
    | cons c rest =>
      have hc : c.1 = 1 := hm c List.mem_cons_self
      have hi : Memory.insert (0, v) (c :: rest) = (0, v) :: c :: rest := by simp [Memory.insert, hc]
      rw [hi, Memory.forget, List.filter_cons, hf]
      simp
  refine h _ (fun c hc => ?_)
  simp only [Memory.forget, forgetBesideInit_chip, List.mem_filter, Config.init0, Config.init1] at hc
  simp at hc
  omega

/-- At reset every register is unknown (R34), in the canonical form. -/
theorem reset_chip_wf : State.reset.chip.wf := Memory.wf_nil

/-! ## What the register file answers (R44, R46) -/

/-- Three fields decide what the register file answers. -/
theorem chipHolds_congr {s t : State} {a : Nat} (hc : Memory.read t.chip a = Memory.read s.chip a)
    (he : t.epoch = s.epoch) (hl : t.lost.count a = s.lost.count a) : chipHolds t a = chipHolds s a := by
  simp [chipHolds, unlistedByte, hc, he, hl]

/-- A register that is written answers the value written. -/
@[simp] theorem chipHolds_storeReg_same (a v : Sys2Proof.Byte) (s : State) : chipHolds (storeReg a v s) a.toNat = v := by
  simp [chipHolds]

/-- A write leaves every other register's answer. -/
theorem chipHolds_storeReg_other (a v : Sys2Proof.Byte) (s : State) {b : Nat} (h : b ≠ a.toNat) :
    chipHolds (storeReg a v s) b = chipHolds s b :=
  chipHolds_congr (by simp [Memory.read_write_other _ _ _ _ h]) rfl rfl

/-- A failed write leaves every other register's answer, known or not (R46, R127). -/
theorem chipHolds_forgetReg_other (a : Sys2Proof.Byte) (s : State) {b : Nat} (h : b ≠ a.toNat) :
    chipHolds (forgetReg a s) b = chipHolds s b :=
  chipHolds_congr (by simp [Memory.read_forget_other _ _ _ h]) rfl (by simp [Ne.symm h])

end Sys2Proof.Machine
end

