-- ==== Sys2Proof/Laws/Run.lean ====
section
/-! SUPPORT. What the shared operations do: each micro-operation's outcome on success and on failure, and how a script
runs from one micro-operation to the next until the step ends. -/

namespace Sys2Proof.Machine

open Sys2Proof.Config

/-! ## Micro-operations do not read the position they overwrite -/

@[simp] theorem goOn_goOn (c c' : Word) (p p' : List MicroOp) (n n' : Nat) (s : State) :
    goOn c p n (goOn c' p' n' s) = goOn c p n s := rfl

@[simp] theorem nextStatus_goOn (c : Word) (p : List MicroOp) (n : Nat) (s : State) :
    nextStatus (goOn c p n s) = nextStatus s := rfl

@[simp] theorem nextByte_goOn (c : Word) (p : List MicroOp) (n : Nat) (s : State) :
    nextByte (goOn c p n s) = nextByte s := rfl

@[simp] theorem nextClock_goOn (c : Word) (p : List MicroOp) (n : Nat) (s : State) :
    nextClock (goOn c p n s) = nextClock s := rfl

@[simp] theorem answerByte_goOn (a : Byte) (c : Word) (p : List MicroOp) (n : Nat) (s : State) :
    answerByte a (goOn c p n s) = answerByte a s := rfl

theorem popStatus_goOn (c : Word) (p : List MicroOp) (n : Nat) (s : State) :
    popStatus (goOn c p n s) = goOn c p n (popStatus s) := by
  unfold popStatus; cases h : s.statusIn <;> simp [h] <;> rfl

theorem popByte_goOn (c : Word) (p : List MicroOp) (n : Nat) (s : State) :
    popByte (goOn c p n s) = goOn c p n (popByte s) := by
  unfold popByte; cases h : s.readIn <;> simp [h] <;> rfl

theorem popClock_goOn (c : Word) (p : List MicroOp) (n : Nat) (s : State) :
    popClock (goOn c p n s) = goOn c p n (popClock s) := by
  unfold popClock; cases h : s.clockIn <;> simp [h] <;> rfl

theorem popAnswer_goOn (c : Word) (p : List MicroOp) (n : Nat) (s : State) :
    popAnswer (goOn c p n s) = goOn c p n (popAnswer s) := by
  unfold popAnswer; cases h : s.params.oracle <;> simp [h, popByte_goOn]

theorem emit_goOn (e : Event) (c : Word) (p : List MicroOp) (n : Nat) (s : State) :
    emit e (goOn c p n s) = goOn c p n (emit e s) := rfl

theorem busEffect_goOn (dev : DevAddr) (bytes : List Byte) (ok : Bool) (c : Word) (p : List MicroOp) (n : Nat)
    (s : State) : busEffect dev bytes ok (goOn c p n s) = goOn c p n (busEffect dev bytes ok s) := by
  unfold busEffect
  by_cases h1 : dev = resetDev
  · simp only [h1, if_true]; rfl
  · by_cases h2 : dev = s.params.devAddr
    · rw [if_neg h1, if_neg h1, if_pos (by simpa using h2), if_pos h2]
      split
      · split <;> rfl
      · rfl
    · rw [if_neg h1, if_neg h1, if_neg (by simpa using h2), if_neg h2]; rfl

/-- A micro-operation reads the sequencer's position from its arguments only. -/
theorem perform_goOn (op : MicroOp) (cmd c : Word) (rest p : List MicroOp) (txn n : Nat) (s : State) :
    perform op cmd rest txn (goOn c p n s) = perform op cmd rest txn s := by
  cases op with
  | read a next =>
    simp only [perform, chkRead, nextStatus_goOn, popStatus_goOn, answerByte_goOn, popAnswer_goOn, emit_goOn,
      goOn_goOn, goOn_params, nextByte_goOn, popByte_goOn]
    rfl
  | write a v =>
    simp only [perform, chkWrite, nextStatus_goOn, popStatus_goOn, emit_goOn, goOn_params]
    rfl
  | busWrite dev bytes =>
    simp only [perform, chkBus, nextStatus_goOn, popStatus_goOn, emit_goOn, busEffect_goOn, goOn_goOn]
    rfl
  | busInit => rfl
  | pinWrite level => rfl
  | delay d => rfl
  | poll p1 p2 p3 p4 =>
    simp only [perform, pollStep, nextClock_goOn, popClock_goOn, emit_goOn, goOn_goOn, goOn_params, goOn_speed,
      goOn_stepsRemaining, goOn_lastStepTimestamp]
    rfl
  | respond data => rfl
  | raise e info => rfl

/-- One micro-operation of a Busy sequencer. -/
@[simp] theorem micro_goOn_cons (cmd : Word) (op : MicroOp) (rest : List MicroOp) (n : Nat) (s : State) :
    micro (goOn cmd (op :: rest) n s) = perform op cmd rest n s := by
  show perform op cmd rest n (goOn cmd (op :: rest) n s) = _
  rw [perform_goOn]

/-! ## Where a step ends -/

/-- A position at which a step ends: nothing left, or MOVE's loop head. -/
def resting : List MicroOp → Bool
  | [] => true
  | .poll _ _ _ _ :: _ => true
  | _ => false

@[simp] theorem paused_goOn (cmd : Word) (pos : List MicroOp) (n : Nat) (s : State) :
    paused (goOn cmd pos n s) = resting pos := by
  cases pos with
  | nil => rfl
  | cons op rest => cases op <;> rfl

@[simp] theorem paused_respond (d : Byte) (s : State) : paused (respond d s) = true := rfl

@[simp] theorem paused_raise (e : ErrorKind) (n : Nat) (s : State) : paused (raise e n s) = true := rfl

/-- How many micro-operations the tail of a script can bring before the step ends. -/
def tailBound : List MicroOp → Nat
  | [] => 0
  | .poll _ _ _ _ :: _ => 0
  | op :: rest => opWeight op + tailBound rest

/-- The same for a whole script, whose first micro-operation is performed whatever it is. -/
def scriptBound : List MicroOp → Nat
  | [] => 0
  | op :: rest => opWeight op + tailBound rest

theorem opWeight_pos (op : MicroOp) : 1 ≤ opWeight op := by
  cases op with
  | read a next => cases next <;> simp [opWeight]
  | _ => simp [opWeight]

theorem tailBound_le_weight (pos : List MicroOp) : tailBound pos ≤ weight pos := by
  induction pos with
  | nil => simp [tailBound, weight]
  | cons op rest ih => cases op <;> simp_all [tailBound, weight]

theorem scriptBound_le_weight (pos : List MicroOp) : scriptBound pos ≤ weight pos := by
  cases pos with
  | nil => simp [scriptBound, weight]
  | cons op rest => simp [scriptBound, weight, tailBound_le_weight]

theorem tailBound_of_not_resting {pos : List MicroOp} (h : resting pos = false) : scriptBound pos = tailBound pos := by
  cases pos with
  | nil => rfl
  | cons op rest => cases op <;> simp_all [resting, scriptBound, tailBound]

theorem tailBound_append_le (xs ys : List MicroOp) : tailBound (xs ++ ys) ≤ weight xs + tailBound ys := by
  induction xs with
  | nil => simp [weight]
  | cons op rest ih => cases op <;> simp_all [tailBound, weight] <;> omega

theorem weight_append (xs ys : List MicroOp) : weight (xs ++ ys) = weight xs + weight ys := by
  induction xs with
  | nil => simp [weight]
  | cons op rest ih => simp [weight, ih]; omega

theorem weight_ramp (c : Chan) (i : BitVec 32) (vs : List Byte) : weight (ramp c i vs) = 2 * vs.length := by
  induction vs with
  | nil => rfl
  | cons v rest ih =>
    have : ramp c i (v :: rest) = [.write (dutyReg c) v, .delay ⟨i.toNat, .ms⟩] ++ ramp c i rest := rfl
    rw [this, weight_append, ih]
    simp [weight, opWeight]
    omega

theorem weight_setModeOne (c : Chan) (m : Mode) : weight (setModeOne c m) = 2 := rfl

theorem weight_fadeOutFrom_le (pr : Params) (c : Chan) (d0 tgt : Byte) (dur : BitVec 32) :
    weight (fadeOutFrom pr c d0 tgt dur) ≤ 516 := by
  unfold fadeOutFrom
  split
  · simp [weight, opWeight]
  · have hd := d0.isLt
    have h1 : weight (if pr.fadeoutSetsPwm then setModeOne c .pwm else []) ≤ 2 := by split <;> simp [weight_setModeOne, weight]
    have h2 : weight (if tgt = 0 then setModeOne c .off else []) ≤ 2 := by split <;> simp [weight_setModeOne, weight]
    have h3 : (rampDownValues d0 tgt).length ≤ 256 := by simp [rampDownValues]; omega
    rw [weight_append, weight_append, weight_ramp]
    omega

theorem weight_afterRead_lt (pr : Params) (a : Byte) (next : ReadThen) (b : Byte) :
    weight (afterRead pr next b) < opWeight (.read a next) := by
  cases next with
  | replaceField c m => simp [afterRead, weight, opWeight]
  | reportMode c => simp only [afterRead]; split <;> simp [weight, opWeight]
  | reportByte => simp [afterRead, weight, opWeight]
  | rampDown c tgt dur =>
    have := weight_fadeOutFrom_le pr c b tgt dur
    simp [afterRead, opWeight]; omega

theorem weight_phaseWrite_le (pr : Params) (ph : Fin 4) (d : Direction) (p1 p2 p3 p4 : Chan) :
    weight (phaseWrite pr ph d p1 p2 p3 p4) ≤ 12 := by
  unfold phaseWrite
  cases h : pr.phaseWriteOp <;> simp [setModeOne, weight, opWeight]

/-- What performing a micro-operation can lead to: the command has ended, or it is Busy with the same command word and a
script that is at its rest or strictly nearer to it. -/
theorem perform_progress (op : MicroOp) (cmd : Word) (rest : List MicroOp) (n : Nat) (s : State) :
    (perform op cmd rest n s).seq = .idle ∨
    ∃ pos k t, perform op cmd rest n s = goOn cmd pos k t ∧
      (resting pos = true ∨ tailBound pos < opWeight op + tailBound rest) := by
  have fail : ∀ (w : Nat) (t : State), 1 ≤ w →
      (afterFailure cmd rest n t).seq = .idle ∨
      ∃ pos k u, afterFailure cmd rest n t = goOn cmd pos k u ∧
        (resting pos = true ∨ tailBound pos < w + tailBound rest) := by
    intro w t hw
    unfold afterFailure
    split
    · exact .inl rfl
    · exact .inr ⟨_, _, _, rfl, .inr (by omega)⟩
  cases op with
  | read a next =>
    have hb : ∀ b, tailBound (afterRead s.params next b ++ rest) < opWeight (.read a next) + tailBound rest := by
      intro b
      have h1 := tailBound_append_le (afterRead s.params next b) rest
      have h2 := weight_afterRead_lt s.params a next b
      omega
    simp only [perform, chkRead]
    split
    · exact .inr ⟨_, _, _, rfl, .inr (hb _)⟩
    · split
      · exact .inl rfl
      · exact .inr ⟨_, _, _, rfl, .inr (hb _)⟩
  | write a v =>
    simp only [perform, chkWrite]
    split
    · exact .inr ⟨_, _, _, rfl, .inr (by simp [opWeight])⟩
    · exact fail _ _ (opWeight_pos _)
  | busWrite dev bytes =>
    simp only [perform, chkBus]
    split
    · exact .inr ⟨_, _, _, rfl, .inr (by simp [opWeight])⟩
    · exact fail _ _ (opWeight_pos _)
  | busInit => exact .inr ⟨_, _, _, rfl, .inr (by simp [opWeight])⟩
  | pinWrite level => exact .inr ⟨_, _, _, rfl, .inr (by simp [opWeight])⟩
  | delay d => exact .inr ⟨_, _, _, rfl, .inr (by simp [opWeight])⟩
  | poll p1 p2 p3 p4 =>
    simp only [perform, pollStep]
    split
    · exact .inr ⟨_, _, _, rfl, .inr (by simp [opWeight])⟩
    split
    · exact .inl rfl
    split
    · exact .inr ⟨_, _, _, rfl, .inl rfl⟩
    · refine .inr ⟨_, _, _, rfl, .inr ?_⟩
      refine lt_of_le_of_lt (tailBound_append_le _ _) ?_
      have := weight_phaseWrite_le s.params
        (phaseOf (advance ‹Speed› (nextClock s) (emit (.clockRead (nextClock s)) (popClock s))).currentStepIndex)
        (advance ‹Speed› (nextClock s) (emit (.clockRead (nextClock s)) (popClock s))).direction p1 p2 p3 p4
      split
      · simp only [opWeight]; omega
      · simp only [opWeight, tailBound]; omega
  | respond d => exact .inl rfl
  | raise e k => exact .inl rfl

theorem paused_of_idle {s : State} (h : s.seq = .idle) : paused s = true := by simp [paused, h]

/-- Enough fuel brings a script to the end of the step. -/
theorem runScript_paused : ∀ (n : Nat) (cmd : Word) (op : MicroOp) (rest : List MicroOp) (k : Nat) (s : State),
    scriptBound (op :: rest) ≤ n → paused (runScript n (goOn cmd (op :: rest) k s)) = true := by
  intro n
  induction n with
  | zero => intro cmd op rest k s h; have := opWeight_pos op; simp [scriptBound] at h; omega
  | succ n ih =>
    intro cmd op rest k s h
    simp only [runScript, micro_goOn_cons]
    split
    · assumption
    · rename_i hp
      rcases perform_progress op cmd rest k s with hi | ⟨pos, k', t, ht, hr⟩
      · exact absurd (paused_of_idle hi) hp
      · rw [ht] at hp ⊢
        simp only [paused_goOn, Bool.not_eq_true] at hp
        rcases hr with hr | hr
        · simp [hr] at hp
        · cases pos with
          | nil => simp [resting] at hp
          | cons op' rest' =>
            refine ih _ _ _ _ _ ?_
            rw [tailBound_of_not_resting hp]
            simp only [scriptBound] at h
            omega

/-- More fuel changes nothing once the step has ended. -/
theorem runScript_more (n k : Nat) (s : State) (h : paused (runScript (n + 1) s) = true) :
    runScript (n + 1 + k) s = runScript (n + 1) s := by
  induction n generalizing s with
  | zero =>
    have hm : paused (micro s) = true := by
      simp only [runScript] at h
      split at h <;> assumption
    simp [runScript, hm, Nat.add_comm 1 k]
  | succ n ih =>
    rw [show n + 1 + 1 + k = (n + 1 + k) + 1 by omega]
    by_cases hm : paused (micro s) = true
    · simp [runScript, hm]
    · have h' : paused (runScript (n + 1) (micro s)) = true := by
        rw [runScript] at h; simpa only [hm, if_false, Bool.false_eq_true] using h
      rw [runScript, runScript, if_neg hm, if_neg hm]
      exact ih _ h'

/-- Any fuel of at least the script's bound runs it as its weight does. -/
theorem runScript_eq_runFrom {n : Nat} {cmd : Word} {op : MicroOp} {rest : List MicroOp} {k : Nat} {s : State}
    (h : scriptBound (op :: rest) ≤ n) : runScript n (goOn cmd (op :: rest) k s) = runFrom cmd (op :: rest) k s := by
  obtain ⟨m, hm⟩ : ∃ m, scriptBound (op :: rest) = m + 1 :=
    ⟨scriptBound (op :: rest) - 1, by have := opWeight_pos op; simp [scriptBound]; omega⟩
  have hp : paused (runScript (m + 1) (goOn cmd (op :: rest) k s)) = true := by
    rw [← hm]; exact runScript_paused _ _ _ _ _ _ (le_refl _)
  obtain ⟨j, hj⟩ := Nat.exists_eq_add_of_le h
  obtain ⟨i, hi⟩ := Nat.exists_eq_add_of_le (scriptBound_le_weight (op :: rest))
  rw [runFrom, hi, hj, hm, runScript_more _ _ _ hp, runScript_more _ _ _ hp]

/-- A step that performs a script ends at Idle or at rest. -/
theorem runFrom_paused (cmd : Word) (op : MicroOp) (rest : List MicroOp) (k : Nat) (s : State) :
    paused (runFrom cmd (op :: rest) k s) = true :=
  runScript_paused _ _ _ _ _ _ (scriptBound_le_weight _)

/-- The first micro-operation of a script ends the step. -/
theorem runFrom_end {cmd : Word} {op : MicroOp} {rest : List MicroOp} {k : Nat} {s : State}
    (h : paused (perform op cmd rest k s) = true) : runFrom cmd (op :: rest) k s = perform op cmd rest k s := by
  have hw : weight (op :: rest) = (weight (op :: rest) - 1) + 1 := by
    have := opWeight_pos op; simp only [weight]; omega
  rw [runFrom, hw, runScript, micro_goOn_cons, if_pos h]

/-- The first micro-operation of a script leads to another script, which runs on. -/
theorem runFrom_cons {cmd : Word} {op : MicroOp} {rest pos : List MicroOp} {k k' : Nat} {s t : State}
    (h : perform op cmd rest k s = goOn cmd pos k' t) (hr : resting pos = false) :
    runFrom cmd (op :: rest) k s = runFrom cmd pos k' t := by
  have hw : weight (op :: rest) = (weight (op :: rest) - 1) + 1 := by
    have := opWeight_pos op; simp only [weight]; omega
  rw [runFrom, hw, runScript, micro_goOn_cons, h, paused_goOn, hr, if_neg (by decide)]
  cases pos with
  | nil => simp [resting] at hr
  | cons op' rest' =>
    apply runScript_eq_runFrom
    rcases perform_progress op cmd rest k s with hi | ⟨q, j, u, hq, hb⟩
    · rw [h] at hi; simp at hi
    · rw [h] at hq
      have hs := congrArg State.seq hq
      simp only [goOn_seq, Seq.busy.injEq, true_and] at hs
      obtain ⟨rfl, -⟩ := hs
      rcases hb with hb | hb
      · simp [hr] at hb
      · rw [tailBound_of_not_resting hr]
        have := tailBound_le_weight rest
        simp only [weight]; omega

/-- Running `pos` after some micro-operations: it is performed, unless it is a place of rest. -/
def settle (cmd : Word) (pos : List MicroOp) (k : Nat) (s : State) : State :=
  if resting pos then goOn cmd pos k s else runFrom cmd pos k s

theorem runFrom_settle {cmd : Word} {op : MicroOp} {rest pos : List MicroOp} {k k' : Nat} {s t : State}
    (h : perform op cmd rest k s = goOn cmd pos k' t) : runFrom cmd (op :: rest) k s = settle cmd pos k' t := by
  unfold settle
  split
  · rename_i hr
    rw [runFrom_end (by rw [h, paused_goOn, hr]), h]
  · rename_i hr
    exact runFrom_cons h (by simpa using hr)

theorem settle_of_not_resting {cmd : Word} {pos : List MicroOp} {k : Nat} {s : State} (h : resting pos = false) :
    settle cmd pos k s = runFrom cmd pos k s := by simp [settle, h]

/-! ## Each micro-operation, run -/

/-- `respond` ends the step. -/
@[simp] theorem runFrom_respond (cmd : Word) (d : Byte) (rest : List MicroOp) (k : Nat) (s : State) :
    runFrom cmd (.respond d :: rest) k s = respond d s := runFrom_end rfl

/-- `raise` ends the step. -/
@[simp] theorem runFrom_raise (cmd : Word) (e : ErrorKind) (n : Nat) (rest : List MicroOp) (k : Nat) (s : State) :
    runFrom cmd (.raise e n :: rest) k s = raise e n s := runFrom_end rfl

@[simp] theorem settle_respond (cmd : Word) (d : Byte) (rest : List MicroOp) (k : Nat) (s : State) :
    settle cmd (.respond d :: rest) k s = respond d s := by rw [settle_of_not_resting rfl, runFrom_respond]

@[simp] theorem settle_raise (cmd : Word) (e : ErrorKind) (n : Nat) (rest : List MicroOp) (k : Nat) (s : State) :
    settle cmd (.raise e n :: rest) k s = raise e n s := by rw [settle_of_not_resting rfl, runFrom_raise]

@[simp] theorem settle_poll (cmd : Word) (p1 p2 p3 p4 : Chan) (rest : List MicroOp) (k : Nat) (s : State) :
    settle cmd (.poll p1 p2 p3 p4 :: rest) k s = goOn cmd (.poll p1 p2 p3 p4 :: rest) k s := rfl

/-- A delay changes nothing but the trace (R14, R135). -/
theorem settle_delay (cmd : Word) (d : Delay) (rest : List MicroOp) (k : Nat) (s : State) :
    settle cmd (.delay d :: rest) k s = settle cmd rest k (emit (.delay d) s) := by
  rw [settle_of_not_resting rfl]; exact runFrom_settle rfl

/-- The initialisation of the transport, after which only 0x00 and 0x01 can be known. -/
theorem settle_busInit (cmd : Word) (rest : List MicroOp) (k : Nat) (s : State) :
    settle cmd (.busInit :: rest) k s = settle cmd rest k (emit .busInit (forgetBesideInit s)) := by
  rw [settle_of_not_resting rfl]; exact runFrom_settle rfl

/-- The pin write. -/
theorem settle_pinWrite (cmd : Word) (l : Bool) (rest : List MicroOp) (k : Nat) (s : State) :
    settle cmd (.pinWrite l :: rest) k s =
      settle cmd rest k (emit (.pinWrite l) { s with en := if l then .high else .low }) := by
  rw [settle_of_not_resting rfl]; exact runFrom_settle rfl

/-- A register write that succeeds. -/
theorem settle_write_ok {cmd : Word} {a v : Byte} {rest : List MicroOp} {k : Nat} {s : State} {l : List Bool}
    (h : s.statusIn = true :: l) :
    settle cmd (.write a v :: rest) k s =
      settle cmd rest (k + 1)
        (storeReg a v (emit (.memWrite s.params.devAddr a v true) { s with statusIn := l })) := by
  rw [settle_of_not_resting rfl]
  refine runFrom_settle ?_
  simp [perform, chkWrite, nextStatus_cons h, popStatus_cons h]

/-- A register write that fails under Abort (R15, R127). -/
theorem settle_write_fail {cmd : Word} {a v : Byte} {rest : List MicroOp} {k : Nat} {s : State} {l : List Bool}
    (h : s.statusIn = false :: l) (hp : s.params.busFail = .abort) :
    settle cmd (.write a v :: rest) k s =
      raise .busTransportFailure k
        (forgetReg a (emit (.memWrite s.params.devAddr a v false) { s with statusIn := l })) := by
  have hf : perform (.write a v) cmd rest k s = raise .busTransportFailure k
        (forgetReg a (emit (.memWrite s.params.devAddr a v false) { s with statusIn := l })) := by
    simp [perform, chkWrite, nextStatus_cons h, popStatus_cons h, afterFailure, hp]
  rw [settle_of_not_resting rfl, runFrom_end (by rw [hf]; rfl), hf]

/-- A register write that fails under Continue (R15, R124). -/
theorem settle_write_continue {cmd : Word} {a v : Byte} {rest : List MicroOp} {k : Nat} {s : State} {l : List Bool}
    (h : s.statusIn = false :: l) (hp : s.params.busFail = .continue_) :
    settle cmd (.write a v :: rest) k s =
      settle cmd rest (k + 1)
        (forgetReg a (emit (.memWrite s.params.devAddr a v false) { s with statusIn := l })) := by
  rw [settle_of_not_resting rfl]
  refine runFrom_settle ?_
  simp [perform, chkWrite, nextStatus_cons h, popStatus_cons h, afterFailure, hp]

/-- A register read that succeeds, whatever answers it. -/
theorem settle_read_ok {cmd : Word} {a : Byte} {next : ReadThen} {rest : List MicroOp} {k : Nat} {s : State}
    {l : List Bool} (h : s.statusIn = true :: l) :
    settle cmd (.read a next :: rest) k s =
      settle cmd (afterRead s.params next (answerByte a { s with statusIn := l }) ++ rest) (k + 1)
        (emit (.memRead s.params.devAddr a true (some (answerByte a { s with statusIn := l })))
          (popAnswer { s with statusIn := l })) := by
  rw [settle_of_not_resting rfl]
  refine runFrom_settle ?_
  simp [perform, chkRead, nextStatus_cons h, popStatus_cons h]

/-- A register read that succeeds under the free oracle, the transport answering `b` (R43). -/
theorem settle_read_transport {cmd : Word} {a : Byte} {next : ReadThen} {rest : List MicroOp} {k : Nat} {s : State}
    {l : List Bool} {b : Byte} {bs : List Byte} (h : s.statusIn = true :: l) (ho : s.params.oracle = .transport)
    (hb : s.readIn = b :: bs) :
    settle cmd (.read a next :: rest) k s =
      settle cmd (afterRead s.params next b ++ rest) (k + 1)
        (emit (.memRead s.params.devAddr a true (some b)) { s with statusIn := l, readIn := bs }) := by
  have ht := answerByte_transport (s := { s with statusIn := l }) a ho
  have hn : nextByte { s with statusIn := l } = b := nextByte_cons hb
  have hq : popByte { s with statusIn := l } = { s with statusIn := l, readIn := bs } := popByte_cons hb
  rw [settle_read_ok h, ht.1, ht.2, hn, hq]

/-- A register read that succeeds under the reference register file (R44). -/
theorem settle_read_registerFile {cmd : Word} {a : Byte} {next : ReadThen} {rest : List MicroOp} {k : Nat} {s : State}
    {l : List Bool} (h : s.statusIn = true :: l) (ho : s.params.oracle = .registerFile) :
    settle cmd (.read a next :: rest) k s =
      settle cmd (afterRead s.params next (chipHolds s a.toNat) ++ rest) (k + 1)
        (emit (.memRead s.params.devAddr a true (some (chipHolds s a.toNat))) { s with statusIn := l }) := by
  have ht := answerByte_registerFile (s := { s with statusIn := l }) a ho
  rw [settle_read_ok h, ht.1, ht.2]
  rfl

/-- A register read that fails under Abort (R15, R127). -/
theorem settle_read_fail {cmd : Word} {a : Byte} {next : ReadThen} {rest : List MicroOp} {k : Nat} {s : State}
    {l : List Bool} (h : s.statusIn = false :: l) (hp : s.params.busFail = .abort) :
    settle cmd (.read a next :: rest) k s =
      raise .busTransportFailure k (emit (.memRead s.params.devAddr a false none) { s with statusIn := l }) := by
  have hf : perform (.read a next) cmd rest k s =
      raise .busTransportFailure k (emit (.memRead s.params.devAddr a false none) { s with statusIn := l }) := by
    simp [perform, chkRead, nextStatus_cons h, popStatus_cons h, hp]
  rw [settle_of_not_resting rfl, runFrom_end (by rw [hf]; rfl), hf]

/-! ## Running a command -/

/-- An Idle sequencer accepts a legal command and performs its script (R30). -/
theorem runCommand_idle {i : Instr} {start s : State} {pos : List MicroOp} (hs : s.seq = .idle)
    (hw : i.wellFormed = true) : runCommand i start pos s = .next (runFrom (encode i) pos 0 start) := by
  simp [runCommand, hs, hw]

/-- A script that does not begin at MOVE's loop head runs as it settles. -/
theorem runCommand_settle {i : Instr} {start s : State} {pos : List MicroOp} (hs : s.seq = .idle)
    (hw : i.wellFormed = true) (hr : resting pos = false) :
    runCommand i start pos s = .next (settle (encode i) pos 0 start) := by
  rw [runCommand_idle hs hw, settle_of_not_resting hr]

/-- An Idle sequencer ends an ill-formed command with IllegalCommand (R67). -/
theorem runCommand_illegal {i : Instr} {start s : State} {pos : List MicroOp} (hs : s.seq = .idle)
    (hw : i.wellFormed = false) : runCommand i start pos s = .next (raise .illegalCommand i.opcode s) := by
  simp [runCommand, hs, hw]

/-- A Busy sequencer goes on with its own command. -/
theorem runCommand_busy {i : Instr} {start s : State} {pos rest : List MicroOp} {op : MicroOp} {k : Nat}
    (hs : s.seq = .busy (encode i) (op :: rest) k) :
    runCommand i start pos s = .next (runFrom (encode i) (op :: rest) k s) := by
  simp [runCommand, hs]

/-! ## Keeping a property through a step -/

/-- What every micro-operation keeps, a script keeps. -/
theorem runScript_keeps {P : State → Prop} (h : ∀ s, P s → P (micro s)) (n : Nat) (s : State) (hs : P s) :
    P (runScript n s) := by
  induction n generalizing s with
  | zero => exact hs
  | succ n ih =>
    simp only [runScript]
    split
    · exact h s hs
    · exact ih _ (h s hs)

end Sys2Proof.Machine
end

