-- ==== Sys2Proof/Laws/Claims.lean ====
section
/-! SUPPORT. Spec lemmas in the terms claims use: fields of a word as numbers, a read under either oracle, a run of
successful writes, a ramp, and what `completed` and `errored` are. -/

namespace Sys2Proof.Machine

open Sys2Proof Sys2Proof.Config

/-- A field as a number. -/
theorem wordField_toNat (w : Word) (lo n : Nat) : (wordField w lo n).toNat = w.toNat / 2 ^ lo % 2 ^ n := by
  simp [wordField, BitVec.extractLsb'_toNat, Nat.shiftRight_eq_div_pow]

/-- A bit as a number. -/
theorem wordBit_eq (w : Word) (i : Nat) : wordBit w i = decide (w.toNat / 2 ^ i % 2 = 1) := by
  rw [Bool.eq_iff_iff]
  simp [wordBit, ← BitVec.toNat_inj, wordField_toNat]

/-- The word of a command as a number, when its fields fit. -/
theorem encode_toNat (i : Instr) (h : i.opcode + operandBits i < 2 ^ 64) :
    (encode i).toNat = i.opcode + operandBits i := by
  simp [encode]; omega

/-- A mode's code stands for it. -/
@[simp] theorem modeOfCode_modeCode (m : Mode) : modeOfCode (modeCode m) = some m := by cases m <;> rfl

/-- A register read that succeeds, under either oracle. -/
theorem settle_read_answers {cmd : Word} {a : Byte} {next : ReadThen} {rest : List MicroOp} {k : Nat} {s : State}
    {l : List Bool} {b : Byte} {bs : List Byte} (h : s.statusIn = true :: l) (ha : answers s a b bs) :
    settle cmd (.read a next :: rest) k s =
      settle cmd (afterRead s.params next b ++ rest) (k + 1)
        (emit (.memRead s.params.devAddr a true (some b)) { s with statusIn := l, readIn := bs }) := by
  rcases ha with ⟨ho, hb⟩ | ⟨ho, rfl, rfl⟩
  · exact settle_read_transport h ho hb
  · rw [settle_read_registerFile h ho]

/-- A run of register writes, all succeeding. -/
theorem settle_writes (cmd : Word) (ws : List (Byte × Byte)) (rest : List MicroOp) (k : Nat) (s : State)
    (l : List Bool) (h : s.statusIn = List.replicate ws.length true ++ l) :
    settle cmd (ws.map (fun w => .write w.1 w.2) ++ rest) k s =
      settle cmd rest (k + ws.length)
        { s with
          statusIn := l
          chip := storeAll s.chip ws
          trace := s.trace ++ ws.map (fun w => wrote s.params w.1 w.2) } := by
  induction ws generalizing s k with
  | nil => simp at h; simp [storeAll, ← h]
  | cons w ws ih =>
    rw [List.length_cons, List.replicate_succ, List.cons_append] at h
    simp only [List.map_cons, List.cons_append]
    rw [settle_write_ok h, ih _ _ rfl]
    simp [storeAll, wrote, emit, storeReg, Nat.add_assoc, Nat.add_comm 1]

/-- `setModeOne`, both transactions succeeding. -/
theorem settle_setModeOne (cmd : Word) (c : Chan) (m : Mode) (rest : List MicroOp) (k : Nat) (s : State)
    (l : List Bool) (b : Byte) (bs : List Byte) (h : s.statusIn = true :: true :: l)
    (ha : answers s (modeReg c) b bs) :
    settle cmd (setModeOne c m ++ rest) k s =
      settle cmd rest (k + 2)
        { s with
          statusIn := l
          readIn := bs
          chip := Memory.write s.chip (modeReg c).toNat (encodeField s.params.pairPos b (localIndex c) m)
          trace := s.trace ++ rmwEvents s.params c m b } := by
  simp only [setModeOne, List.cons_append, List.nil_append]
  rw [settle_read_answers h ha, afterRead, List.cons_append, List.nil_append, settle_write_ok rfl]
  simp [rmwEvents, wrote, emit, storeReg]

/-- A ramp, all its writes succeeding. -/
theorem settle_ramp (cmd : Word) (c : Chan) (i : BitVec 32) (vs : List Byte) (rest : List MicroOp) (k : Nat)
    (s : State) (l : List Bool) (h : s.statusIn = List.replicate vs.length true ++ l) :
    settle cmd (ramp c i vs ++ rest) k s =
      settle cmd rest (k + vs.length)
        { s with
          statusIn := l
          chip := storeAll s.chip (vs.map (fun v => (dutyReg c, v)))
          trace := s.trace ++ rampEvents s.params c i vs } := by
  induction vs generalizing s k with
  | nil => simp at h; simp [ramp, rampEvents, storeAll, ← h]
  | cons v vs ih =>
    rw [List.length_cons, List.replicate_succ, List.cons_append] at h
    have hr : ramp c i (v :: vs) = .write (dutyReg c) v :: .delay ⟨i.toNat, .ms⟩ :: ramp c i vs := rfl
    rw [hr, List.cons_append, List.cons_append, settle_write_ok h, settle_delay, ih _ _ rfl]
    simp [storeAll, rampEvents, wrote, emit, storeReg, Nat.add_assoc, Nat.add_comm 1]

/-- `respond(OK, d)` is what `completed` says of a state that keeps its inputs and register file. -/
theorem respond_eq (d : Byte) (s : State) : respond d s = completed s s.statusIn s.readIn s.chip d [] := by
  simp [respond, emit, completed]

/-- `raise` is `errored`. -/
theorem raise_eq (e : ErrorKind) (n : Nat) (s : State) : raise e n s = errored s e n := rfl

/-- A step interval as a number (R95). -/
theorem rampInterval_toNat (dur : BitVec 32) (n : Byte) : (rampInterval dur n).toNat = dur.toNat / n.toNat := by
  have := n.isLt
  simp only [rampInterval, BitVec.toNat_udiv, BitVec.toNat_setWidth]
  congr 1
  omega

/-- The delays of a ramp (R99). -/
theorem sum_delayMillis_rampEvents (p : Params) (c : Chan) (i : BitVec 32) (vs : List Byte) :
    ((rampEvents p c i vs).map delayMillis).sum = vs.length * i.toNat := by
  induction vs with
  | nil => simp [rampEvents]
  | cons v vs ih =>
    have : rampEvents p c i (v :: vs) = [wrote p (dutyReg c) v, .delay ⟨i.toNat, .ms⟩] ++ rampEvents p c i vs := rfl
    rw [this]
    simp [ih, delayMillis, wrote, Nat.add_mul, Nat.add_comm]

/-- MOVE's loop head, the step not yet due (R108, R110). -/
theorem runFrom_poll_wait {cmd : Word} {p1 p2 p3 p4 : Chan} {rest : List MicroOp} {k now : Nat} {clk : List Nat}
    {c : Speed} {s : State} (hr : s.stepsRemaining ≠ 0) (hc : s.speed = some c) (hk : s.clockIn = now :: clk)
    (hb : now < 2 ^ s.params.clockBits)
    (hd : elapsed s.params.clockBits now s.lastStepTimestamp < c.stepDelayMicros.toNat) :
    runFrom cmd (.poll p1 p2 p3 p4 :: rest) k s =
      goOn cmd (.poll p1 p2 p3 p4 :: rest) k (emit (.clockRead now) { s with clockIn := clk }) := by
  have hp : perform (.poll p1 p2 p3 p4) cmd rest k s =
      goOn cmd (.poll p1 p2 p3 p4 :: rest) k (emit (.clockRead now) { s with clockIn := clk }) := by
    rw [perform, pollStep, if_neg hr]
    simp [hc, nextClock_cons hk, popClock_cons hk, Nat.mod_eq_of_lt hb, hd]
  rw [runFrom_end (by rw [hp]; rfl), hp]

/-- MOVE's loop head, the step due (R110): the registers are updated, then the phase writes are to be made. -/
theorem runFrom_poll_due {cmd : Word} {p1 p2 p3 p4 : Chan} {rest : List MicroOp} {k now : Nat} {clk : List Nat}
    {c : Speed} {s : State} (hr : s.stepsRemaining ≠ 0) (hc : s.speed = some c) (hk : s.clockIn = now :: clk)
    (hb : now < 2 ^ s.params.clockBits)
    (hd : c.stepDelayMicros.toNat ≤ elapsed s.params.clockBits now s.lastStepTimestamp) :
    runFrom cmd (.poll p1 p2 p3 p4 :: rest) k s =
      settle cmd
        (phaseWrite s.params (phaseOf (nextIndex s.direction c.numberSteps s.currentStepIndex)) s.direction p1 p2 p3 p4 ++
          (if s.stepsRemaining - 1 = 0 then rest else .poll p1 p2 p3 p4 :: rest)) k
        (advance c now (emit (.clockRead now) { s with clockIn := clk })) := by
  refine runFrom_settle ?_
  rw [perform, pollStep, if_neg hr]
  simp [hc, nextClock_cons hk, popClock_cons hk, Nat.mod_eq_of_lt hb, Nat.not_lt.mpr hd]

/-- The phase writes with `PHASE_WRITE_OP = DutyOnly` are four register writes (R106). -/
theorem phaseWrite_dutyOnly {pr : Params} (h : pr.phaseWriteOp = .dutyOnly) (ph : Fin 4) (d : Direction)
    (p1 p2 p3 p4 : Chan) :
    phaseWrite pr ph d p1 p2 p3 p4 =
      [(dutyReg p1, phaseDuty pr.phaseTable d ph 0), (dutyReg p2, phaseDuty pr.phaseTable d ph 1),
       (dutyReg p3, phaseDuty pr.phaseTable d ph 2), (dutyReg p4, phaseDuty pr.phaseTable d ph 3)].map
        (fun w => MicroOp.write w.1 w.2) := by
  simp [phaseWrite, h]

/-- With `PHASE_WRITE_OP = SetPwm` each is preceded by `setModeOne` (R106). -/
theorem phaseWrite_setPwm {pr : Params} (h : pr.phaseWriteOp = .setPwm) (ph : Fin 4) (d : Direction)
    (p1 p2 p3 p4 : Chan) :
    phaseWrite pr ph d p1 p2 p3 p4 =
      setModeOne p1 .pwm ++ (.write (dutyReg p1) (phaseDuty pr.phaseTable d ph 0) ::
      (setModeOne p2 .pwm ++ (.write (dutyReg p2) (phaseDuty pr.phaseTable d ph 1) ::
      (setModeOne p3 .pwm ++ (.write (dutyReg p3) (phaseDuty pr.phaseTable d ph 2) ::
      (setModeOne p4 .pwm ++ [.write (dutyReg p4) (phaseDuty pr.phaseTable d ph 3)])))))) := by
  simp [phaseWrite, h, setModeOne]

end Sys2Proof.Machine
end

