-- ==== Sys2Proof/Laws/Ramps.lean ====
section
/-! SUPPORT. Spec lemmas for the commands that make many transactions: where a failed one cuts the entries of a command, what
`setModeOne`, a ramp and a run of writes leave when one of theirs fails, and how long a script waits. -/

namespace Sys2Proof.Machine

open Sys2Proof Sys2Proof.Config

/-! ## Where a failed transaction cuts -/

/-- How many of some entries are transactions. -/
def transactionsIn (events : List Event) : Nat :=
  (events.filter (fun e => match e with
    | .memRead _ _ _ _ => true
    | .memWrite _ _ _ _ => true
    | .busWrite _ _ _ => true
    | _ => false)).length

/-- A failure among the first entries does not see the later ones. -/
theorem failedAt_append_of_lt (es fs : List Event) (j : Nat) (h : j < transactionsIn es) :
    failedAt (es ++ fs) j = failedAt es j := by
  induction es generalizing j with
  | nil => simp [transactionsIn] at h
  | cons e es ih =>
    cases e <;> cases j <;> simp_all [failedAt, transactionsIn]

/-- A failure beyond the first entries leaves them whole. -/
theorem failedAt_append (es fs : List Event) (j : Nat) :
    failedAt (es ++ fs) (transactionsIn es + j) = es ++ failedAt fs j := by
  induction es generalizing j with
  | nil => simp [transactionsIn]
  | cons e es ih =>
    have step : ∀ n, failedAt (es ++ fs) (transactionsIn es + n) = es ++ failedAt fs n := ih
    cases e with
    | memRead dev a ok v =>
      have : transactionsIn (.memRead dev a ok v :: es) + j = transactionsIn es + j + 1 := by
        simp [transactionsIn]; omega
      rw [this]; simp [failedAt, step]
    | memWrite dev a v ok =>
      have : transactionsIn (.memWrite dev a v ok :: es) + j = transactionsIn es + j + 1 := by
        simp [transactionsIn]; omega
      rw [this]; simp [failedAt, step]
    | busWrite dev bytes ok =>
      have : transactionsIn (.busWrite dev bytes ok :: es) + j = transactionsIn es + j + 1 := by
        simp [transactionsIn]; omega
      rw [this]; simp [failedAt, step]
    | _ =>
      have := step j
      simp_all [failedAt, transactionsIn]

/-- The register file after successful writes is `storeAll`'s. -/
theorem foldl_chipAfterEvent_wrote (p : Params) (m : Memory) (ws : List (Byte × Byte)) :
    (ws.map (fun w => wrote p w.1 w.2)).foldl chipAfterEvent m = storeAll m ws := by
  induction ws generalizing m with
  | nil => rfl
  | cons w ws ih => exact ih _

/-- The register file after a ramp's entries is that of its writes. -/
theorem foldl_chipAfterEvent_rampEvents (p : Params) (m : Memory) (c : Chan) (i : BitVec 32) (vs : List Byte) :
    (rampEvents p c i vs).foldl chipAfterEvent m = storeAll m (vs.map (fun v => (dutyReg c, v))) := by
  induction vs generalizing m with
  | nil => rfl
  | cons v vs ih => exact ih _

@[simp] theorem transactionsIn_rmwEvents (p : Params) (c : Chan) (m : Mode) (b : Byte) :
    transactionsIn (rmwEvents p c m b) = 2 := rfl

theorem transactionsIn_append (es fs : List Event) :
    transactionsIn (es ++ fs) = transactionsIn es + transactionsIn fs := by simp [transactionsIn]

@[simp] theorem transactionsIn_rampEvents (p : Params) (c : Chan) (i : BitVec 32) (vs : List Byte) :
    transactionsIn (rampEvents p c i vs) = vs.length := by
  induction vs with
  | nil => rfl
  | cons v vs ih =>
    have : rampEvents p c i (v :: vs) = [wrote p (dutyReg c) v, .delay ⟨i.toNat, .ms⟩] ++ rampEvents p c i vs := rfl
    rw [this, transactionsIn_append, ih]
    simp [transactionsIn, wrote, Nat.add_comm]

/-! ## A failure under Abort inside a sub-procedure (R127) -/

/-- `setModeOne`, its read failing. -/
theorem settle_setModeOne_read_fails (cmd : Word) (c : Chan) (m : Mode) (rest : List MicroOp) (k : Nat) (s : State)
    (l : List Bool) (hp : s.params.busFail = .abort) (h : s.statusIn = false :: l) :
    settle cmd (setModeOne c m ++ rest) k s =
      errored { s with statusIn := l, trace := s.trace ++ [.memRead s.params.devAddr (modeReg c) false none] }
        .busTransportFailure k := by
  simp only [setModeOne, List.cons_append, List.nil_append]
  rw [settle_read_fail h hp]
  rfl

/-- `setModeOne`, its write back failing: the mode register is unknown. -/
theorem settle_setModeOne_write_fails (cmd : Word) (c : Chan) (m : Mode) (rest : List MicroOp) (k : Nat) (s : State)
    (l : List Bool) (b : Byte) (bs : List Byte) (hp : s.params.busFail = .abort) (h : s.statusIn = true :: false :: l)
    (ha : answers s (modeReg c) b bs) :
    settle cmd (setModeOne c m ++ rest) k s =
      errored
        { s with
          statusIn := l
          readIn := bs
          chip := Memory.forget s.chip (modeReg c).toNat
          lost := (modeReg c).toNat :: s.lost
          trace := s.trace ++ [.memRead s.params.devAddr (modeReg c) true (some b),
            .memWrite s.params.devAddr (modeReg c) (encodeField s.params.pairPos b (localIndex c) m) false] }
        .busTransportFailure (k + 1) := by
  simp only [setModeOne, List.cons_append, List.nil_append]
  rw [settle_read_answers h ha, afterRead, List.cons_append, List.nil_append,
    settle_write_fail (l := l) (by rfl) (by exact hp)]
  simp [raise, emit, forgetReg, errored]

/-- A ramp whose write `j` fails stays at what the writes before it left (R148). -/
theorem settle_ramp_fails (cmd : Word) (c : Chan) (i : BitVec 32) (vs : List Byte) (rest : List MicroOp) (k j : Nat)
    (s : State) (l : List Bool) (hj : j < vs.length) (hp : s.params.busFail = .abort)
    (h : s.statusIn = List.replicate j true ++ false :: l) :
    settle cmd (ramp c i vs ++ rest) k s =
      errored
        { s with
          statusIn := l
          chip := (failedAt (rampEvents s.params c i vs) j).foldl chipAfterEvent s.chip
          lost := (failedAt (rampEvents s.params c i vs) j).foldl lostAfterEvent s.lost
          trace := s.trace ++ failedAt (rampEvents s.params c i vs) j }
        .busTransportFailure (k + j) := by
  induction vs generalizing s k j with
  | nil => simp at hj
  | cons v vs ih =>
    have hr : ramp c i (v :: vs) = .write (dutyReg c) v :: .delay ⟨i.toNat, .ms⟩ :: ramp c i vs := rfl
    have he : rampEvents s.params c i (v :: vs) =
      wrote s.params (dutyReg c) v :: .delay ⟨i.toNat, .ms⟩ :: rampEvents s.params c i vs := rfl
    rw [hr, he, List.cons_append, List.cons_append]
    cases j with
    | zero =>
      rw [settle_write_fail (by simpa using h) hp]
      simp [failedAt, wrote, raise, emit, forgetReg, errored, chipAfterEvent, lostAfterEvent]
    | succ j =>
      rw [List.replicate_succ, List.cons_append] at h
      rw [settle_write_ok h, settle_delay, ih _ _ _ (by simpa using hj) (by exact hp) (by rfl)]
      simp [failedAt, wrote, emit, storeReg, errored, chipAfterEvent, lostAfterEvent, Nat.add_assoc, Nat.add_comm 1]

/-! ## How long a script waits -/

/-- Milliseconds a micro-operation waits. -/
def opMillis : MicroOp → Nat
  | .delay d => delayMillis (.delay d)
  | _ => 0

/-- Micro-operations after which a script goes on as written: delays, writes, the read of a read-modify-write. -/
def plainOp : MicroOp → Bool
  | .read _ (.replaceField _ _) => true
  | .write _ _ => true
  | .delay _ => true
  | _ => false

/-- `base` and what is recorded since entry `n`, and still to be waited, make `total`; a command that has ended with OK has
waited it all. -/
def waits (n total : Nat) (t : State) : Prop :=
  n ≤ t.trace.length ∧
  match t.seq with
  | .busy _ pos _ => ∃ pre d, pos = pre ++ [.respond d] ∧ (∀ op ∈ pre, plainOp op = true) ∧
      ((t.trace.drop n).map delayMillis).sum + (pre.map opMillis).sum = total
  | .idle => t.status = statusOk → ((t.trace.drop n).map delayMillis).sum = total

theorem waits_goOn {n total : Nat} {s : State} {cmd : Word} {pre : List MicroOp} {d : Byte} {k : Nat}
    (hn : n ≤ s.trace.length) (hpre : ∀ op ∈ pre, plainOp op = true)
    (h : ((s.trace.drop n).map delayMillis).sum + (pre.map opMillis).sum = total) :
    waits n total (goOn cmd (pre ++ [.respond d]) k s) := ⟨hn, pre, d, rfl, hpre, h⟩

theorem waits_raise_busTransportFailure {n total k : Nat} {s : State} (hn : n ≤ s.trace.length) :
    waits n total (raise .busTransportFailure k s) := by
  refine ⟨by simp; omega, ?_⟩
  simp [statusCode, statusOk]

/-- Entries that do not wait. -/
theorem drop_append_sum {n : Nat} {tr : List Event} (hn : n ≤ tr.length) (es : List Event) :
    (((tr ++ es).drop n).map delayMillis).sum = ((tr.drop n).map delayMillis).sum + (es.map delayMillis).sum := by
  rw [List.drop_append_of_le_length hn]; simp

/-- Every micro-operation of a plain script keeps the account. -/
theorem waits_micro {n total : Nat} {t : State} (h : waits n total t) : waits n total (micro t) := by
  obtain ⟨hn, h⟩ := h
  cases hs : t.seq with
  | idle => rw [hs] at h; rw [micro, hs]; exact ⟨hn, by rw [hs]; exact h⟩
  | busy cmd pos k =>
    rw [hs] at h
    obtain ⟨pre, d, rfl, hpre, hsum⟩ := h
    rw [micro, hs]
    cases pre with
    | nil =>
      simp only [List.nil_append, perform]
      refine ⟨by simp; omega, ?_⟩
      intro _
      simp only [respond_trace, drop_append_sum hn]
      simpa [delayMillis] using hsum
    | cons op pre =>
      have hop := hpre op List.mem_cons_self
      have hpre' : ∀ x ∈ pre, plainOp x = true := fun x hx => hpre x (List.mem_cons_of_mem _ hx)
      simp only [List.map_cons, List.sum_cons] at hsum
      have hlen : ∀ es : List Event, n ≤ (t.trace ++ es).length := fun es => by simp; omega
      cases op with
      | write a v =>
        simp only [List.cons_append, perform, chkWrite, afterFailure]
        split
        · refine waits_goOn (by simp; omega) hpre' ?_
          simp only [storeReg_trace, emit_trace, popStatus_trace, drop_append_sum hn]
          simpa [delayMillis, opMillis] using hsum
        · split
          · exact waits_raise_busTransportFailure (by simp; omega)
          · refine waits_goOn (by simp; omega) hpre' ?_
            simp only [forgetReg_trace, emit_trace, popStatus_trace, drop_append_sum hn]
            simpa [delayMillis, opMillis] using hsum
      | delay dl =>
        simp only [List.cons_append, perform]
        refine waits_goOn (by simp; omega) hpre' ?_
        simp only [emit_trace, drop_append_sum hn]
        simp only [opMillis] at hsum
        simp only [List.map_cons, List.map_nil, List.sum_cons, List.sum_nil]
        omega
      | read a next =>
        cases next with
        | replaceField c m =>
          have hw : ∀ b, ∀ x ∈ MicroOp.write (modeReg c) b :: pre, plainOp x = true := by
            intro b x hx
            rcases List.mem_cons.mp hx with rfl | hx
            · rfl
            · exact hpre' x hx
          simp only [List.cons_append, perform, chkRead, afterRead]
          split
          · refine waits_goOn (pre := .write (modeReg c) _ :: pre) (by simp; omega) (hw _) ?_
            simp only [emit_trace, popAnswer_trace, popStatus_trace, drop_append_sum hn]
            simpa [delayMillis, opMillis] using hsum
          · split
            · exact waits_raise_busTransportFailure (by simp; omega)
            · refine waits_goOn (pre := .write (modeReg c) _ :: pre) (by simp; omega) (hw _) ?_
              simp only [emit_trace, popByte_trace, popStatus_trace, drop_append_sum hn]
              simpa [delayMillis, opMillis] using hsum
        | reportMode c => simp [plainOp] at hop
        | reportByte => simp [plainOp] at hop
        | rampDown c x y => simp [plainOp] at hop
      | busWrite dev bytes => simp [plainOp] at hop
      | busInit => simp [plainOp] at hop
      | pinWrite l => simp [plainOp] at hop
      | poll p1 p2 p3 p4 => simp [plainOp] at hop
      | respond x => simp [plainOp] at hop
      | raise e x => simp [plainOp] at hop

/-- A plain script that ends with OK has waited all its delays, whichever transactions failed under Continue. -/
theorem runFrom_waits {cmd : Word} {pre : List MicroOp} {d : Byte} {k n : Nat} {s : State}
    (hpre : ∀ op ∈ pre, plainOp op = true) (hn : n ≤ s.trace.length)
    (hok : (runFrom cmd (pre ++ [.respond d]) k s).status = statusOk) :
    (((runFrom cmd (pre ++ [.respond d]) k s).trace.drop n).map delayMillis).sum =
      ((s.trace.drop n).map delayMillis).sum + (pre.map opMillis).sum := by
  have hk : waits n (((s.trace.drop n).map delayMillis).sum + (pre.map opMillis).sum)
      (runFrom cmd (pre ++ [.respond d]) k s) :=
    runScript_keeps (fun t h => waits_micro h) _ _ (waits_goOn hn hpre rfl)
  have hp : paused (runFrom cmd (pre ++ [.respond d]) k s) = true := by
    cases pre with
    | nil => exact runFrom_paused _ _ _ _ _
    | cons op pre => exact runFrom_paused _ _ _ _ _
  generalize hr : runFrom cmd (pre ++ [.respond d]) k s = t at *
  obtain ⟨-, h⟩ := hk
  cases hs : t.seq with
  | idle => rw [hs] at h; exact h hok
  | busy c pos j =>
    rw [hs] at h
    obtain ⟨pre', d', rfl, hq, -⟩ := h
    unfold paused at hp
    rw [hs] at hp
    cases pre' with
    | nil => simp at hp
    | cons op rest =>
      have := hq op List.mem_cons_self
      cases op <;> simp_all [plainOp]

/-- The delays of a ramp's script (R99). -/
theorem sum_opMillis_ramp (c : Chan) (i : BitVec 32) (vs : List Byte) :
    ((ramp c i vs).map opMillis).sum = vs.length * i.toNat := by
  induction vs with
  | nil => simp [ramp]
  | cons v vs ih =>
    have hr : ramp c i (v :: vs) = .write (dutyReg c) v :: .delay ⟨i.toNat, .ms⟩ :: ramp c i vs := rfl
    rw [hr]
    simp [ih, opMillis, delayMillis, Nat.add_mul, Nat.add_comm]

end Sys2Proof.Machine
end

