-- ==== Sys2Proof/Laws/Entries.lean ====
section
/-! SUPPORT. What the reads among some entries take, under either oracle. -/

namespace Sys2Proof.Machine

open Sys2Proof Sys2Proof.Config

theorem happened_happened (s : State) (es fs : List Event) (l l' : List Bool) (bs bs' : List Byte) :
    happened (happened s es l bs) fs l' bs' = happened s (es ++ fs) l' bs' := by simp [happened]

/-- Five fields decide what `answersAll` says. -/
theorem answersAll_congr {s t : State} (hp : t.params = s.params) (hr : t.readIn = s.readIn) (hc : t.chip = s.chip)
    (he : t.epoch = s.epoch) (hl : t.lost = s.lost) (es : List Event) (rest : List Byte) :
    answersAll t es rest ↔ answersAll s es rest := by
  have ha : ∀ a b bs, answers t a b bs ↔ answers s a b bs := by
    simp [answers, chipHolds, unlistedByte, hp, hr, hc, he, hl]
  induction es generalizing s t with
  | nil => simp [answersAll, hr]
  | cons e es ih =>
    have hread : ∀ bs, answersAll { t with readIn := bs } es rest ↔ answersAll { s with readIn := bs } es rest := fun bs =>
      ih hp rfl hc he hl (by simp [answers, chipHolds, unlistedByte, hp, hc, he, hl])
    have hstore : ∀ a v, answersAll (storeReg a v t) es rest ↔ answersAll (storeReg a v s) es rest := fun a v =>
      ih hp hr (by simp [hc]) he hl (by simp [answers, chipHolds, unlistedByte, hp, hr, hc, he, hl])
    have hforget : ∀ a, answersAll (forgetReg a t) es rest ↔ answersAll (forgetReg a s) es rest := fun a =>
      ih hp hr (by simp [hc]) he (by simp [hl]) (by simp [answers, chipHolds, unlistedByte, hp, hr, hc, he, hl])
    cases e with
    | memRead dev a ok v => cases ok <;> cases v <;> simp [answersAll, ha, hr, hread]
    | memWrite dev a v ok => cases ok <;> simp [answersAll, hstore, hforget]
    | _ => simpa only [answersAll] using ih hp hr hc he hl ha

/-- The first entry, then the others, which see what it left. -/
theorem answersAll_cons (s : State) (e : Event) (es : List Event) (rest : List Byte) (l : List Bool) :
    answersAll s (e :: es) rest ↔ ∃ bs, answersAll s [e] bs ∧ answersAll (happened s [e] l bs) es rest := by
  have hh : ∀ (u : State) (bs : List Byte), u.params = s.params → u.readIn = bs → u.epoch = s.epoch →
      u.chip = chipAfterEvent s.chip e → u.lost = lostAfterEvent s.lost e →
      (answersAll u es rest ↔ answersAll (happened s [e] l bs) es rest) := fun u bs h1 h2 h3 h4 h5 =>
    answersAll_congr (s := happened s [e] l bs) (t := u) h1 h2 h4 h3 h5 _ _
  cases e with
  | memRead dev a ok v =>
    cases ok <;> cases v
    · simp only [answersAll, exists_eq_left']
      exact hh s _ rfl rfl rfl rfl rfl
    · rename_i b
      simp only [answersAll]
      constructor
      · rintro ⟨bs, h, h'⟩
        exact ⟨bs, ⟨bs, h, rfl⟩, (hh { s with readIn := bs } bs rfl rfl rfl rfl rfl).1 h'⟩
      · rintro ⟨bs, ⟨bs', h, rfl⟩, h'⟩
        exact ⟨_, h, (hh { s with readIn := bs' } bs' rfl rfl rfl rfl rfl).2 h'⟩
    · simp only [answersAll, exists_eq_left']
      exact hh s _ rfl rfl rfl rfl rfl
    · rename_i b
      simp only [answersAll]
      constructor
      · rintro ⟨bs, h, h'⟩
        exact ⟨bs, ⟨bs, h, rfl⟩, (hh { s with readIn := bs } bs rfl rfl rfl rfl rfl).1 h'⟩
      · rintro ⟨bs, ⟨bs', h, rfl⟩, h'⟩
        exact ⟨_, h, (hh { s with readIn := bs' } bs' rfl rfl rfl rfl rfl).2 h'⟩
  | memWrite dev a v ok =>
    cases ok
    · simp only [answersAll, forgetReg_readIn, exists_eq_left']
      exact hh (forgetReg a s) _ rfl rfl rfl rfl rfl
    · simp only [answersAll, storeReg_readIn, exists_eq_left']
      exact hh (storeReg a v s) _ rfl rfl rfl rfl rfl
  | _ =>
    simp only [answersAll, exists_eq_left']
    exact hh s _ rfl rfl rfl rfl rfl

/-- Entries one after another: the later ones see what the earlier ones left. -/
theorem answersAll_append (s : State) (es fs : List Event) (rest : List Byte) (l : List Bool) :
    answersAll s (es ++ fs) rest ↔ ∃ bs, answersAll s es bs ∧ answersAll (happened s es l bs) fs rest := by
  induction es generalizing s with
  | nil =>
    simp only [List.nil_append, answersAll, exists_eq_left']
    exact answersAll_congr (s := happened s [] l s.readIn) (t := s) rfl rfl rfl rfl rfl _ _
  | cons e es ih =>
    rw [List.cons_append, answersAll_cons s e (es ++ fs) rest l]
    simp only [answersAll_cons s e es _ l, ih, happened_happened, List.singleton_append]
    constructor
    · rintro ⟨b1, h1, b2, h2, h3⟩; exact ⟨b2, ⟨b1, h1, h2⟩, h3⟩
    · rintro ⟨b2, ⟨b1, h1, h2⟩, h3⟩; exact ⟨b1, h1, b2, h2, h3⟩

/-- Entries without a read take no byte. -/
theorem answersAll_of_no_read (s : State) (es : List Event) (rest : List Byte)
    (h : ∀ e ∈ es, ∀ dev a ok v, e ≠ .memRead dev a ok v) : answersAll s es rest ↔ s.readIn = rest := by
  induction es generalizing s with
  | nil => rfl
  | cons e es ih =>
    have hes := fun u => ih u (fun x hx => h x (List.mem_cons_of_mem _ hx))
    cases e with
    | memRead dev a ok v => exact absurd rfl (h _ List.mem_cons_self dev a ok v)
    | memWrite dev a v ok => cases ok <;> simp [answersAll, hes]
    | _ => simpa only [answersAll] using hes s

end Sys2Proof.Machine
end

