-- ==== Sys2Proof/Laws/Frames.lean ====
section
/-! SUPPORT. What a command can do, said once: every meaning is `runCommand` over a script and a start state, every
micro-operation keeps the parameters, the host's commands and the configured speed, and lengthens the trace; and a property
of micro-operations that holds of a script holds of every position it comes to. -/

namespace Sys2Proof.Machine

open Sys2Proof Sys2Proof.Config

/-! ## Every meaning is runCommand -/

/-- The script of a command accepted in `s`. -/
def commandScript (i : Instr) (s : State) : List MicroOp :=
  match i with
  | .setmode ch mode all => scriptSetmode ch mode all
  | .getmode ch => scriptGetmode ch
  | .writeduty ch val => scriptWriteduty ch val
  | .readduty ch => scriptReadduty ch
  | .turnon ch => scriptTurnon ch
  | .turnoff ch => scriptTurnoff ch
  | .setpwm ch val => scriptSetpwm ch val
  | .allon dp dir => scriptAllon dp dir
  | .alloff => scriptAlloff
  | .fadein ch tgt dur => scriptFadein ch tgt dur
  | .fadeout ch tgt dur => scriptFadeout ch tgt dur
  | .cfgspeed speed steps => scriptCfgspeed speed steps
  | .move p1 p2 p3 p4 cnt => scriptMove p1 p2 p3 p4 cnt s
  | .begin => scriptBegin s.params
  | .swreset => scriptSwreset

/-- The state a command's script starts from: CFGSPEED and MOVE write registers before their first micro-operation. -/
def commandStart (i : Instr) (s : State) : State :=
  match i with
  | .cfgspeed speed steps => configured speed steps s
  | .move _ _ _ _ cnt => moveStarted cnt s
  | _ => s

theorem exec_eq_runCommand (i : Instr) (s : State) :
    exec i s = runCommand i (commandStart i s) (commandScript i s) s := by cases i <;> rfl

theorem commandScript_ne_nil (i : Instr) (s : State) : commandScript i s ≠ [] := by
  cases i with
  | setmode ch mode all => simp only [commandScript, scriptSetmode]; split <;> simp
  | fadein ch tgt dur => simp only [commandScript, scriptFadein]; split <;> simp
  | cfgspeed speed steps => simp only [commandScript, scriptCfgspeed]; split <;> simp
  | move p1 p2 p3 p4 cnt => simp only [commandScript, scriptMove]; split <;> [simp; (split <;> simp)]
  | _ => simp [commandScript, scriptGetmode, scriptWriteduty, scriptReadduty, scriptTurnon, scriptTurnoff, scriptSetpwm,
      scriptAllon, scriptAlloff, scriptFadeout, scriptBegin, scriptSwreset]

/-- Everything a command that answers a next state can have done: an Idle sequencer ran its script or found it ill-formed, a
Busy one went on with this very command. -/
theorem exec_next {i : Instr} {s t : State} (h : exec i s = .next t) :
    (s.seq = .idle ∧ i.wellFormed = true ∧ t = runFrom (encode i) (commandScript i s) 0 (commandStart i s)) ∨
    (s.seq = .idle ∧ i.wellFormed = false ∧ t = raise .illegalCommand i.opcode s) ∨
    (∃ op rest k, s.seq = .busy (encode i) (op :: rest) k ∧ t = runFrom (encode i) (op :: rest) k s) := by
  rw [exec_eq_runCommand] at h
  unfold runCommand at h
  split at h
  · rename_i hs
    split at h <;> rename_i hw <;> cases h
    · exact .inl ⟨hs, hw, rfl⟩
    · exact .inr (.inl ⟨hs, by simpa using hw, rfl⟩)
  · cases h
  · rename_i cmd op rest k hs
    split at h <;> rename_i hc <;> cases h
    subst hc
    exact .inr (.inr ⟨op, rest, k, hs, rfl⟩)

/-! ## What every micro-operation keeps -/

theorem busEffect_frame (dev : DevAddr) (bytes : List Byte) (ok : Bool) (s : State) :
    (busEffect dev bytes ok s).params = s.params ∧ (busEffect dev bytes ok s).cmdIn = s.cmdIn ∧
    (busEffect dev bytes ok s).speed = s.speed ∧ (busEffect dev bytes ok s).trace = s.trace := by
  unfold busEffect
  split
  · simp
  · split
    · split
      · split <;> simp
      · simp
    · simp

/-- No micro-operation changes the parameters, takes a command from the host or reconfigures the stepper; the trace only
grows. -/
theorem perform_frame (op : MicroOp) (cmd : Word) (rest : List MicroOp) (n : Nat) (s : State) :
    (perform op cmd rest n s).params = s.params ∧ (perform op cmd rest n s).cmdIn = s.cmdIn ∧
    (perform op cmd rest n s).speed = s.speed ∧ ∃ ev, (perform op cmd rest n s).trace = s.trace ++ ev := by
  cases op with
  | read a next =>
    simp only [perform, chkRead]
    split
    · simp
    · split <;> simp
  | write a v =>
    simp only [perform, chkWrite, afterFailure]
    split
    · simp
    · split <;> simp
  | busWrite dev bytes =>
    have h := busEffect_frame dev bytes (nextStatus s) (emit (.busWrite dev bytes (nextStatus s)) (popStatus s))
    simp only [emit_params, emit_cmdIn, emit_speed, emit_trace, popStatus_params, popStatus_cmdIn, popStatus_speed,
      popStatus_trace] at h
    simp only [perform, chkBus, afterFailure]
    split
    · simp [h]
    · split <;> simp [h]
  | busInit => simp [perform]
  | pinWrite level => simp [perform]
  | delay d => simp [perform]
  | poll p1 p2 p3 p4 =>
    simp only [perform, pollStep]
    split
    · simp
    · split
      · simp_all
      · split <;> simp_all
  | respond d => simp [perform]
  | raise e k => simp [perform]

/-- What `perform` keeps whatever the micro-operation, a whole script keeps. -/
theorem runFrom_keeps {P : State → Prop} (hgo : ∀ c p k s, P s → P (goOn c p k s))
    (h : ∀ op c rest k s, P s → P (perform op c rest k s)) (cmd : Word) (pos : List MicroOp) (k : Nat) (s : State)
    (hs : P s) : P (runFrom cmd pos k s) := by
  refine runScript_keeps (fun s hs => ?_) _ _ (hgo _ _ _ _ hs)
  unfold micro
  split
  · exact h _ _ _ _ _ hs
  · exact hs
  · exact hs

/-- The parameters, the host's commands and the speed after a script are those before it. -/
theorem runFrom_frame (cmd : Word) (pos : List MicroOp) (k : Nat) (s : State) :
    (runFrom cmd pos k s).params = s.params ∧ (runFrom cmd pos k s).cmdIn = s.cmdIn ∧
    (runFrom cmd pos k s).speed = s.speed ∧ ∃ ev, (runFrom cmd pos k s).trace = s.trace ++ ev := by
  refine runFrom_keeps
    (P := fun t => t.params = s.params ∧ t.cmdIn = s.cmdIn ∧ t.speed = s.speed ∧ ∃ ev, t.trace = s.trace ++ ev)
    (fun c p k t h => h) (fun op c rest k t h => ?_) cmd pos k s ⟨rfl, rfl, rfl, [], by simp⟩
  obtain ⟨h1, h2, h3, ev, h4⟩ := h
  obtain ⟨g1, g2, g3, ew, g4⟩ := perform_frame op c rest k t
  exact ⟨g1.trans h1, g2.trans h2, g3.trans h3, ev ++ ew, by rw [g4, h4, List.append_assoc]⟩

/-! ## Which micro-operations a script comes to -/

/-- Every micro-operation still to come has the property `A`. -/
def scriptIn (A : MicroOp → Prop) (s : State) : Prop :=
  match s.seq with
  | .idle => True
  | .busy _ pos _ => ∀ op ∈ pos, A op

/-- A property that what follows a read and a due poll also has is kept by every micro-operation. -/
theorem perform_scriptIn {A : MicroOp → Prop} {pr : Params}
    (hread : ∀ a next b, A (.read a next) → ∀ op ∈ afterRead pr next b, A op)
    (hpoll : ∀ p1 p2 p3 p4 ph d, A (.poll p1 p2 p3 p4) → ∀ op ∈ phaseWrite pr ph d p1 p2 p3 p4, A op)
    {op : MicroOp} {rest : List MicroOp} (hop : A op) (hrest : ∀ x ∈ rest, A x) (cmd : Word) (k : Nat) {s : State}
    (hs : s.params = pr) : scriptIn A (perform op cmd rest k s) := by
  subst hs
  have happ : ∀ {xs : List MicroOp}, (∀ x ∈ xs, A x) → ∀ x ∈ xs ++ rest, A x := by
    intro xs hxs x hx
    rcases List.mem_append.mp hx with hx | hx
    · exact hxs x hx
    · exact hrest x hx
  cases op with
  | read a next =>
    simp only [perform, chkRead]
    split
    · exact happ (hread _ _ _ hop)
    · split
      · trivial
      · exact happ (hread _ _ _ hop)
  | write a v =>
    simp only [perform, chkWrite, afterFailure]
    split
    · exact hrest
    · split
      · trivial
      · exact hrest
  | busWrite dev bytes =>
    simp only [perform, chkBus, afterFailure]
    split
    · exact hrest
    · split
      · trivial
      · exact hrest
  | busInit => exact hrest
  | pinWrite level => exact hrest
  | delay d => exact hrest
  | poll p1 p2 p3 p4 =>
    have hcons : ∀ x ∈ (MicroOp.poll p1 p2 p3 p4) :: rest, A x := by
      intro x hx
      rcases List.mem_cons.mp hx with rfl | hx
      · exact hop
      · exact hrest x hx
    simp only [perform, pollStep]
    split
    · exact hrest
    · split
      · trivial
      · split
        · exact hcons
        · intro x hx
          rcases List.mem_append.mp hx with hx | hx
          · exact hpoll _ _ _ _ _ _ hop x hx
          · split at hx
            · exact hrest x hx
            · exact hcons x hx
  | respond d => trivial
  | raise e n => trivial

/-- A property of states that micro-operations with `A` keep, kept by a script all of whose micro-operations have `A`. -/
theorem runFrom_keeps_of {P : State → Prop} {A : MicroOp → Prop} {pr : Params}
    (hread : ∀ a next b, A (.read a next) → ∀ op ∈ afterRead pr next b, A op)
    (hpoll : ∀ p1 p2 p3 p4 ph d, A (.poll p1 p2 p3 p4) → ∀ op ∈ phaseWrite pr ph d p1 p2 p3 p4, A op)
    (hgo : ∀ c p k s, P s → P (goOn c p k s))
    (h : ∀ op c rest k s, A op → s.params = pr → P s → P (perform op c rest k s)) {cmd : Word} {pos : List MicroOp}
    {k : Nat} {s : State} (hpos : ∀ op ∈ pos, A op) (hpr : s.params = pr) (hs : P s) : P (runFrom cmd pos k s) := by
  refine (runScript_keeps (P := fun t => scriptIn A t ∧ t.params = pr ∧ P t) ?_ (weight pos) (goOn cmd pos k s)
    ⟨hpos, hpr, hgo _ _ _ _ hs⟩).2.2
  intro t ⟨hA, hp, hP⟩
  unfold micro
  unfold scriptIn at hA
  split
  · rename_i c op rest n hseq
    rw [hseq] at hA
    exact ⟨perform_scriptIn hread hpoll (hA _ List.mem_cons_self) (fun x hx => hA x (List.mem_cons_of_mem _ hx)) c n hp,
      (perform_frame op c rest n t).1.trans hp, h _ _ _ _ _ (hA _ List.mem_cons_self) hp hP⟩
  · rename_i hseq
    exact ⟨by simp [scriptIn, hseq], hp, hP⟩
  · rename_i hseq
    exact ⟨by simp [scriptIn, hseq], hp, hP⟩

end Sys2Proof.Machine
end

