-- ==== Sys2Proof/Laws/GoingOn.lean ====
section
/-! SUPPORT. Spec lemmas for commands that go on whatever the statuses of their transactions (R15, Continue): how
statuses are given to entries, and what a write, a read, `setModeOne` and a ramp leave. -/

namespace Sys2Proof.Machine

open Sys2Proof Sys2Proof.Config

/-- Statuses are given to entries one after another. -/
theorem withStatuses_append (es fs : List Event) (oks l : List Bool) (h : oks.length = transactionsIn es) :
    withStatuses (es ++ fs) (oks ++ l) = withStatuses es oks ++ withStatuses fs l := by
  induction es generalizing oks with
  | nil => simp_all [transactionsIn, withStatuses]
  | cons e es ih =>
    have hc := ih oks
    cases e with
    | memRead dev a ok v => cases oks <;> simp_all [transactionsIn, withStatuses]
    | memWrite dev a v ok => cases oks <;> simp_all [transactionsIn, withStatuses]
    | busWrite dev bytes ok => cases oks <;> simp_all [transactionsIn, withStatuses]
    | _ => simpa [withStatuses] using hc (by simpa [transactionsIn] using h)

/-- A ramp's entries take no byte, whatever their statuses. -/
theorem withStatuses_no_read (es : List Event) (oks : List Bool) (h : ∀ e ∈ es, ∀ dev a ok v, e ≠ .memRead dev a ok v) :
    ∀ e ∈ withStatuses es oks, ∀ dev a ok v, e ≠ .memRead dev a ok v := by
  induction es generalizing oks with
  | nil => simp [withStatuses]
  | cons e es ih =>
    have hes := fun oks => ih oks (fun x hx => h x (List.mem_cons_of_mem _ hx))
    cases e with
    | memRead dev a ok v => exact absurd rfl (h _ List.mem_cons_self dev a ok v)
    | _ => cases oks <;> simpa [withStatuses] using hes _

/-- A register write whose failure does not end the command. -/
theorem settle_write_goesOn {cmd : Word} {a v : Byte} {rest : List MicroOp} {k : Nat} {s : State} {ok : Bool}
    {l : List Bool} (h : s.statusIn = ok :: l) (hp : ok = true ∨ s.params.busFail = .continue_) :
    settle cmd (.write a v :: rest) k s =
      settle cmd rest (k + 1) (happened s [.memWrite s.params.devAddr a v ok] l s.readIn) := by
  cases ok
  · rw [settle_write_continue h (by simpa using hp)]; rfl
  · rw [settle_write_ok h]; rfl

/-- A register read whose failure does not end the command, under either oracle. -/
theorem settle_read_goesOn {cmd : Word} {a b : Byte} {next : ReadThen} {rest : List MicroOp} {k : Nat} {s : State}
    {ok : Bool} {l : List Bool} {bs : List Byte} (h : s.statusIn = ok :: l)
    (hp : ok = true ∨ s.params.busFail = .continue_)
    (ha : answersAll s [.memRead s.params.devAddr a ok (some b)] bs) :
    settle cmd (.read a next :: rest) k s =
      settle cmd (afterRead s.params next b ++ rest) (k + 1)
        (happened s [.memRead s.params.devAddr a ok (some b)] l bs) := by
  cases ok
  · obtain ⟨bs', hb, rfl⟩ := ha
    have hc : s.params.busFail = .continue_ := by simpa using hp
    rw [settle_of_not_resting rfl]
    refine runFrom_settle ?_
    have hn : nextByte { s with statusIn := l } = b := nextByte_cons hb
    have hq : popByte { s with statusIn := l } = { s with statusIn := l, readIn := bs' } := popByte_cons hb
    simp [perform, chkRead, nextStatus_cons h, popStatus_cons h, hc, hn, hq, happened, emit, chipAfterEvent,
      lostAfterEvent]
  · obtain ⟨bs', hb, rfl⟩ := ha
    rw [settle_read_answers h hb]; rfl

/-- `setModeOne`, whichever of its two transactions fail. -/
theorem settle_setModeOne_goesOn {cmd : Word} {c : Chan} {m : Mode} {rest : List MicroOp} {k : Nat} {s : State}
    {r w : Bool} {l : List Bool} {b : Byte} {bs : List Byte} (h : s.statusIn = r :: w :: l)
    (hp : (r = true ∧ w = true) ∨ s.params.busFail = .continue_)
    (ha : answersAll s (withStatuses (rmwEvents s.params c m b) [r, w]) bs) :
    settle cmd (setModeOne c m ++ rest) k s =
      settle cmd rest (k + 2) (happened s (withStatuses (rmwEvents s.params c m b) [r, w]) l bs) := by
  obtain ⟨bs', h1, h2⟩ := (answersAll_cons s _ _ bs l).1 ha
  have hb : bs' = bs := by cases w <;> exact h2
  subst hb
  simp only [setModeOne, List.cons_append, List.nil_append]
  rw [settle_read_goesOn h (hp.imp_left And.left) h1, afterRead, List.cons_append, List.nil_append,
    settle_write_goesOn (by rfl) (by exact hp.imp_left And.right)]
  exact congrArg (settle cmd rest (k + 2)) (happened_happened _ _ _ _ _ _ _)

/-- A ramp, whichever of its writes fail. -/
theorem settle_ramp_goesOn {cmd : Word} {c : Chan} {i : BitVec 32} {vs : List Byte} {rest : List MicroOp} {k : Nat}
    {s : State} {oks l : List Bool} (hn : oks.length = vs.length) (h : s.statusIn = oks ++ l)
    (hp : (∀ ok ∈ oks, ok = true) ∨ s.params.busFail = .continue_) :
    settle cmd (ramp c i vs ++ rest) k s =
      settle cmd rest (k + vs.length) (happened s (withStatuses (rampEvents s.params c i vs) oks) l s.readIn) := by
  induction vs generalizing s oks k with
  | nil =>
    obtain rfl : oks = [] := by simpa using hn
    have hs : happened s [] l s.readIn = s := by rw [List.nil_append] at h; simp [happened, ← h]
    exact congrArg (settle cmd rest k) hs.symm
  | cons v vs ih =>
    obtain ⟨ok, oks, rfl⟩ : ∃ x xs, oks = x :: xs := by cases oks <;> simp_all
    have hr : ramp c i (v :: vs) = .write (dutyReg c) v :: .delay ⟨i.toNat, .ms⟩ :: ramp c i vs := rfl
    have hp1 : ok = true ∨ s.params.busFail = .continue_ := hp.imp_left (fun h => h ok List.mem_cons_self)
    have hp2 : (∀ x ∈ oks, x = true) ∨ s.params.busFail = .continue_ :=
      hp.imp_left (fun h x hx => h x (List.mem_cons_of_mem _ hx))
    rw [hr, List.cons_append, List.cons_append, settle_write_goesOn (by simpa using h) hp1, settle_delay,
      ih (oks := oks) (by simpa using hn) (by rfl) (by exact hp2)]
    have hk : k + 1 + vs.length = k + (v :: vs).length := by simp; omega
    rw [hk]
    exact congrArg (settle cmd rest _) (by simp [happened, rampEvents, wrote, withStatuses, emit, chipAfterEvent, lostAfterEvent])

end Sys2Proof.Machine
end

