-- ==== Sys2Proof/Laws/PerInstr.lean ====
section
/-! SUPPORT. A fact per command, as syntax: its word carries its opcode in the low byte (R60), and that opcode is none
of the reserved ones (R66). -/

namespace Sys2Proof.Laws.OpcodeByte

open Sys2Proof

/-- The word of `i` has `i`'s opcode in bits [7:0], one of 0x01..0x0F. -/
def Statement (i : Instr) : Prop := (opcodeOf (encode i)).toNat = i.opcode ∧ 1 ≤ i.opcode ∧ i.opcode ≤ 15

/-- No command has a reserved opcode (R66). -/
theorem opcode_range (i : Instr) : 1 ≤ i.opcode ∧ i.opcode ≤ 15 := by cases i <;> simp [Instr.opcode]

/-- The opcode byte survives whatever is placed above it. -/
theorem low_byte (i : Instr) (h : operandBits i % 256 = 0) : Statement i := by
  obtain ⟨h1, h2⟩ := opcode_range i
  refine ⟨?_, h1, h2⟩
  simp only [opcodeOf, wordField, encode, BitVec.extractLsb'_toNat, BitVec.toNat_ofNat, Nat.shiftRight_zero]
  omega

theorem setmode (ch : Chan) (mode : BitVec 2) (all : Bool) : Statement (.setmode ch mode all) :=
  low_byte _ (by cases all <;> simp [operandBits, placed, placedBit] <;> omega)

theorem getmode (ch : Chan) : Statement (.getmode ch) :=
  low_byte _ (by simp [operandBits, placed])

theorem writeduty (ch : Chan) (val : Byte) : Statement (.writeduty ch val) :=
  low_byte _ (by simp [operandBits, placed]; omega)

theorem readduty (ch : Chan) : Statement (.readduty ch) :=
  low_byte _ (by simp [operandBits, placed])

theorem turnon (ch : Chan) : Statement (.turnon ch) :=
  low_byte _ (by simp [operandBits, placed])

theorem turnoff (ch : Chan) : Statement (.turnoff ch) :=
  low_byte _ (by simp [operandBits, placed])

theorem setpwm (ch : Chan) (val : Byte) : Statement (.setpwm ch val) :=
  low_byte _ (by simp [operandBits, placed]; omega)

theorem allon (dp dir : Bool) : Statement (.allon dp dir) :=
  low_byte _ (by cases dp <;> cases dir <;> decide)

theorem alloff : Statement .alloff := low_byte _ (by decide)

theorem fadein (ch : Chan) (tgt : Byte) (dur : BitVec 32) : Statement (.fadein ch tgt dur) :=
  low_byte _ (by simp [operandBits, placed]; omega)

theorem fadeout (ch : Chan) (tgt : Byte) (dur : BitVec 32) : Statement (.fadeout ch tgt dur) :=
  low_byte _ (by simp [operandBits, placed]; omega)

theorem cfgspeed (speed steps : BitVec 16) : Statement (.cfgspeed speed steps) :=
  low_byte _ (by simp [operandBits, placed]; omega)

theorem move (p1 p2 p3 p4 : Chan) (cnt : BitVec 32) : Statement (.move p1 p2 p3 p4 cnt) :=
  low_byte _ (by simp [operandBits, placed]; omega)

theorem begin : Statement .begin := low_byte _ (by decide)

theorem swreset : Statement .swreset := low_byte _ (by decide)

end Sys2Proof.Laws.OpcodeByte
end

