-- ==== Sys2Proof/Tests/Slice0.lean ====
section
/-! SUPPORT. Tests: ill-formed terms, words written out from the formats of 30_encoding.md, the vectors of
95_test_vectors.md (expected results are the spec's), and a witness for the hypotheses of each statement. -/

namespace Sys2Proof.Tests

open Sys2Proof Sys2Proof.Machine Sys2Proof.Config

/-! ## Helpers -/

/-- The conventions of 95_test_vectors.md: reference register file, Abort, F_EX. -/
def params : Params where
  devAddr := 0x40
  pairPos := PairPos.ascending
  phaseTable := PhaseTable.example_
  phaseWriteOp := .dutyOnly
  fadeoutSetsPwm := false
  busFail := .abort
  clockBits := 32
  beginDelay1Us := 7
  beginDelay2 := ⟨9, .ms⟩
  oracle := .registerFile

/-- An Idle machine with those parameters, the chip holding `chip` and the next transactions answering `statuses`. -/
def machine (chip : Memory) (statuses : List Bool) : State :=
  { State.reset with
    params := params
    chip := chip
    statusIn := statuses
    direction := .forward
    lastStepTimestamp := 0 }

/-- `n` transactions that succeed. -/
def oks (n : Nat) : List Bool := List.replicate n true

/-- The same machine with the free oracle, the transport answering `reads`. -/
def freeMachine (reads : List Byte) (statuses : List Bool) : State :=
  { machine [] statuses with readIn := reads, params := { params with oracle := .transport } }

/-- The machine with the free oracle, under Continue. -/
def continueMachine (reads : List Byte) (statuses : List Bool) : State :=
  { freeMachine reads statuses with params := { params with oracle := .transport, busFail := .continue_ } }

/-- A machine configured with N steps per revolution and a step delay of 5000, at index `i`. -/
def configuredMachine (n i : BitVec 16) (clock : List Nat) (statuses : List Bool) : State :=
  { machine [] statuses with speed := some ⟨n, 5000⟩, currentStepIndex := i, clockIn := clock }

/-- The state after a command. -/
def after (i : Instr) (s : State) : State :=
  match exec i s with
  | .next t => t
  | .fault _ => s
  | .refused _ => s

/-- The state after `n` steps with the given commands presented. -/
def program (n : Nat) (commands : List Word) (s : State) : State :=
  match Host.Core.run Sys2Proof.core n { s with cmdIn := commands } with
  | .next t => t
  | .fault _ => s
  | .refused _ => s

/-- `R a -> v` of the vectors. -/
def rd (a v : Byte) : Event := .memRead 0x40 a true (some v)

/-- `W a v` of the vectors. -/
def wr (a v : Byte) : Event := .memWrite 0x40 a v true

/-- `W a v (fail)` of the vectors. -/
def wrFail (a v : Byte) : Event := .memWrite 0x40 a v false

/-- `D n` of the vectors. -/
def waitMs (n : Nat) : Event := .delay ⟨n, .ms⟩

/-! ## Ill-formed terms: one for each value check of R65 -/

theorem test_mode_3_is_ill_formed : (Instr.setmode 0 3 false).wellFormed = false := by decide

theorem test_all_with_a_channel_is_ill_formed : (Instr.setmode 1 0 true).wellFormed = false := by decide

theorem test_direction_without_dp_is_ill_formed : (Instr.allon false true).wellFormed = false := by decide

/-! ## Decoding: words written out from R62, R71 and section 2.1 -/

/-- Format CM: all 0, mode 10, bit 11 0, ch 101, op 00000001. -/
theorem test_decode_setmode : decode 0b0_10_0_101_00000001 = .instr (.setmode 5 2 false) := by decide

theorem test_decode_setmode_all : decode 0b1_00_0_000_00000001 = .instr (.setmode 0 0 true) := by decide

/-- Format C: ch 110, op 00000010. -/
theorem test_decode_getmode : decode 0b110_00000010 = .instr (.getmode 6) := by decide

/-- Format CV: val 10000000, bits 15..11 0, ch 111, op 00000011. -/
theorem test_decode_writeduty : decode 0b10000000_00000_111_00000011 = .instr (.writeduty 7 0x80) := by decide

theorem test_decode_readduty : decode 0b111_00000100 = .instr (.readduty 7) := by decide

theorem test_decode_turnon : decode 0b000_00000101 = .instr (.turnon 0) := by decide

theorem test_decode_turnoff : decode 0b011_00000110 = .instr (.turnoff 3) := by decide

theorem test_decode_setpwm : decode 0b10000000_00000_011_00000111 = .instr (.setpwm 3 128) := by decide

/-- Format D: dir, dp, op 00001000. -/
theorem test_decode_allon_forward : decode 0b1_1_00001000 = .instr (.allon true true) := by decide

theorem test_decode_allon_backward : decode 0b0_1_00001000 = .instr (.allon true false) := by decide

theorem test_decode_alloff : decode 0b00001001 = .instr .alloff := by decide

/-- Format F: dur 1000, bits 31..24 0, tgt 255, bits 15..11 0, ch 010, op 0x0A. -/
theorem test_decode_fadein : decode 0x000003E8_00_FF_02_0A = .instr (.fadein 2 255 1000) := by decide

theorem test_decode_fadeout : decode 0x000003E8_00_00_02_0B = .instr (.fadeout 2 0 1000) := by decide

/-- Format S: steps 200, speed 60, bits 15..8 0, op 0x0C. -/
theorem test_decode_cfgspeed : decode 0x0000_00C8_003C_00_0C = .instr (.cfgspeed 60 200) := by decide

/-- Format M: cnt -4, p4 3, p3 2, p2 1, p1 0, op 0x0D. -/
theorem test_decode_move : decode 0xFFFFFFFC_00_3_2_1_0_0D = .instr (.move 0 1 2 3 (-4)) := by decide

theorem test_decode_begin : decode 0x0E = .instr .begin := by decide

theorem test_decode_swreset : decode 0x0F = .instr .swreset := by decide

/-- Section 2.1: reserved opcodes. -/
theorem test_decode_reserved_opcodes :
    ([0x00, 0x10, 0xFF] : List Word).map decode = List.replicate 3 (.illegal .reservedOpcode) := by decide

/-- Section 2.1: a reserved bit set, bits 11 of CM, 8 of N, 24 of F, 11 of M. -/
theorem test_decode_reserved_bits :
    ([0x0801, 0x0109, 0x000000640100010A, 0x080D] : List Word).map decode =
      List.replicate 4 (.illegal .reservedBits) := by decide

/-- Section 2.1: the value checks. -/
theorem test_decode_bad_values :
    ([0x3001, 0x5101, 0x0208] : List Word).map decode = List.replicate 3 (.illegal .badValue) := by decide

/-- R61: byte 0 is the opcode; and only eight bytes are a command word. -/
theorem test_decode_bytes :
    decodeBytes [0x0A, 0x02, 0xFF, 0x00, 0xE8, 0x03, 0x00, 0x00] = .instr (.fadein 2 255 1000) ∧
    decodeBytes [0x0E] = .illegal .badLength := by decide

/-- The bits above the table's width are 0. -/
theorem test_decode_table_word : decodeTableWord 16 0x2501 = some (.setmode 5 2 false) := by decide

/-- The assembler's text of a line of R71. -/
theorem test_asm_text : (Asm.move (-4) 0 1 2 3).text = "move -4, 0, 1, 2, 3" := by decide

/-- Lines of R71 with the words it lists; a channel out of range, a missing operand and upper case are no lines. -/
theorem test_assemble :
    (["setmode 5, pwm", "setmode all, on", "writeduty 7, 0x80", "allon bwd", "fadein 2, 1000", "cfgspeed 60, 200",
      "move -4, 0, 1, 2, 3", "swreset", "turnon 8", "setpwm 3", "BEGIN"].map assemble) =
      [some 0x2501, some 0x5001, some 0x800703, some 0x108, some 0x000003E800FF020A, some 0x000000C8003C000C,
       some 0xFFFFFFFC0032100D, some 0x0F, none, none, none] := by decide

/-! ## Mode codec (section 2.2) -/

theorem test_decode_field :
    [0, 1, 2, 3].map (decodeField .ascending 0xE4) = [some .off, some .on, some .pwm, none] := by decide

theorem test_encode_field : encodeField .ascending 0xC0 3 .off = 0x00 := by decide

/-- The Invalid sibling is carried through. -/
theorem test_setmode_one :
    let t := after (.setmode 4 1 false) (machine [(0x0D, 0xE4)] (oks 2))
    t.trace = [rd 0x0D 0xE4, wr 0x0D 0xE5, .responded 0] ∧ Memory.read t.chip 0x0D = some 0xE5 := by decide

theorem test_setmode_all :
    (after (.setmode 0 1 true) (machine [(0x0D, 0xE4)] (oks 2))).chip = [(0x0C, 0x55), (0x0D, 0x55)] := by decide

theorem test_getmode_pwm :
    let t := after (.getmode 6) (machine [(0x0D, 0xE4)] (oks 1))
    t.trace = [rd 0x0D 0xE4, .responded 2] ∧ t.status = 0 ∧ t.data = 2 := by decide

/-- W7: the invalid pattern. -/
theorem test_getmode_invalid :
    let t := after (.getmode 1) (machine [(0x0C, 0x0C)] (oks 1))
    t.trace = [rd 0x0C 0x0C, .raised .invalidChannelState 1] ∧ t.status = 1 ∧ t.data = 0 := by decide

/-! ## PWM engine (section 2.3) -/

theorem test_writeduty : (after (.writeduty 7 0x80) (machine [] (oks 1))).trace = [wr 0x09 0x80, .responded 0] := by decide

theorem test_readduty : (after (.readduty 7) (machine [(0x09, 0x80)] (oks 1))).data = 0x80 := by decide

theorem test_turnon :
    (after (.turnon 5) (machine [(0x0D, 0x00)] (oks 3))).trace =
      [rd 0x0D 0x00, wr 0x0D 0x04, wr 0x07 0xFF, .responded 0] := by decide

/-- Under Continue a failed read goes on with the byte drawn, here 0x03. -/
theorem test_turnon_continues :
    let t := after (.turnon 5) (continueMachine [0x03] [false, true, true])
    t.trace = [.memRead 0x40 0x0D false (some 0x03), wr 0x0D 0x07, wr 0x07 0xFF, .responded 0] ∧ t.status = 0 := by decide

/-- Transaction 1, the mode write, fails. -/
theorem test_turnon_write_fails :
    let t := after (.turnon 5) (machine [(0x0D, 0x00)] [true, false])
    t.trace = [rd 0x0D 0x00, wrFail 0x0D 0x04, .raised .busTransportFailure 1] ∧ t.chip = [] ∧ t.status = 3 := by decide

theorem test_turnoff :
    (after (.turnoff 3) (machine [(0x0C, 0xC0)] (oks 3))).chip = [(0x05, 0x00), (0x0C, 0x00)] := by decide

theorem test_setpwm :
    (after (.setpwm 6 0) (machine [(0x0D, 0x55)] (oks 3))).chip = [(0x08, 0x00), (0x0D, 0x65)] := by decide

theorem test_allon_backward :
    (after (.allon true false) (machine [(0x0C, 0x00), (0x0D, 0x00)] (oks 12))).trace =
      [rd 0x0C 0x00, wr 0x0C 0x04, wr 0x03 0xFF, rd 0x0C 0x04, wr 0x0C 0x44, wr 0x05 0xFF,
       rd 0x0D 0x00, wr 0x0D 0x04, wr 0x07 0xFF, rd 0x0D 0x04, wr 0x0D 0x44, wr 0x09 0xFF, .responded 0] := by decide

theorem test_allon_bulk :
    ((after (.allon false false) (machine [] (oks 10))).trace.take 3) = [wr 0x0C 0x55, wr 0x0D 0x55, wr 0x02 0xFF] := by
  decide

/-- Transaction 1 fails: register A written, B unknown, duties unchanged. -/
theorem test_alloff_fails :
    let t := after .alloff (machine [(0x02, 0x09), (0x0D, 0x00)] [true, false])
    t.chip = [(0x02, 0x09), (0x0C, 0x00)] ∧ t.trace.getLast? = some (.raised .busTransportFailure 1) := by decide

/-- Under Continue a failed write leaves its register unknown and the command ends with (OK, 0) (R15, D11). -/
theorem test_writeduty_continues :
    let t := after (.writeduty 7 0x80) { continueMachine [] [false] with chip := [(0x09, 0x01)] }
    t.trace = [wrFail 0x09 0x80, .responded 0] ∧ t.chip = [] ∧ t.status = 0 := by decide

/-- R46: a failed write of one unknown register leaves the answer of another. -/
theorem test_failed_write_leaves_other_unknown_registers (s : State) :
    chipHolds (forgetReg 0x09 s) 0x02 = chipHolds s 0x02 := chipHolds_forgetReg_other _ _ (by decide)

/-! ## Fades (section 2.4) -/

theorem test_fadein :
    (after (.fadein 0 1 7) (machine [(0x0C, 0x00)] (oks 4))).trace =
      [rd 0x0C 0x00, wr 0x0C 0x02, wr 0x02 0, waitMs 7, wr 0x02 1, waitMs 7, .responded 0] := by decide

theorem test_fadein_zero_target :
    (after (.fadein 1 0 100) (machine [] [])).trace = [.raised .divisionPrecondition 0] := by decide

theorem test_fadeout :
    (after (.fadeout 2 0 9) (machine [(0x04, 0x03), (0x0C, 0x20)] (oks 7))).trace =
      [rd 0x04 0x03, wr 0x04 3, waitMs 3, wr 0x04 2, waitMs 3, wr 0x04 1, waitMs 3, wr 0x04 0, waitMs 3,
       rd 0x0C 0x20, wr 0x0C 0x00, .responded 0] := by decide

theorem test_fadeout_start_below_target :
    (after (.fadeout 2 10 100) (machine [(0x04, 0x05)] (oks 1))).trace =
      [rd 0x04 0x05, .raised .divisionPrecondition 5] := by decide

/-! ## Stepper (section 2.5) -/

theorem test_cfgspeed : (after (.cfgspeed 7 13) (machine [] [])).speed = some ⟨13, 659340⟩ := by decide

theorem test_cfgspeed_zero_speed :
    let t := after (.cfgspeed 0 200) (machine [] [])
    t.speed = none ∧ t.status = 2 := by decide

/-- Backward through 0, the third phase write failing. -/
theorem test_move_backward_write_fails :
    let t := after (.move 0 1 2 3 (-1)) (configuredMachine 200 0 [5000] [true, true, false])
    t.trace = [.clockRead 5000, wr 0x02 0xFA, wr 0x03 0x00, wrFail 0x04 0x00, .raised .busTransportFailure 2] ∧
    t.currentStepIndex = 199 ∧ t.stepsRemaining = 0 ∧ t.lastStepTimestamp = 5000 ∧ t.direction = .backward := by decide

/-- The wrapped clock: 0x387 is not due, 0x388 is. -/
theorem test_move_clock_wraps :
    let s := { configuredMachine 200 0 [0x387, 0x388] (oks 4) with lastStepTimestamp := 0xFFFFF000 }
    let t := program 2 [0x000000010032100D] s
    t.trace = [.clockRead 0x387, .clockRead 0x388, wr 0x02 0, wr 0x03 0xFA, wr 0x04 0xFA, wr 0x05 0, .responded 0] ∧
    t.lastStepTimestamp = 0x388 := by decide

/-- R104, R105: row 1 of F_EX, and row 3 mirrored. -/
theorem test_phase_rows :
    (List.finRange 4).map (phaseDuty .example_ .forward 1) = [0, 250, 250, 0] ∧
    (List.finRange 4).map (phaseDuty .example_ .backward 3) = [250, 0, 0, 250] := by decide

/-! ## Initialisation and reset (section 2.6) -/

theorem test_begin :
    let t := after .begin (machine [] (oks 2))
    t.trace = [.pinWrite false, .busInit, wr 0x00 0x01, .delay ⟨7, .us⟩, wr 0x01 0x14, .delay ⟨9, .ms⟩, .responded 0] ∧
    t.en = .low := by decide

theorem test_begin_first_write_fails :
    let t := after .begin (machine [] [false])
    t.trace = [.pinWrite false, .busInit, wrFail 0x00 0x01, .raised .busTransportFailure 0] ∧ t.en = .low := by decide

/-- U2: after BEGIN only 0x00 and 0x01 are known. -/
theorem test_begin_leaves_other_registers_unknown :
    (after .begin (machine [(0x02, 0x09), (0x0C, 0x55)] (oks 2))).chip = [(0x00, 0x01), (0x01, 0x14)] := by decide

theorem test_swreset :
    let t := after .swreset (machine [(0x0C, 0x55)] (oks 1))
    t.trace = [.busWrite 0x03 [0xA5, 0x5A] true, .responded 0] ∧ t.chip = [] := by decide

/-- P4, command 4: an illegal word. -/
theorem test_illegal_word :
    let t := program 1 [0x3001] (machine [] [])
    t.trace = [.raised .illegalCommand 0x01] ∧ t.status = 4 ∧ t.data = 0 := by decide

/-- The host's question: the word placed at reset runs as the first command. -/
theorem test_with_fetch_word :
    step (State.reset.withFetchWord 32 0x0032100D) = exec (.move 0 1 2 3 0) State.reset := by rfl

/-! ## Witnesses: states and operands that meet the hypotheses of each statement, clause by clause -/

/-- MOVE on channels 0 to 3 at its loop head, `remaining` steps pending, N = 200, delay 5000, index 199. -/
def loopMachine (remaining : BitVec 32) (clock : List Nat) (statuses : List Bool) : State :=
  { configuredMachine 200 199 clock statuses with
    stepsRemaining := remaining
    seq := .busy (encode (.move 0 1 2 3 2)) [.poll 0 1 2 3, .respond 0] 0 }

/-- The same with PHASE_WRITE_OP = SetPwm and the free oracle. -/
def pwmLoopMachine (reads : List Byte) (statuses : List Bool) : State :=
  { loopMachine 1 [5000] statuses with
    readIn := reads
    params := { params with oracle := .transport, phaseWriteOp := .setPwm } }

/-- The machine meets the invariant. -/
theorem machine_inv : Inv (machine [(0x0C, 0x55)] [true]) where
  params := by decide
  chip := by decide
  speed := by decide
  remaining := by decide
  timestamp := by decide
  status := by decide
  data := by decide
  pin := by decide
  seq := .inl rfl

/-- So does the machine at MOVE's loop head. -/
theorem loopMachine_inv : Inv (loopMachine 2 [4999] []) where
  params := by decide
  chip := by decide
  speed := fun c h => by cases h; decide
  remaining := by decide
  timestamp := by decide
  status := by decide
  data := by decide
  pin := by decide
  seq := .inr ⟨0, 1, 2, 3, 2, 0, ⟨200, 5000⟩, rfl, by decide, rfl, by decide⟩

theorem witness_DecodeOfEncode :
    (Instr.setmode 7 2 false).wellFormed = true ∧ (Instr.setmode 0 0 true).wellFormed = true := by decide

theorem witness_EncodeOfDecode : decode 0x2501 = .instr (.setmode 5 2 false) := by decide

theorem witness_DecodesWhenMaskAndChecksHold : legalWord 0x4001 ∧ ¬ legalWord 0x5101 ∧ ¬ legalWord 0x0208 := by
  unfold legalWord valueChecks; decide

theorem witness_IllegalCommandIsRaised :
    let s := { machine [] [] with cmdIn := [0x10] }
    s.seq = .idle ∧ s.cmdIn = [0x10] ∧ ¬ legalWord 0x10 := by
  unfold legalWord valueChecks; decide

theorem witness_StepRunsDecodedCommand :
    let s := { machine [] [] with cmdIn := [0x0E] }
    let w := encode (.move 0 1 2 3 2)
    (s.seq = .idle ∧ s.cmdIn = [0x0E] ∧ decode 0x0E = .instr .begin) ∧
    ((loopMachine 2 [] []).seq = .busy w [.poll 0 1 2 3, .respond 0] 0 ∧ decode w = .instr (.move 0 1 2 3 2)) ∧
    ((machine [] []).seq = .idle ∧ (machine [] []).cmdIn = []) ∧
    (Instr.allon false true).wellFormed = false := by decide

theorem witness_BusyAcceptsNoOtherCommand :
    encode (.move 0 1 2 3 2) ≠ encode .swreset ∧ (loopMachine 2 [4999] []).seq ≠ .idle ∧
    ∃ t, step (loopMachine 2 [4999] []) = .next t := ⟨by decide, by decide, _, rfl⟩

theorem witness_ChannelRegisters : (3 : Chan).toNat < 4 ∧ 4 ≤ (4 : Chan).toNat := by decide

theorem witness_CodecLaws : PairPos.ascending.wf ∧ (⟨3, 2, 1, 0⟩ : PairPos).wf := by decide

/-- Completing; the read failing, the write back failing, the first and the second bulk write failing under Abort; both
transactions failing under Continue. -/
theorem witness_SetmodeCompletes :
    let s := machine [(0x0D, 0xE4)] (oks 2)
    let u := machine [(0x0D, 0xE4)] [true, false]
    let v := continueMachine [0x03] [false, false]
    (s.seq = .idle ∧ s.statusIn = true :: true :: [] ∧ answers s (modeReg 7) 0xE4 []) ∧
    ((machine [] [false]).seq = .idle ∧ (machine [] [false]).params.busFail = .abort ∧
      (machine [] [false]).statusIn = false :: []) ∧
    (u.seq = .idle ∧ u.params.busFail = .abort ∧ u.statusIn = true :: false :: [] ∧ answers u (modeReg 7) 0xE4 []) ∧
    (v.seq = .idle ∧ v.params.busFail = .continue_ ∧ v.statusIn = [false, false] ++ [] ∧
      answersAll v (withStatuses (rmwEvents v.params 7 .on 0x03) [false, false]) []) :=
  ⟨⟨rfl, rfl, .inr ⟨rfl, by decide, rfl⟩⟩, by decide, ⟨rfl, rfl, rfl, .inr ⟨rfl, by decide, rfl⟩⟩,
    rfl, rfl, rfl, _, rfl, rfl⟩

theorem witness_GetmodeReportsTheField :
    let s := machine [(0x0D, 0xE4)] [true]
    let u := continueMachine [0x03] [false]
    (s.seq = .idle ∧ s.statusIn = true :: [] ∧ answers s (modeReg 7) 0xE4 []) ∧
    (u.seq = .idle ∧ u.statusIn = false :: [] ∧ u.params.busFail = .continue_ ∧ u.readIn = 0x03 :: []) ∧
    ((machine [] [false]).seq = .idle ∧ (machine [] [false]).params.busFail = .abort) :=
  ⟨⟨rfl, rfl, .inr ⟨rfl, by decide, rfl⟩⟩, by decide, by decide⟩

theorem witness_SetmodeThenGetmode :
    let s := machine [(0x0D, 0xFF)] (oks 3)
    s.seq = .idle ∧ s.params.oracle = .registerFile ∧ s.params.pairPos.wf ∧ s.statusIn = true :: true :: true :: [] := by
  decide

theorem witness_ForeignWriteBetweenIsLost :
    let s := { freeMachine [0x55] (oks 2) with seq := .busy (encode (.turnon 3)) (setModeOne 3 .on ++ [.respond 0]) 0 }
    s.statusIn = true :: true :: [] ∧ answers s (modeReg 3) 0x55 [] := ⟨rfl, .inl ⟨rfl, rfl⟩⟩

theorem witness_WritedutyWritesOneRegister :
    ((machine [] [true]).seq = .idle ∧ (machine [] [true]).statusIn = true :: []) ∧
    ((machine [] [false]).statusIn = false :: [] ∧ (machine [] [false]).params.busFail = .abort) ∧
    ((continueMachine [] [false]).seq = .idle ∧ (continueMachine [] [false]).statusIn = false :: [] ∧
      (continueMachine [] [false]).params.busFail = .continue_) := by decide

theorem witness_ReaddutyReturnsTheByteRead :
    let s := machine [(0x09, 0x80)] [true]
    let u := continueMachine [0x03] [false]
    (s.seq = .idle ∧ s.statusIn = true :: [] ∧ answers s (dutyReg 7) 0x80 []) ∧
    (u.seq = .idle ∧ u.statusIn = false :: [] ∧ u.params.busFail = .continue_ ∧ u.readIn = 0x03 :: []) ∧
    ((machine [] [false]).statusIn = false :: [] ∧ (machine [] [false]).params.busFail = .abort) :=
  ⟨⟨rfl, rfl, .inr ⟨rfl, by decide, rfl⟩⟩, by decide, by decide⟩

/-- Completing; under Continue the read and the duty write failing (section 2.3's drawn byte). -/
theorem witness_ModeThenDutyCompletes :
    let s := freeMachine [0xFF] (oks 3)
    let u := continueMachine [0x03] [false, true, false]
    let events := rmwEvents u.params 5 .on 0x03 ++ [wrote u.params (dutyReg 5) 255]
    (s.seq = .idle ∧ s.statusIn = true :: true :: true :: [] ∧ answers s (modeReg 4) 0xFF []) ∧
    (u.seq = .idle ∧ u.params.busFail = .continue_ ∧ u.statusIn = [false, true, false] ++ [] ∧
      answersAll u (withStatuses events [false, true, false]) []) :=
  ⟨⟨rfl, rfl, .inl ⟨rfl, rfl⟩⟩, rfl, rfl, rfl, _, rfl, rfl⟩

theorem witness_ModeThenDutyFailures :
    ((machine [] [false]).seq = .idle ∧ (machine [] [false]).params.busFail = .abort ∧
      (machine [] [false]).statusIn = false :: []) ∧
    (answers (freeMachine [0x01] [true, false]) (modeReg 0) 0x01 [] ∧
      (freeMachine [0x01] [true, false]).params.busFail = .abort) ∧
    answers (freeMachine [0x01] [true, true, false]) (modeReg 0) 0x01 [] :=
  ⟨by decide, ⟨.inl ⟨rfl, rfl⟩, rfl⟩, .inl ⟨rfl, rfl⟩⟩

theorem witness_BulkCommandsComplete :
    (machine [] (oks 10)).seq = .idle ∧ (machine [] (oks 10)).statusIn = List.replicate 10 true ++ [] ∧
    ((continueMachine [] (false :: oks 9)).params.busFail = .continue_ ∧ (false :: oks 9).length = 10 ∧
      (continueMachine [] (false :: oks 9)).statusIn = (false :: oks 9) ++ []) := by decide

theorem witness_BulkCommandFailure :
    (machine [] [false]).statusIn = List.replicate (0 : Fin 10).val true ++ false :: [] ∧
    (machine [] (oks 9 ++ [false])).statusIn = List.replicate (9 : Fin 10).val true ++ false :: [] ∧
    (machine [] (oks 9 ++ [false])).params.busFail = .abort := by decide

/-- Completing, under either oracle; the first transaction, a read, and the last, a write, failing under Abort; the first read
and a mode write failing under Continue. -/
theorem witness_DirectedAllonCompletes :
    let s := freeMachine [0x00, 0x55, 0xAA, 0xFF]
    let u := machine [(0x0C, 0x00), (0x0D, 0x00)]
    let some := false :: false :: oks 10
    let v := continueMachine [0x00, 0x55, 0xAA, 0xFF] some
    let events := fun (p : Params) (b1 b2 b3 b4 : Byte) =>
      ([(0, b1), (2, b2), (4, b3), (6, b4)] : List (Chan × Byte)).flatMap
        (fun c => rmwEvents p c.1 .on c.2 ++ [wrote p (dutyReg c.1) 255])
    let free := (s []).params
    (∀ l, (s l).seq = .idle ∧ (s l).params.busFail = .abort) ∧
    ((s (oks 12)).statusIn = List.replicate 12 true ++ [] ∧
      answersAll (s (oks 12)) (events free 0x00 0x55 0xAA 0xFF) []) ∧
    ((u (oks 12)).statusIn = List.replicate 12 true ++ [] ∧
      answersAll (u (oks 12)) (events params 0x00 0x01 0x00 0x01) []) ∧
    ((s [false]).statusIn = List.replicate (0 : Fin 12).val true ++ false :: [] ∧
      answersAll (s [false]) (failedAt (events free 0x00 0x55 0xAA 0xFF) 0) [0x00, 0x55, 0xAA, 0xFF]) ∧
    ((s (oks 11 ++ [false])).statusIn = List.replicate (11 : Fin 12).val true ++ false :: [] ∧
      answersAll (s (oks 11 ++ [false])) (failedAt (events free 0x00 0x55 0xAA 0xFF) 11) []) ∧
    (v.seq = .idle ∧ v.params.busFail = .continue_ ∧ some.length = 12 ∧ v.statusIn = some ++ [] ∧
      answersAll v (withStatuses (events v.params 0x00 0x55 0xAA 0xFF) some) []) :=
  ⟨fun _ => ⟨rfl, rfl⟩,
    ⟨by decide, _, .inl ⟨rfl, rfl⟩, _, .inl ⟨rfl, rfl⟩, _, .inl ⟨rfl, rfl⟩, _, .inl ⟨rfl, rfl⟩, rfl⟩,
    ⟨by decide, _, .inr ⟨rfl, by decide, rfl⟩, _, .inr ⟨rfl, by decide, rfl⟩, _, .inr ⟨rfl, by decide, rfl⟩,
      _, .inr ⟨rfl, by decide, rfl⟩, rfl⟩,
    ⟨by decide, rfl⟩,
    ⟨by decide, _, .inl ⟨rfl, rfl⟩, _, .inl ⟨rfl, rfl⟩, _, .inl ⟨rfl, rfl⟩, _, .inl ⟨rfl, rfl⟩, rfl⟩,
    rfl, rfl, rfl, rfl, _, rfl, _, .inl ⟨rfl, rfl⟩, _, .inl ⟨rfl, rfl⟩, _, .inl ⟨rfl, rfl⟩, rfl⟩

theorem witness_DirectedAllonEffect :
    let s := machine [] (oks 12)
    s.seq = .idle ∧ s.params.oracle = .registerFile ∧ s.params.pairPos.wf ∧ s.statusIn = List.replicate 12 true ++ [] ∧
    decide ((6 : Chan).toNat % 2 = 0) = true ∧ decide ((7 : Chan).toNat % 2 = 0) ≠ true := by decide

theorem witness_BulkEqualsPerChannel :
    let s := machine [(0x0C, 0xFF)] (oks 16)
    s.seq = .idle ∧ s.params.oracle = .registerFile ∧ s.params.pairPos.wf ∧ s.cmdIn = [] ∧
    s.statusIn = List.replicate 16 true ++ [] := by decide

/-- Target 1, its three clauses: under either oracle, the first read and a write in mid-ramp failing under Abort, the read and
a duty write failing under Continue. -/
theorem witness_FadeinCompletes :
    let s := freeMachine [0x00]
    let u := machine [(0x0C, 0x40)]
    let some := [false, true, true, false]
    let v := continueMachine [0x00] some
    let events := fun (p : Params) (b : Byte) => rmwEvents p 0 .pwm b ++
      ((List.range ((1 : Byte).toNat + 1)).map (BitVec.ofNat 8)).flatMap
        (fun x => [wrote p (dutyReg 0) x, .delay ⟨(9 : BitVec 32).toNat / (1 : Byte).toNat, .ms⟩]) ++
      (if (1 : Byte) = 255 then rmwEvents p 0 .on 0x00 else [])
    let transactions := 2 + ((1 : Byte).toNat + 1) + (if (1 : Byte) = 255 then 2 else 0)
    (∀ l, (s l).seq = .idle ∧ (s l).params.busFail = .abort) ∧
    ((s (oks 4)).statusIn = List.replicate transactions true ++ [] ∧
      answersAll (s (oks 4)) (events (s []).params 0x00) []) ∧
    ((u (oks 4)).statusIn = List.replicate transactions true ++ [] ∧ answersAll (u (oks 4)) (events params 0x40) []) ∧
    ((s [false]).statusIn = List.replicate 0 true ++ false :: [] ∧
      answersAll (s [false]) (failedAt (events (s []).params 0x00) 0) [0x00]) ∧
    (3 < transactions ∧ (u (oks 3 ++ [false])).statusIn = List.replicate 3 true ++ false :: [] ∧
      answersAll (u (oks 3 ++ [false])) (failedAt (events params 0x40) 3) []) ∧
    (v.seq = .idle ∧ v.params.busFail = .continue_ ∧ some.length = transactions ∧ v.statusIn = some ++ [] ∧
      answersAll v (withStatuses (events v.params 0x00) some) []) :=
  ⟨fun _ => ⟨rfl, rfl⟩, ⟨by decide, _, .inl ⟨rfl, rfl⟩, rfl⟩, ⟨by decide, _, .inr ⟨rfl, by decide, rfl⟩, rfl⟩,
    ⟨by decide, rfl⟩, ⟨by decide, by decide, _, .inr ⟨rfl, by decide, rfl⟩, rfl⟩,
    rfl, rfl, by decide, rfl, _, rfl, rfl⟩

/-- Target 255, with its closing mode change: completing, and the closing write failing. -/
theorem witness_FadeinCompletes_full :
    let u := freeMachine [0x00, 0x20]
    let events := fun (p : Params) => rmwEvents p 0 .pwm 0x00 ++
      ((List.range ((255 : Byte).toNat + 1)).map (BitVec.ofNat 8)).flatMap
        (fun x => [wrote p (dutyReg 0) x, .delay ⟨(9 : BitVec 32).toNat / (255 : Byte).toNat, .ms⟩]) ++
      (if (255 : Byte) = 255 then rmwEvents p 0 .on 0x20 else [])
    let transactions := 2 + ((255 : Byte).toNat + 1) + (if (255 : Byte) = 255 then 2 else 0)
    (u (oks 260)).statusIn = List.replicate transactions true ++ [] ∧
    answersAll (u (oks 260)) (events (u []).params) [] ∧
    259 < transactions ∧ (u (oks 259 ++ [false])).statusIn = List.replicate 259 true ++ false :: [] := by
  refine ⟨by rw [List.append_nil]; rfl, ?_, by decide, rfl⟩
  refine (answersAll_append _ _ _ _ []).2 ⟨[0x20], ?_, ⟨_, .inl ⟨rfl, rfl⟩, rfl⟩⟩
  refine (answersAll_append _ _ _ _ []).2 ⟨[0x20], ⟨_, .inl ⟨rfl, rfl⟩, rfl⟩, ?_⟩
  rw [answersAll_of_no_read]
  · simp only [happened]
  · intro e he
    simp only [List.mem_flatMap, List.mem_cons, List.not_mem_nil, or_false] at he
    obtain ⟨x, -, rfl | rfl⟩ := he <;> simp [wrote]

theorem witness_FadeinEndState :
    let s := machine [] (oks 4)
    s.seq = .idle ∧ s.params.oracle = .registerFile ∧ (1 : Byte) ≠ 0 ∧
    s.statusIn = List.replicate (2 + ((1 : Byte).toNat + 1) + (if (1 : Byte) = 255 then 2 else 0)) true ++ [] := by
  decide

/-- Clause by clause; FADEOUT's at the boundary, the start duty equal to the target, by a read that succeeds and by one that
fails under Continue. -/
theorem witness_PreconditionsRaise :
    let s := machine [(0x04, 0x0A)] [true]
    let u := continueMachine [0x0A] [false]
    ((machine [] []).seq = .idle) ∧ ((0 : BitVec 16) = 0 ∨ (200 : BitVec 16) = 0) ∧
    (s.seq = .idle ∧ s.statusIn = true :: [] ∧ answers s (dutyReg 2) 0x0A [] ∧
      (0x0A : Byte).toNat ≤ (0x0A : Byte).toNat) ∧
    (u.seq = .idle ∧ u.statusIn = false :: [] ∧ u.params.busFail = .continue_ ∧ u.readIn = 0x0A :: []) ∧
    ((machine [] [false]).statusIn = false :: [] ∧ (machine [] [false]).params.busFail = .abort) :=
  ⟨rfl, .inl rfl, ⟨rfl, rfl, .inr ⟨rfl, by decide, rfl⟩, le_refl _⟩, by decide, by decide⟩

/-- From duty 1 to 0: under either oracle; under Abort the first read, a write in mid-ramp and the closing write failing; under
Continue the first read failing, and the closing write. -/
theorem witness_FadeoutCompletes :
    let s := freeMachine [0x01, 0x20]
    let u := machine [(0x02, 0x01), (0x0C, 0x20)]
    let some := [false, true, true, true, false]
    let v := continueMachine [0x01, 0x20] some
    let events := fun (p : Params) => [.memRead p.devAddr (dutyReg 0) true (.some 0x01)] ++
      (if p.fadeoutSetsPwm then rmwEvents p 0 .pwm 0x00 else []) ++
      ((List.range ((1 : Byte).toNat - (0 : Byte).toNat + 1)).map (fun j => BitVec.ofNat 8 ((1 : Byte).toNat - j))).flatMap
        (fun x => [wrote p (dutyReg 0) x,
          .delay ⟨(9 : BitVec 32).toNat / ((1 : Byte).toNat - (0 : Byte).toNat), .ms⟩]) ++
      (if (0 : Byte) = 0 then rmwEvents p 0 .off 0x20 else [])
    let transactions := 1 + (if params.fadeoutSetsPwm then 2 else 0) + ((1 : Byte).toNat - (0 : Byte).toNat + 1) +
      (if (0 : Byte) = 0 then 2 else 0)
    (∀ l, (s l).seq = .idle ∧ (s l).params.busFail = .abort ∧ (0 : Byte).toNat < (1 : Byte).toNat) ∧
    ((s (oks 5)).statusIn = List.replicate transactions true ++ [] ∧ answersAll (s (oks 5)) (events (s []).params) []) ∧
    ((u (oks 5)).statusIn = List.replicate transactions true ++ [] ∧ answersAll (u (oks 5)) (events params) []) ∧
    ((s [false]).statusIn = List.replicate 0 true ++ false :: [] ∧
      answersAll (s [false]) (failedAt (events (s []).params) 0) [0x01, 0x20]) ∧
    ((s (oks 2 ++ [false])).statusIn = List.replicate 2 true ++ false :: [] ∧
      answersAll (s (oks 2 ++ [false])) (failedAt (events (s []).params) 2) [0x20]) ∧
    (4 < transactions ∧ (u (oks 4 ++ [false])).statusIn = List.replicate 4 true ++ false :: [] ∧
      answersAll (u (oks 4 ++ [false])) (failedAt (events params) 4) []) ∧
    (v.seq = .idle ∧ v.params.busFail = .continue_ ∧ some.length = transactions ∧ v.statusIn = some ++ [] ∧
      answersAll v (withStatuses (events v.params) some) []) :=
  ⟨fun _ => ⟨rfl, rfl, by decide⟩, ⟨by decide, _, .inl ⟨rfl, rfl⟩, _, .inl ⟨rfl, rfl⟩, rfl⟩,
    ⟨by decide, _, .inr ⟨rfl, by decide, rfl⟩, _, .inr ⟨rfl, by decide, rfl⟩, rfl⟩,
    ⟨by decide, rfl⟩, ⟨by decide, _, .inl ⟨rfl, rfl⟩, rfl⟩,
    ⟨by decide, by decide, _, .inr ⟨rfl, by decide, rfl⟩, _, .inr ⟨rfl, by decide, rfl⟩, rfl⟩,
    rfl, rfl, by decide, rfl, _, rfl, _, .inl ⟨rfl, rfl⟩, rfl⟩

/-- With FADEOUT_SETS_PWM, from 255 to 254. -/
theorem witness_FadeoutCompletes_setsPwm :
    let u := { freeMachine [0xFF, 0x10] (oks 5) with
      params := { params with oracle := .transport, fadeoutSetsPwm := true } }
    let p := u.params
    u.seq = .idle ∧ (254 : Byte).toNat < (255 : Byte).toNat ∧
    u.statusIn = List.replicate (1 + (if p.fadeoutSetsPwm then 2 else 0) + ((255 : Byte).toNat - (254 : Byte).toNat + 1) +
      (if (254 : Byte) = 0 then 2 else 0)) true ++ [] ∧
    answersAll u
      ([.memRead p.devAddr (dutyReg 0) true (some 0xFF)] ++ (if p.fadeoutSetsPwm then rmwEvents p 0 .pwm 0x10 else []) ++
        ((List.range ((255 : Byte).toNat - (254 : Byte).toNat + 1)).map
          (fun j => BitVec.ofNat 8 ((255 : Byte).toNat - j))).flatMap
          (fun x => [wrote p (dutyReg 0) x,
            .delay ⟨(9 : BitVec 32).toNat / ((255 : Byte).toNat - (254 : Byte).toNat), .ms⟩]) ++
        (if (254 : Byte) = 0 then rmwEvents p 0 .off 0x00 else [])) [] :=
  ⟨rfl, by decide, by decide, _, .inl ⟨rfl, rfl⟩, _, .inl ⟨rfl, rfl⟩, rfl⟩

theorem witness_FadeoutEndState :
    let s := machine [(0x02, 0x01)] (oks 5)
    s.seq = .idle ∧ s.params.oracle = .registerFile ∧ chipHolds s (dutyReg 0).toNat = 1 ∧ (0 : Byte).toNat < (1 : Byte).toNat ∧
    s.statusIn = List.replicate (1 + (if s.params.fadeoutSetsPwm then 2 else 0) + ((1 : Byte).toNat - (0 : Byte).toNat + 1) +
      (if (0 : Byte) = 0 then 2 else 0)) true ++ [] := by decide

/-- A FADEIN and a FADEOUT that end with status OK; and the two FADEINs with their operands given. -/
theorem witness_RampTotalDelay :
    let s := freeMachine [0x00, 0x20]
    let u := freeMachine [0x01, 0x20] (oks 5)
    (u.seq = .idle ∧ ∃ t, exec (.fadeout 0 0 9) u = .next t ∧ t.status = 0) ∧
    ((s (oks 8)).seq = .idle ∧ ∃ t, exec (.fadein 0 5 10) (s (oks 8)) = .next t ∧ t.status = 0) ∧
    ((s (oks 260)).seq = .idle ∧ ∃ t, exec (.fadein 0 255 1000) (s (oks 260)) = .next t ∧ t.status = 0) :=
  ⟨⟨rfl, _, rfl, by decide⟩, ⟨rfl, _, rfl, by decide⟩, rfl, _, rfl, by decide +kernel⟩

theorem witness_CfgspeedCompletes :
    (machine [] []).seq = .idle ∧ (1 : BitVec 16) ≠ 0 ∧ (65535 : BitVec 16) ≠ 0 := by decide

/-- Unconfigured; and configured with the index just out of range. -/
theorem witness_MoveChecksComeFirst :
    ((machine [] []).seq = .idle ∧ (1 : BitVec 32) ≠ 0 ∧ (machine [] []).speed = none) ∧
    ((configuredMachine 200 200 [] []).speed = some ⟨200, 5000⟩ ∧
      (200 : BitVec 16).toNat ≤ (configuredMachine 200 200 [] []).currentStepIndex.toNat) := by decide

theorem witness_ZeroCountMoveCompletes : (machine [] []).seq = .idle := rfl

/-- The last index in range and the most negative count. -/
theorem witness_MoveEntersItsLoop :
    let s := configuredMachine 200 199 [] []
    s.seq = .idle ∧ (0x80000000 : BitVec 32) ≠ 0 ∧ s.speed = some ⟨200, 5000⟩ ∧
    s.currentStepIndex.toNat < (200 : BitVec 16).toNat := by decide

theorem witness_PollNotDueWaits :
    let s := loopMachine 2 [4999] []
    atLoopHead s 0 1 2 3 2 0 ∧ s.stepsRemaining ≠ 0 ∧ s.speed = some ⟨200, 5000⟩ ∧ s.clockIn = 4999 :: [] ∧
    4999 < 2 ^ s.params.clockBits ∧ elapsed s.params.clockBits 4999 s.lastStepTimestamp < (5000 : BitVec 32).toNat :=
  ⟨rfl, by decide⟩

/-- The last step of a move and one before the last; under Continue, two phase writes failing. -/
theorem witness_DueStepWritesThePhase :
    let s := loopMachine 1 [5000] (oks 4)
    let u := loopMachine 2 [5000] (oks 4)
    let v := { loopMachine 2 [5000] [false, true, true, false] with params := { params with busFail := .continue_ } }
    (atLoopHead s 0 1 2 3 2 0 ∧ s.stepsRemaining ≠ 0 ∧ s.speed = some ⟨200, 5000⟩ ∧ s.clockIn = 5000 :: [] ∧
      5000 < 2 ^ s.params.clockBits ∧ (5000 : BitVec 32).toNat ≤ elapsed s.params.clockBits 5000 s.lastStepTimestamp ∧
      s.params.phaseWriteOp = .dutyOnly ∧ s.statusIn = true :: true :: true :: true :: []) ∧
    (atLoopHead u 0 1 2 3 2 0 ∧ u.stepsRemaining ≠ 1) ∧
    (atLoopHead v 0 1 2 3 2 0 ∧ v.stepsRemaining ≠ 0 ∧ v.clockIn = 5000 :: [] ∧ v.params.phaseWriteOp = .dutyOnly ∧
      v.params.busFail = .continue_ ∧ v.statusIn = [false, true, true, false] ++ []) :=
  ⟨⟨rfl, by decide⟩, ⟨rfl, by decide⟩, rfl, by decide⟩

/-- Under either oracle; under Continue, the first read and the last duty write failing. -/
theorem witness_DueStepSetsPwmFirst :
    let s := pwmLoopMachine [0x00, 0x02, 0x0A, 0x2A] (oks 12)
    let u := { pwmLoopMachine [] (oks 12) with
      chip := [(0x0C, 0x00)]
      params := { params with phaseWriteOp := .setPwm } }
    let some := false :: (oks 10 ++ [false])
    let v := { pwmLoopMachine [0x00, 0x02, 0x0A, 0x2A] some with
      params := { params with oracle := .transport, phaseWriteOp := .setPwm, busFail := .continue_ } }
    let ph := phaseOf (nextIndex .forward 200 199)
    let events := fun (p : Params) => phasePwmEvents p .forward ph 0 1 2 3
    (atLoopHead s 0 1 2 3 2 0 ∧ s.stepsRemaining ≠ 0 ∧ s.speed = .some ⟨200, 5000⟩ ∧ s.clockIn = 5000 :: [] ∧
      5000 < 2 ^ s.params.clockBits ∧ (5000 : BitVec 32).toNat ≤ elapsed s.params.clockBits 5000 s.lastStepTimestamp ∧
      s.params.phaseWriteOp = .setPwm ∧ s.statusIn = List.replicate 12 true ++ []) ∧
    (s.direction = .forward ∧ s.currentStepIndex = 199 ∧ answersAll s (events s.params 0x00 0x02 0x0A 0x2A) []) ∧
    (atLoopHead u 0 1 2 3 2 0 ∧ u.statusIn = List.replicate 12 true ++ [] ∧
      answersAll u (events u.params 0x00 0x02 0x0A 0x2A) []) ∧
    (atLoopHead v 0 1 2 3 2 0 ∧ v.params.busFail = .continue_ ∧ some.length = 12 ∧ v.statusIn = some ++ [] ∧
      answersAll v (withStatuses (events v.params 0x00 0x02 0x0A 0x2A) some) []) :=
  ⟨⟨rfl, by decide⟩,
    ⟨rfl, rfl, _, .inl ⟨rfl, rfl⟩, _, .inl ⟨rfl, rfl⟩, _, .inl ⟨rfl, rfl⟩, _, .inl ⟨rfl, rfl⟩, rfl⟩,
    ⟨rfl, by decide, _, .inr ⟨rfl, by decide, rfl⟩, _, .inr ⟨rfl, by decide, rfl⟩, _, .inr ⟨rfl, by decide, rfl⟩,
      _, .inr ⟨rfl, by decide, rfl⟩, rfl⟩,
    rfl, rfl, rfl, rfl, _, rfl, _, .inl ⟨rfl, rfl⟩, _, .inl ⟨rfl, rfl⟩, _, .inl ⟨rfl, rfl⟩, rfl⟩

/-- With DutyOnly, and with SetPwm. -/
theorem witness_SingleStepMoveCompletes :
    let s := configuredMachine 200 199 [5000] (oks 4)
    let u := { configuredMachine 200 199 [5000] (oks 12) with
      chip := [(0x0C, 0x00)]
      params := { params with phaseWriteOp := .setPwm } }
    (s.seq = .idle ∧ s.speed = some ⟨200, 5000⟩ ∧ s.currentStepIndex.toNat < (200 : BitVec 16).toNat ∧
      s.clockIn = 5000 :: [] ∧ 5000 < 2 ^ s.params.clockBits ∧
      (5000 : BitVec 32).toNat ≤ elapsed s.params.clockBits 5000 s.lastStepTimestamp ∧
      s.params.phaseWriteOp = .dutyOnly ∧ s.statusIn = true :: true :: true :: true :: []) ∧
    (u.seq = .idle ∧ u.params.phaseWriteOp = .setPwm ∧ u.statusIn = List.replicate 12 true ++ [] ∧
      answersAll u (phasePwmEvents u.params .forward (phaseOf (nextIndex .forward 200 199)) 0 1 2 3 0x00 0x02 0x0A 0x2A)
        []) :=
  ⟨by decide, rfl, rfl, by decide, _, .inr ⟨rfl, by decide, rfl⟩, _, .inr ⟨rfl, by decide, rfl⟩,
    _, .inr ⟨rfl, by decide, rfl⟩, _, .inr ⟨rfl, by decide, rfl⟩, rfl⟩

/-- With DutyOnly the first and the last role's write failing; with SetPwm a mode read, a mode write and the last duty write. -/
theorem witness_PhaseWriteFailure :
    let s := loopMachine 2 [5000] [false]
    let u := loopMachine 2 [5000] [true, true, true, false]
    let v := pwmLoopMachine [0x00, 0x02, 0x0A, 0x2A]
    let events := phasePwmEvents (v []).params .forward (phaseOf (nextIndex .forward 200 199)) 0 1 2 3 0x00 0x02 0x0A 0x2A
    (atLoopHead s 0 1 2 3 2 0 ∧ s.statusIn = List.replicate (0 : Fin 4).val true ++ false :: [] ∧
      s.params.busFail = .abort ∧ s.params.phaseWriteOp = .dutyOnly ∧ s.stepsRemaining ≠ 0 ∧ s.clockIn = 5000 :: [] ∧
      (5000 : BitVec 32).toNat ≤ elapsed s.params.clockBits 5000 s.lastStepTimestamp) ∧
    (atLoopHead u 0 1 2 3 2 0 ∧ u.statusIn = List.replicate (3 : Fin 4).val true ++ false :: []) ∧
    (∀ l, atLoopHead (v l) 0 1 2 3 2 0 ∧ (v l).params.busFail = .abort ∧ (v l).params.phaseWriteOp = .setPwm ∧
      (v l).clockIn = 5000 :: []) ∧
    ((v [false]).statusIn = List.replicate (0 : Fin 12).val true ++ false :: [] ∧
      answersAll (v [false]) (failedAt events 0) [0x00, 0x02, 0x0A, 0x2A]) ∧
    ((v [true, false]).statusIn = List.replicate (1 : Fin 12).val true ++ false :: [] ∧
      answersAll (v [true, false]) (failedAt events 1) [0x02, 0x0A, 0x2A]) ∧
    ((v (oks 11 ++ [false])).statusIn = List.replicate (11 : Fin 12).val true ++ false :: [] ∧
      answersAll (v (oks 11 ++ [false])) (failedAt events 11) []) :=
  ⟨⟨rfl, by decide⟩, ⟨rfl, by decide⟩, fun _ => ⟨rfl, rfl, rfl, rfl⟩, ⟨by decide, rfl⟩,
    ⟨by decide, _, .inl ⟨rfl, rfl⟩, rfl⟩,
    by decide, _, .inl ⟨rfl, rfl⟩, _, .inl ⟨rfl, rfl⟩, _, .inl ⟨rfl, rfl⟩, _, .inl ⟨rfl, rfl⟩, rfl⟩

theorem witness_StepIndexWraps :
    (0 : BitVec 16).toNat < (1 : BitVec 16).toNat ∧ (65534 : BitVec 16).toNat < (65535 : BitVec 16).toNat := by decide

/-- Clause by clause: a multiple of 4; the smallest and the largest count that is none; the last step before each wrap. -/
theorem witness_PhaseContinuity :
    ((3 : BitVec 16).toNat < (4 : BitVec 16).toNat ∧ (4 : BitVec 16).toNat % 4 = 0) ∧
    ((1 : BitVec 16).toNat % 4 ≠ 0 ∧ (65535 : BitVec 16).toNat % 4 ≠ 0) ∧
    ((4 : BitVec 16).toNat < (6 : BitVec 16).toNat ∧ (4 : BitVec 16).toNat + 1 ≠ (6 : BitVec 16).toNat) ∧
    ((1 : BitVec 16).toNat < (6 : BitVec 16).toNat ∧ (1 : BitVec 16) ≠ 0) ∧
    (0 : BitVec 16).toNat < 1 ∧ (1 : BitVec 16).toNat < 2 := by decide

/-- A wrapped clock: 0x388 against 0xFFFFF000. -/
theorem witness_ElapsedIsModular : 0x388 < 2 ^ 32 ∧ 0xFFFFF000 < 2 ^ 32 ∧ elapsed 32 0x388 0xFFFFF000 = 5000 := by decide

theorem witness_StepsAreSpaced :
    let s := loopMachine 2 [5000] (oks 4)
    atLoopHead s 0 1 2 3 2 0 ∧ s.stepsRemaining ≠ 0 ∧ s.speed = some ⟨200, 5000⟩ ∧
    ∃ t, exec (.move 0 1 2 3 2) s = .next t ∧ t.stepsRemaining ≠ s.stepsRemaining :=
  ⟨rfl, by decide, by decide, _, rfl, by decide⟩

theorem witness_MovePollsWhileNotDue :
    let s := loopMachine 2 [1, 4999] []
    atLoopHead s 0 1 2 3 2 0 ∧ s.stepsRemaining ≠ 0 ∧ s.speed = some ⟨200, 5000⟩ ∧ 2 ≤ s.clockIn.length ∧
    ∀ now ∈ s.clockIn, now < 2 ^ s.params.clockBits ∧
      elapsed s.params.clockBits now s.lastStepTimestamp < (5000 : BitVec 32).toNat := ⟨rfl, by decide⟩

theorem witness_MoveIndexLaw :
    let s := { configuredMachine 200 0 [5000] (oks 4) with cmdIn := [encode (.move 0 1 2 3 (-1))] }
    s.seq = .idle ∧ (-1 : BitVec 32) ≠ 0 ∧ s.speed = some ⟨200, 5000⟩ ∧
    s.currentStepIndex.toNat < (200 : BitVec 16).toNat ∧
    ∃ t : State, Host.Core.run Sys2Proof.core 1 s = .next t ∧ t.seq = .idle ∧ t.status = 0 :=
  ⟨rfl, by decide, by decide, by decide, _, rfl, by decide, by decide⟩

theorem witness_BeginSequence :
    (machine [] (oks 2)).seq = .idle ∧ (machine [] (oks 2)).statusIn = true :: true :: [] ∧
    ((machine [] [false]).statusIn = false :: [] ∧ (machine [] [false]).params.busFail = .abort) ∧
    (machine [] [true, false]).statusIn = true :: false :: [] ∧
    ((continueMachine [] [false, true]).params.busFail = .continue_ ∧
      (continueMachine [] [false, true]).statusIn = [false, true] ++ []) := by decide

theorem witness_SwresetSequence :
    (machine [] [true]).seq = .idle ∧ (machine [] [true]).statusIn = true :: [] ∧
    ((machine [] [false]).statusIn = false :: [] ∧ (machine [] [false]).params.busFail = .abort) ∧
    ((continueMachine [] [false]).statusIn = false :: [] ∧ (continueMachine [] [false]).params.busFail = .continue_) := by
  decide

theorem witness_StepperFrame :
    (machine [] (oks 3)).seq = .idle ∧ ∃ t, exec (.turnon 7) (machine [] (oks 3)) = .next t := ⟨rfl, _, rfl⟩

theorem witness_StepperCommandsFrame :
    (∃ t, exec (.cfgspeed 60 200) (machine [] []) = .next t) ∧
    ∃ t, exec (.move 0 1 2 3 2) (loopMachine 2 [5000] (oks 4)) = .next t := ⟨⟨_, rfl⟩, _, rfl⟩

theorem witness_EnablePinFrame :
    seqInv (machine [] (oks 2)) ∧ (∃ t, exec .begin (machine [] (oks 2)) = .next t) ∧
    ∃ t, exec .swreset (machine [] (oks 2)) = .next t := ⟨.inl rfl, ⟨_, rfl⟩, _, rfl⟩

/-- Register 0x0C, which WRITEDUTY does not store to. -/
theorem witness_ChipFrame :
    let s := machine [(0x0C, 0x55)] (oks 1)
    (seqInv s ∧ (∃ t, exec (.writeduty 7 1) s = .next t) ∧ Instr.writeduty 7 1 ≠ .begin ∧
      Instr.writeduty 7 1 ≠ .swreset ∧ ∀ r ∈ storeTargets s.params (.writeduty 7 1), r.toNat ≠ 0x0C) ∧
    (∃ t, exec .begin (machine [(0x0C, 0x55)] (oks 2)) = .next t) ∧ ∃ t, exec .swreset s = .next t :=
  ⟨⟨.inl rfl, ⟨_, rfl⟩, by decide, by decide, by decide⟩, ⟨_, rfl⟩, _, rfl⟩

theorem witness_ParametersAndTraceFrame : ∃ t, exec .begin (machine [] (oks 2)) = .next t := ⟨_, rfl⟩

theorem witness_ErrorsLeaveStateUnchanged :
    let s := machine [(0x0C, 0x0C)] (oks 1)
    s.seq = .idle ∧ ∃ t, exec (.getmode 1) s = .next t ∧
      t.trace.getLast? = some (.raised .invalidChannelState 1) ∧ t.seq = .idle ∧
      ErrorKind.invalidChannelState ≠ .busTransportFailure := ⟨rfl, _, rfl, by decide, by decide, by decide⟩

theorem witness_ContinueNeverRaisesBusFailure :
    let s := continueMachine [0x00] [false, false, false]
    seqInv s ∧ s.params.busFail = .continue_ ∧ ∃ t, exec (.turnon 5) s = .next t := ⟨.inl rfl, rfl, _, rfl⟩

theorem witness_StepKeepsInvariant :
    Inv (loopMachine 2 [4999] []) ∧ ∃ t, step (loopMachine 2 [4999] []) = .next t := ⟨loopMachine_inv, _, rfl⟩

theorem witness_StepStaysOnRegisterMap :
    let s := { machine [(0x0C, 0x55)] [true] with
      trace := [.busInit, .raised .divisionPrecondition 0]
      cmdIn := [0x0F] }
    Inv s ∧ traceOnMap s ∧ ∃ t, step s = .next t :=
  ⟨{ machine_inv with }, by unfold traceOnMap; decide, _, rfl⟩

theorem witness_StepKeepsResponse :
    let s := { machine [] [] with trace := [.responded 0], cmdIn := [0x0E] }
    responseInv s ∧ ∃ t, step s = .next t := ⟨fun _ => ⟨rfl, rfl⟩, _, rfl⟩

theorem witness_StepAlwaysAnswers : Inv (machine [(0x0C, 0x55)] [true]) := machine_inv

end Sys2Proof.Tests
end

section
/-! The block's scope (00_scope.md): what no command touches, and the trace that every command only lengthens. -/

namespace Sys2Proof.Machine

open Sys2Proof

/-! ## The registers a command writes before its first micro-operation -/

/-- CFGSPEED's register writes (R107) are within the stepper. -/
theorem configured_frame (speed steps : BitVec 16) (s : State) :
    (configured speed steps s).params = s.params ∧ (configured speed steps s).cmdIn = s.cmdIn ∧
    (configured speed steps s).trace = s.trace := by
  unfold configured
  split <;> exact ⟨rfl, rfl, rfl⟩

/-- MOVE's register writes before its loop (R108) are within the stepper. -/
theorem moveStarted_frame (cnt : BitVec 32) (s : State) :
    (moveStarted cnt s).params = s.params ∧ (moveStarted cnt s).cmdIn = s.cmdIn ∧
    (moveStarted cnt s).trace = s.trace := by
  unfold moveStarted
  split <;> exact ⟨rfl, rfl, rfl⟩

theorem commandStart_frame (i : Instr) (s : State) :
    (commandStart i s).params = s.params ∧ (commandStart i s).cmdIn = s.cmdIn ∧
    (commandStart i s).trace = s.trace := by
  cases i with
  | cfgspeed speed steps => exact configured_frame speed steps s
  | move p1 p2 p3 p4 cnt => exact moveStarted_frame cnt s
  | _ => exact ⟨rfl, rfl, rfl⟩

/-! ## Every command -/

/-- Settles O53, by the three things a command that answers can have done (`exec_next`): run its script from its start
state, be found ill-formed, or go on with the script it stands in. -/
theorem parametersAndTraceFrame : Obligations.ParametersAndTraceFrame := by
  intro i s t h
  obtain ⟨-, -, rfl⟩ | ⟨-, -, rfl⟩ | ⟨op, rest, k, -, rfl⟩ := exec_next h
  · obtain ⟨hparams, hcmd, htrace⟩ := commandStart_frame i s
    obtain ⟨gparams, gcmd, -, events, gtrace⟩ :=
      runFrom_frame (encode i) (commandScript i s) 0 (commandStart i s)
    exact ⟨gparams.trans hparams, gcmd.trans hcmd, events, by rw [gtrace, htrace]⟩
  · exact ⟨rfl, rfl, _, raise_trace _ _ _⟩
  · obtain ⟨gparams, gcmd, -, gtrace⟩ := runFrom_frame (encode i) (op :: rest) k s
    exact ⟨gparams, gcmd, gtrace⟩

end Sys2Proof.Machine
end

section
/-! What one micro-operation can do, said once: what it leaves alone and how it leaves the sequencer (R14, R15), what the
poll can do (R108, R110), and which micro-operations scripts are made of. -/

namespace Sys2Proof.Machine

open Sys2Proof Sys2Proof.Config

/-! ## What a micro-operation leaves alone -/

/-- `t` differs from `s` at most in what is known of the chip, the transport's inputs, the trace, the host's commands
and the sequencer's position; a canonical register file stays canonical. -/
structure KeepsControl (s t : State) : Prop where
  stepper : sameStepper s t
  clockIn : t.clockIn = s.clockIn
  params : t.params = s.params
  status : t.status = s.status
  data : t.data = s.data
  en : t.en = s.en
  chip : s.chip.wf → t.chip.wf

theorem sameStepper_refl (s : State) : sameStepper s s := ⟨rfl, rfl, rfl, rfl, rfl⟩

theorem sameStepper_trans {s t u : State} (h : sameStepper s t) (h' : sameStepper t u) : sameStepper s u := by
  obtain ⟨hspeed, hremaining, hindex, hdirection, hstamp⟩ := h
  obtain ⟨hspeed', hremaining', hindex', hdirection', hstamp'⟩ := h'
  exact ⟨hspeed'.trans hspeed, hremaining'.trans hremaining, hindex'.trans hindex, hdirection'.trans hdirection,
    hstamp'.trans hstamp⟩

theorem KeepsControl.refl (s : State) : KeepsControl s s := ⟨sameStepper_refl s, rfl, rfl, rfl, rfl, rfl, id⟩

theorem KeepsControl.trans {s t u : State} (h : KeepsControl s t) (h' : KeepsControl t u) : KeepsControl s u where
  stepper := sameStepper_trans h.stepper h'.stepper
  clockIn := h'.clockIn.trans h.clockIn
  params := h'.params.trans h.params
  status := h'.status.trans h.status
  data := h'.data.trans h.data
  en := h'.en.trans h.en
  chip := h'.chip ∘ h.chip

theorem KeepsControl.emit {s t : State} (h : KeepsControl s t) (e : Event) : KeepsControl s (emit e t) :=
  h.trans ⟨sameStepper_refl t, rfl, rfl, rfl, rfl, rfl, id⟩

theorem KeepsControl.popStatus (s : State) : KeepsControl s (popStatus s) := by
  constructor <;> simp [sameStepper]

theorem KeepsControl.popByte {s t : State} (h : KeepsControl s t) : KeepsControl s (popByte t) :=
  h.trans (by constructor <;> simp [sameStepper])

theorem KeepsControl.popAnswer {s t : State} (h : KeepsControl s t) : KeepsControl s (popAnswer t) :=
  h.trans (by constructor <;> simp [sameStepper])

theorem KeepsControl.storeReg {s t : State} (h : KeepsControl s t) (a v : Byte) : KeepsControl s (storeReg a v t) :=
  h.trans ⟨sameStepper_refl t, rfl, rfl, rfl, rfl, rfl, storeReg_wf a v⟩

theorem KeepsControl.forgetReg {s t : State} (h : KeepsControl s t) (a : Byte) : KeepsControl s (forgetReg a t) :=
  h.trans ⟨sameStepper_refl t, rfl, rfl, rfl, rfl, rfl, forgetReg_wf a⟩

theorem KeepsControl.forgetChip {s t : State} (h : KeepsControl s t) : KeepsControl s (forgetChip t) :=
  h.trans ⟨sameStepper_refl t, rfl, rfl, rfl, rfl, rfl, fun _ => Memory.wf_nil⟩

theorem KeepsControl.forgetBesideInit (s : State) : KeepsControl s (forgetBesideInit s) :=
  ⟨sameStepper_refl s, rfl, rfl, rfl, rfl, rfl, forgetBesideInit_wf⟩

theorem KeepsControl.busEffect {s t : State} (h : KeepsControl s t) (dev : DevAddr) (bytes : List Byte) (ok : Bool) :
    KeepsControl s (busEffect dev bytes ok t) := by
  unfold Machine.busEffect
  split
  · exact h.forgetChip
  split
  · split
    · split
      · exact h.storeReg _ _
      · exact h.forgetReg _
    · exact h.forgetChip
  · exact h.forgetChip

/-! ## How a micro-operation leaves the sequencer -/

/-- The positions a micro-operation can go on at, `rest` being those after it. -/
def followsOp (pr : Params) (op : MicroOp) (rest pos : List MicroOp) : Prop :=
  match op with
  | .read _ next => ∃ b, pos = afterRead pr next b ++ rest
  | .respond _ => False
  | .raise _ _ => False
  | _ => pos = rest

/-- From registers as in `t` the micro-operation `op` of command `cmd` responds, raises, or goes on. -/
inductive Leaves (pr : Params) (op : MicroOp) (cmd : Word) (rest : List MicroOp) (t : State) : State → Prop where
  | responds (data : Byte) : Leaves pr op cmd rest t (respond data t)
  | raises (e : ErrorKind) (info : Nat) : Leaves pr op cmd rest t (raise e info t)
  | goesOn {pos : List MicroOp} (h : followsOp pr op rest pos) (k : Nat) : Leaves pr op cmd rest t (goOn cmd pos k t)

/-- A failed transaction raises or goes on, by the policy (R15). -/
theorem leaves_afterFailure {pr : Params} {op : MicroOp} {rest : List MicroOp} (h : followsOp pr op rest rest)
    (cmd : Word) (k : Nat) (t : State) : Leaves pr op cmd rest t (afterFailure cmd rest k t) := by
  unfold afterFailure
  split
  · exact .raises _ _
  · exact .goesOn h _

/-- A bus operation, as the name is used here: it touches neither the clock nor the enable pin. -/
def busOp : MicroOp → Bool
  | .poll _ _ _ _ => false
  | .pinWrite _ => false
  | _ => true

/-- A micro-operation is a bus operation, MOVE's poll, or a pin write. -/
theorem busOp_or_poll_or_pinWrite (op : MicroOp) :
    busOp op = true ∨ (∃ p1 p2 p3 p4, op = .poll p1 p2 p3 p4) ∨ ∃ level, op = .pinWrite level := by
  cases op with
  | poll p1 p2 p3 p4 => exact .inr (.inl ⟨p1, p2, p3, p4, rfl⟩)
  | pinWrite level => exact .inr (.inr ⟨level, rfl⟩)
  | _ => exact .inl rfl

/-- A bus operation changes at most the chip, the transport's inputs and the trace, and then leaves. -/
theorem perform_busOp {op : MicroOp} (hop : busOp op = true) (cmd : Word) (rest : List MicroOp) (k : Nat) (s : State) :
    ∃ t, KeepsControl s t ∧ Leaves s.params op cmd rest t (perform op cmd rest k s) := by
  have hpop := KeepsControl.popStatus s
  cases op with
  | read a next =>
    simp only [perform, chkRead]
    split
    · exact ⟨_, hpop.popAnswer.emit _, .goesOn (by exact ⟨_, rfl⟩) _⟩
    · split
      · exact ⟨_, hpop.emit _, .raises _ _⟩
      · exact ⟨_, hpop.popByte.emit _, .goesOn (by exact ⟨_, rfl⟩) _⟩
  | write a v =>
    simp only [perform, chkWrite]
    split
    · exact ⟨_, (hpop.emit _).storeReg a v, .goesOn (by rfl) _⟩
    · exact ⟨_, (hpop.emit _).forgetReg a, leaves_afterFailure (by rfl) _ _ _⟩
  | busWrite dev bytes =>
    simp only [perform, chkBus]
    split
    · exact ⟨_, (hpop.emit _).busEffect dev bytes _, .goesOn (by rfl) _⟩
    · exact ⟨_, (hpop.emit _).busEffect dev bytes _, leaves_afterFailure (by rfl) _ _ _⟩
  | busInit => exact ⟨_, (KeepsControl.forgetBesideInit s).emit .busInit, .goesOn (by rfl) _⟩
  | delay d => exact ⟨_, (KeepsControl.refl s).emit (.delay d), .goesOn (by rfl) _⟩
  | respond data => exact ⟨s, .refl s, .responds data⟩
  | raise e info => exact ⟨s, .refl s, .raises e info⟩
  | poll p1 p2 p3 p4 => cases hop
  | pinWrite level => cases hop

/-! ## The poll (R108, R110) -/

/-- The state once the clock is sampled. -/
def sampled (s : State) : State := emit (.clockRead (nextClock s)) (popClock s)

theorem sampled_sameStepper (s : State) : sameStepper s (sampled s) := by simp [sampled, sameStepper]

/-- The state once a due step's registers are updated. -/
def stepped (c : Speed) (s : State) : State := advance c (nextClock s) (sampled s)

/-- What the head of MOVE's loop can do: it is left with no step pending, raises unconfigured, waits, or makes the
step. -/
inductive Polled (p1 p2 p3 p4 : Chan) (cmd : Word) (rest : List MicroOp) (k : Nat) (s : State) : State → Prop where
  | left (h : s.stepsRemaining = 0) : Polled p1 p2 p3 p4 cmd rest k s (goOn cmd rest k s)
  | unconfigured (h : s.speed = none) : Polled p1 p2 p3 p4 cmd rest k s (raise .stepperUnconfigured 0 s)
  | waits : Polled p1 p2 p3 p4 cmd rest k s (goOn cmd (.poll p1 p2 p3 p4 :: rest) k (sampled s))
  | steps (c : Speed) (ph : Fin 4) (d : Direction) (hr : s.stepsRemaining ≠ 0) (hc : s.speed = some c) :
    Polled p1 p2 p3 p4 cmd rest k s
      (goOn cmd
        (phaseWrite s.params ph d p1 p2 p3 p4 ++
          (if (stepped c s).stepsRemaining = 0 then rest else .poll p1 p2 p3 p4 :: rest)) k (stepped c s))

theorem perform_poll (p1 p2 p3 p4 : Chan) (cmd : Word) (rest : List MicroOp) (k : Nat) (s : State) :
    Polled p1 p2 p3 p4 cmd rest k s (perform (.poll p1 p2 p3 p4) cmd rest k s) := by
  simp only [perform, pollStep]
  split
  next hr => exact .left hr
  next hr =>
    split
    next hc => exact .unconfigured hc
    next c hc =>
      split
      · exact .waits
      · exact .steps c _ _ hr hc

/-! ## What scripts are made of -/

/-- A plain micro-operation touches neither the clock nor the enable pin. -/
theorem busOp_of_plainOp {op : MicroOp} (h : plainOp op = true) : busOp op = true := by
  cases op with
  | poll p1 p2 p3 p4 => cases h
  | pinWrite level => cases h
  | _ => rfl

theorem all_busOp_of_plainOp {pos : List MicroOp} (h : pos.all plainOp = true) : pos.all busOp = true :=
  List.all_eq_true.mpr fun op hop => busOp_of_plainOp (List.all_eq_true.mp h op hop)

theorem ramp_plain (c : Chan) (i : BitVec 32) (vs : List Byte) : (ramp c i vs).all plainOp = true := by
  simp [ramp, plainOp]

theorem phaseWrite_plain (pr : Params) (ph : Fin 4) (d : Direction) (p1 p2 p3 p4 : Chan) :
    (phaseWrite pr ph d p1 p2 p3 p4).all plainOp = true := by
  unfold phaseWrite
  cases pr.phaseWriteOp <;> rfl

/-- What FADEOUT goes on with is its one error or plain. -/
theorem fadeOutFrom_cases (pr : Params) (c : Chan) (d0 tgt : Byte) (dur : BitVec 32) :
    (∃ info, fadeOutFrom pr c d0 tgt dur = [.raise .divisionPrecondition info]) ∨
    (fadeOutFrom pr c d0 tgt dur).all plainOp = true := by
  unfold fadeOutFrom
  split
  · exact .inl ⟨_, rfl⟩
  · refine .inr ?_
    rw [List.all_append, List.all_append, ramp_plain]
    split <;> split <;> rfl

/-- What follows a read touches neither the clock nor the enable pin. -/
theorem afterRead_busOp (pr : Params) (next : ReadThen) (b : Byte) : (afterRead pr next b).all busOp = true := by
  cases next with
  | replaceField c m => rfl
  | reportMode c => simp only [afterRead]; split <;> rfl
  | reportByte => rfl
  | rampDown c tgt dur =>
    obtain ⟨info, h⟩ | h := fadeOutFrom_cases pr c b tgt dur
    · rw [afterRead, h]; rfl
    · exact all_busOp_of_plainOp h

/-- A script that raises at once, or makes plain micro-operations and responds. -/
inductive PlainScript : List MicroOp → Prop where
  | raises (e : ErrorKind) (info : Nat) : PlainScript [.raise e info]
  | responds {pre : List MicroOp} (h : pre.all plainOp = true) (data : Byte) : PlainScript (pre ++ [.respond data])

theorem PlainScript.busOp {pos : List MicroOp} (h : PlainScript pos) : pos.all busOp = true := by
  cases h with
  | raises e info => rfl
  | responds h data =>
    rw [List.all_append, all_busOp_of_plainOp h]
    rfl

theorem scriptSetmode_plain (ch : Chan) (mode : BitVec 2) (all : Bool) : PlainScript (scriptSetmode ch mode all) := by
  unfold scriptSetmode
  split
  · exact .responds (by split <;> rfl) 0
  · exact .raises _ _

theorem scriptAllon_plain (dp dir : Bool) : PlainScript (scriptAllon dp dir) :=
  .responds (by cases dp <;> cases dir <;> rfl) 0

theorem scriptFadein_plain (ch : Chan) (tgt : Byte) (dur : BitVec 32) : PlainScript (scriptFadein ch tgt dur) := by
  unfold scriptFadein
  split
  · exact .raises _ _
  · refine .responds ?_ 0
    rw [List.all_append, List.all_append, ramp_plain]
    split <;> rfl

theorem scriptCfgspeed_plain (speed steps : BitVec 16) : PlainScript (scriptCfgspeed speed steps) := by
  unfold scriptCfgspeed
  split
  · exact .raises _ _
  · exact .responds (pre := []) rfl 0

end Sys2Proof.Machine
end

section
/-! Steps: what a step that answers has done (R30, R67, R140, R143), the step index (R25, R110) and the state at reset
(R33, R34). -/

namespace Sys2Proof.Machine

open Sys2Proof Sys2Proof.Config

/-! ## Steps -/

/-- What a step that answers has done: waited with nothing presented, run the command presented, found its word illegal,
or gone on with the command held (R30, R67, R140). -/
theorem step_next {s t : State} (h : step s = .next t) :
    (s.seq = .idle ∧ t = s) ∨
    (∃ rest i, s.seq = .idle ∧ exec i { s with cmdIn := rest } = .next t) ∨
    (∃ rest info, s.seq = .idle ∧ t = raise .illegalCommand info { s with cmdIn := rest }) ∨
    (∃ i, s.seq ≠ .idle ∧ exec i s = .next t) := by
  unfold step at h
  split at h
  next hs =>
    split at h
    next => cases h; exact .inl ⟨hs, rfl⟩
    next w rest _ =>
      split at h
      next i _ => exact .inr (.inl ⟨rest, i, hs, h⟩)
      next => cases h; exact .inr (.inr (.inl ⟨rest, _, hs, rfl⟩))
  next hs =>
    split at h
    next i _ => exact .inr (.inr (.inr ⟨i, by simp [hs], h⟩))
    next => cases h

/-- Settles O6, by the decoding each clause gives and, for an ill-formed term, by `runCommand_illegal`. -/
theorem stepRunsDecodedCommand : Obligations.StepRunsDecodedCommand := by
  refine ⟨fun s w rest i hs hw hi => ?_, fun s w pos k i hs hi => ?_, fun s hs hw => ?_, fun i s hi hs => ?_⟩
  · simp [step, hs, hw, hi]
  · simp [step, hs, hi]
  · simp [step, hs, hw]
  · rw [exec_eq_runCommand, runCommand_illegal hs hi, raise_eq]

/-- Settles O7: a Busy sequencer refuses a word that is not the one it holds, and what `exec` keeps of the host's
commands (`parametersAndTraceFrame`) the step keeps. -/
theorem busyAcceptsNoOtherCommand : Obligations.BusyAcceptsNoOtherCommand := by
  refine ⟨fun i s w op rest k hs hw => ?_, fun s t hs h => ?_⟩
  · rw [exec_eq_runCommand]
    simp [runCommand, hs, hw]
  · obtain ⟨hidle, -⟩ | ⟨-, -, hidle, -⟩ | ⟨-, -, hidle, -⟩ | ⟨i, -, hexec⟩ := step_next h
    · exact absurd hidle hs
    · exact absurd hidle hs
    · exact absurd hidle hs
    · obtain ⟨-, hcmd, -⟩ := parametersAndTraceFrame i s t hexec
      exact hcmd

/-! ## The step index -/

/-- The next index forward, as a number (R110). -/
theorem nextIndex_forward_toNat {n i : BitVec 16} (h : i.toNat < n.toNat) :
    (nextIndex .forward n i).toNat = (i.toNat + 1) % n.toNat := by
  have hn := n.isLt
  have hi : (i + 1).toNat = i.toNat + 1 := by rw [BitVec.toNat_add]; simp; omega
  simp only [nextIndex, ← BitVec.toNat_inj, hi]
  split
  next hwrap => simp [hwrap]
  next hwrap => rw [hi, Nat.mod_eq_of_lt (by omega)]

/-- The next index backward, as a number (R110). -/
theorem nextIndex_backward_toNat {n i : BitVec 16} (h : i.toNat < n.toNat) :
    (nextIndex .backward n i).toNat = if i.toNat = 0 then n.toNat - 1 else i.toNat - 1 := by
  have hn := n.isLt
  by_cases hi : i = 0
  · have hnext : nextIndex .backward n i = n - 1 := by simp [nextIndex, hi]
    rw [hnext, if_pos (by simp [hi])]
    bv_omega
  · have hnext : nextIndex .backward n i = i - 1 := by simp only [nextIndex, if_neg hi]
    rw [hnext, if_neg (by bv_omega)]
    bv_omega

/-- Settles O40, by the next index as a number in each direction. -/
theorem stepIndexWraps : Obligations.StepIndexWraps := by
  intro n i h
  refine ⟨by rw [nextIndex_forward_toNat h]; simp, ?_⟩
  rw [nextIndex_backward_toNat h]
  split
  next h0 =>
    rw [h0, ← Int.add_emod_right, Int.emod_eq_of_lt] <;> omega
  next => rw [Int.emod_eq_of_lt] <;> omega

/-- The index stays below the steps per revolution (R25). -/
theorem nextIndex_lt (d : Direction) {n i : BitVec 16} (h : i < n) : nextIndex d n i < n := by
  have hlt : i.toNat < n.toNat := h
  rw [BitVec.lt_def]
  cases d with
  | forward => rw [nextIndex_forward_toNat hlt]; exact Nat.mod_lt _ (by omega)
  | backward => rw [nextIndex_backward_toNat hlt]; split <;> omega

/-! ## Reset -/

theorem example_rotates : PhaseTable.example_.rotates := by decide

theorem phaseTable_rotates : phaseTable.rotates := by
  unfold phaseTable
  split
  · assumption
  · exact example_rotates

/-- `DEV_ADDR` at reset is not the broadcast reset id (D9). -/
theorem devAddr_ne_resetDev : devAddr ≠ resetDev := by
  have hi := devAddrIndex.isLt
  unfold devAddr
  intro h
  rw [← BitVec.toNat_inj] at h
  split at h <;> simp [resetDev] at h <;> omega

theorem config_params_wf : Config.params.wf := ⟨by decide, phaseTable_rotates, devAddr_ne_resetDev⟩

theorem inv_reset : Inv State.reset where
  params := config_params_wf
  chip := reset_chip_wf
  speed := by rintro c ⟨⟩
  remaining := by decide
  timestamp := Nat.mod_lt _ (by decide)
  status := by decide
  data := fun _ => rfl
  pin := by decide
  seq := .inl rfl

/-- Settles O8: each register by its value in `State.reset`; the timestamp is reduced to the clock's width. -/
theorem resetRegisters : Obligations.ResetRegisters :=
  ⟨rfl, rfl, rfl, Nat.mod_lt _ (by decide), rfl, rfl, rfl, rfl, fun _ => rfl⟩

/-- Settles O56: reset has an empty trace and status and data 0, and `inv_reset`. -/
theorem resetMeetsInvariant : Obligations.ResetMeetsInvariant :=
  ⟨inv_reset, by rintro e ⟨⟩, fun _ => ⟨rfl, rfl⟩⟩

end Sys2Proof.Machine
end

section
/-! Frames: which commands touch the stepper registers and the clock (R22 to R27, R35), and the enable pin (R32). -/

namespace Sys2Proof.Machine

open Sys2Proof Sys2Proof.Config

/-! ## What a micro-operation touches -/

theorem Leaves.frame {pr : Params} {op : MicroOp} {cmd : Word} {rest : List MicroOp} {t u : State}
    (h : Leaves pr op cmd rest t u) : sameStepper t u ∧ u.clockIn = t.clockIn ∧ u.en = t.en := by
  cases h <;> exact ⟨sameStepper_refl t, rfl, rfl⟩

/-- A bus operation leaves the stepper registers, the clock and the enable pin. -/
theorem perform_busOp_frame {op : MicroOp} (hop : busOp op = true) (cmd : Word) (rest : List MicroOp) (k : Nat)
    (s : State) : sameStepper s (perform op cmd rest k s) ∧ (perform op cmd rest k s).clockIn = s.clockIn ∧
      (perform op cmd rest k s).en = s.en := by
  obtain ⟨t, hkeep, hleaves⟩ := perform_busOp hop cmd rest k s
  obtain ⟨hstepper, hclock, hen⟩ := hleaves.frame
  exact ⟨sameStepper_trans hkeep.stepper hstepper, hclock.trans hkeep.clockIn, hen.trans hkeep.en⟩

/-- The poll leaves the enable pin. -/
theorem Polled.en {p1 p2 p3 p4 : Chan} {cmd : Word} {rest : List MicroOp} {k : Nat} {s u : State}
    (h : Polled p1 p2 p3 p4 cmd rest k s u) : u.en = s.en := by
  cases h <;> simp [sampled, stepped]

/-- No poll of MOVE's loop head. -/
def clockless (op : MicroOp) : Prop := ∀ p1 p2 p3 p4, op ≠ .poll p1 p2 p3 p4

/-- No write of the enable pin. -/
def pinless (op : MicroOp) : Prop := ∀ level, op ≠ .pinWrite level

theorem clockless_of_busOp {op : MicroOp} (h : busOp op = true) : clockless op := by
  rintro p1 p2 p3 p4 rfl
  cases h

theorem pinless_of_busOp {op : MicroOp} (h : busOp op = true) : pinless op := by
  rintro level rfl
  cases h

/-- What a clockless micro-operation keeps of the stepper registers and the clock (R22 to R27, R35). -/
theorem perform_clockless {op : MicroOp} (hop : clockless op) (cmd : Word) (rest : List MicroOp) (k : Nat) (s : State) :
    sameStepper s (perform op cmd rest k s) ∧ (perform op cmd rest k s).clockIn = s.clockIn := by
  obtain hbus | ⟨p1, p2, p3, p4, rfl⟩ | ⟨level, rfl⟩ := busOp_or_poll_or_pinWrite op
  · obtain ⟨hstepper, hclock, -⟩ := perform_busOp_frame hbus cmd rest k s
    exact ⟨hstepper, hclock⟩
  · exact absurd rfl (hop p1 p2 p3 p4)
  · exact ⟨sameStepper_refl s, rfl⟩

/-- A pinless micro-operation keeps the enable pin (R32). -/
theorem perform_pinless {op : MicroOp} (hop : pinless op) (cmd : Word) (rest : List MicroOp) (k : Nat) (s : State) :
    (perform op cmd rest k s).en = s.en := by
  obtain hbus | ⟨p1, p2, p3, p4, rfl⟩ | ⟨level, rfl⟩ := busOp_or_poll_or_pinWrite op
  · obtain ⟨-, -, hen⟩ := perform_busOp_frame hbus cmd rest k s
    exact hen
  · exact (perform_poll p1 p2 p3 p4 cmd rest k s).en
  · exact absurd rfl (hop level)

/-- What follows a read has every property of bus operations. -/
theorem afterRead_of_busOp {A : MicroOp → Prop} (hA : ∀ op, busOp op = true → A op) (pr : Params) (next : ReadThen)
    (b : Byte) : ∀ op ∈ afterRead pr next b, A op :=
  fun op hop => hA op (List.all_eq_true.mp (afterRead_busOp pr next b) op hop)

/-- The phase writes have every property of bus operations. -/
theorem phaseWrite_of_busOp {A : MicroOp → Prop} (hA : ∀ op, busOp op = true → A op) (pr : Params) (ph : Fin 4)
    (d : Direction) (p1 p2 p3 p4 : Chan) : ∀ op ∈ phaseWrite pr ph d p1 p2 p3 p4, A op :=
  fun op hop => hA op (List.all_eq_true.mp (all_busOp_of_plainOp (phaseWrite_plain pr ph d p1 p2 p3 p4)) op hop)

/-- A script without a poll leaves the stepper registers and the clock. -/
theorem runFrom_clockless {pos : List MicroOp} (hpos : ∀ op ∈ pos, clockless op) (cmd : Word) (k : Nat) (s : State) :
    sameStepper s (runFrom cmd pos k s) ∧ (runFrom cmd pos k s).clockIn = s.clockIn := by
  refine runFrom_keeps_of (P := fun t => sameStepper s t ∧ t.clockIn = s.clockIn) (A := clockless) (pr := s.params)
    (fun _ next b _ => afterRead_of_busOp (fun _ => clockless_of_busOp) _ next b)
    (fun p1 p2 p3 p4 ph d _ => phaseWrite_of_busOp (fun _ => clockless_of_busOp) _ ph d p1 p2 p3 p4)
    (fun _ _ _ _ h => h) (fun _ c rest k t hop _ ⟨hstepper, hclock⟩ => ?_) hpos rfl ⟨sameStepper_refl s, rfl⟩
  obtain ⟨hstepper', hclock'⟩ := perform_clockless hop c rest k t
  exact ⟨sameStepper_trans hstepper hstepper', hclock'.trans hclock⟩

/-- A script without a pin write leaves the enable pin. -/
theorem runFrom_pinless {pos : List MicroOp} (hpos : ∀ op ∈ pos, pinless op) (cmd : Word) (k : Nat) (s : State) :
    (runFrom cmd pos k s).en = s.en :=
  runFrom_keeps_of (P := fun t => t.en = s.en) (A := pinless) (pr := s.params)
    (fun _ next b _ => afterRead_of_busOp (fun _ => pinless_of_busOp) _ next b)
    (fun p1 p2 p3 p4 ph d _ => phaseWrite_of_busOp (fun _ => pinless_of_busOp) _ ph d p1 p2 p3 p4)
    (fun _ _ _ _ h => h) (fun _ c rest k t hop _ h => (perform_pinless hop c rest k t).trans h) hpos rfl rfl

/-- Of all commands MOVE polls and BEGIN writes the pin; the others make bus operations only. -/
theorem commandScript_busOp (i : Instr) (s : State) (hmove : ∀ p1 p2 p3 p4 cnt, i ≠ .move p1 p2 p3 p4 cnt)
    (hbegin : i ≠ .begin) : (commandScript i s).all busOp = true := by
  cases i with
  | setmode ch mode all => exact (scriptSetmode_plain ch mode all).busOp
  | allon dp dir => exact (scriptAllon_plain dp dir).busOp
  | fadein ch tgt dur => exact (scriptFadein_plain ch tgt dur).busOp
  | cfgspeed speed steps => exact (scriptCfgspeed_plain speed steps).busOp
  | move p1 p2 p3 p4 cnt => exact absurd rfl (hmove p1 p2 p3 p4 cnt)
  | begin => exact absurd rfl hbegin
  | _ => rfl

theorem commandScript_clockless (i : Instr) (s : State) (hmove : ∀ p1 p2 p3 p4 cnt, i ≠ .move p1 p2 p3 p4 cnt) :
    ∀ op ∈ commandScript i s, clockless op := by
  by_cases hbegin : i = .begin
  · subst hbegin
    simp [commandScript, scriptBegin, clockless]
  · exact fun op hop => clockless_of_busOp (List.all_eq_true.mp (commandScript_busOp i s hmove hbegin) op hop)

theorem scriptMove_pinless (p1 p2 p3 p4 : Chan) (cnt : BitVec 32) (s : State) :
    ∀ op ∈ scriptMove p1 p2 p3 p4 cnt s, pinless op := by
  unfold scriptMove
  split
  · simp [pinless]
  · split <;> simp [pinless]

theorem commandScript_pinless (i : Instr) (s : State) (hbegin : i ≠ .begin) :
    ∀ op ∈ commandScript i s, pinless op := by
  by_cases hmove : ∀ p1 p2 p3 p4 cnt, i ≠ .move p1 p2 p3 p4 cnt
  · exact fun op hop => pinless_of_busOp (List.all_eq_true.mp (commandScript_busOp i s hmove hbegin) op hop)
  · push Not at hmove
    obtain ⟨p1, p2, p3, p4, cnt, rfl⟩ := hmove
    exact scriptMove_pinless p1 p2 p3 p4 cnt s

/-- Settles O49: an Idle sequencer runs a script without a poll from the state itself, or raises. -/
theorem stepperFrame : Obligations.StepperFrame := by
  intro i s t hidle h hcfg hmove
  obtain ⟨-, -, rfl⟩ | ⟨-, -, rfl⟩ | ⟨op, rest, k, hbusy, -⟩ := exec_next h
  · have hstart : commandStart i s = s := by
      cases i with
      | cfgspeed speed steps => exact absurd rfl (hcfg speed steps)
      | move p1 p2 p3 p4 cnt => exact absurd rfl (hmove p1 p2 p3 p4 cnt)
      | _ => rfl
    rw [hstart]
    exact runFrom_clockless (commandScript_clockless i s hmove) _ _ _
  · exact ⟨sameStepper_refl s, rfl⟩
  · rw [hidle] at hbusy; cases hbusy

theorem commandStart_en (i : Instr) (s : State) : (commandStart i s).en = s.en := by
  cases i with
  | cfgspeed speed steps => simp only [commandStart, configured]; split <;> rfl
  | move p1 p2 p3 p4 cnt => simp only [commandStart, moveStarted]; split <;> rfl
  | _ => rfl

/-- BEGIN drives the pin low first and does not write it again (R117). -/
theorem runFrom_scriptBegin_en (pr : Params) (cmd : Word) (k : Nat) (s : State) :
    (runFrom cmd (scriptBegin pr) k s).en = .low := by
  rw [scriptBegin, runFrom_cons rfl rfl, runFrom_pinless (by simp [pinless])]
  rfl

/-- The words of MOVE and BEGIN differ in the opcode byte (R60, R64). -/
theorem encode_begin_ne_encode_move (p1 p2 p3 p4 : Chan) (cnt : BitVec 32) :
    encode .begin ≠ encode (.move p1 p2 p3 p4 cnt) := by
  intro h
  have hmove := (Laws.OpcodeByte.move p1 p2 p3 p4 cnt).1
  rw [← h, Laws.OpcodeByte.begin.1] at hmove
  cases hmove

/-- Settles O51: from Idle by BEGIN's script and the pinless scripts of the others; at the loop head the command held is a
MOVE, whose rest is pinless. -/
theorem enablePinFrame : Obligations.EnablePinFrame := by
  intro i s t hseq h
  obtain ⟨-, -, rfl⟩ | ⟨-, hill, rfl⟩ | ⟨op, rest, k, hbusy, rfl⟩ := exec_next h
  · refine ⟨fun hbegin => ?_, ?_⟩
    · rw [runFrom_pinless (commandScript_pinless i s hbegin), commandStart_en]
    · rintro rfl
      exact runFrom_scriptBegin_en s.params _ _ _
  · refine ⟨fun _ => rfl, ?_⟩
    rintro rfl
    cases hill
  · obtain hidle | ⟨p1, p2, p3, p4, cnt, n, c, hhead, -⟩ := hseq
    · rw [hidle] at hbusy; cases hbusy
    · rw [atLoopHead, hbusy, Seq.busy.injEq] at hhead
      obtain ⟨hword, hpos, -⟩ := hhead
      refine ⟨fun _ => ?_, ?_⟩
      · rw [hpos, runFrom_pinless (by simp [pinless])]
      · rintro rfl
        exact absurd hword (encode_begin_ne_encode_move p1 p2 p3 p4 cnt)

end Sys2Proof.Machine
end

section
/-! The response registers are those of the last response recorded (R28 to R30, R130). -/

namespace Sys2Proof.Machine

open Sys2Proof Sys2Proof.Config

theorem responseInv_respond (data : Byte) (s : State) : responseInv (respond data s) := by
  simp [responseInv]

theorem responseInv_raise (e : ErrorKind) (info : Nat) (s : State) : responseInv (raise e info s) := by
  simp [responseInv]

theorem responseInv_goOn (cmd : Word) (pos : List MicroOp) (k : Nat) (s : State) : responseInv (goOn cmd pos k s) := by
  rintro ⟨⟩

theorem Leaves.responseInv {pr : Params} {op : MicroOp} {cmd : Word} {rest : List MicroOp} {t u : State}
    (h : Leaves pr op cmd rest t u) : responseInv u := by
  cases h with
  | responds data => exact responseInv_respond data t
  | raises e info => exact responseInv_raise e info t
  | goesOn _ k => exact responseInv_goOn cmd _ k t

theorem Polled.responseInv {p1 p2 p3 p4 : Chan} {cmd : Word} {rest : List MicroOp} {k : Nat} {s u : State}
    (h : Polled p1 p2 p3 p4 cmd rest k s u) : responseInv u := by
  cases h with
  | unconfigured _ => exact responseInv_raise _ _ s
  | _ => exact responseInv_goOn _ _ _ _

/-- A micro-operation that ends its command records the response it sets, whatever stood there before. -/
theorem perform_responseInv (op : MicroOp) (cmd : Word) (rest : List MicroOp) (k : Nat) (s : State) :
    responseInv (perform op cmd rest k s) := by
  obtain hbus | ⟨p1, p2, p3, p4, rfl⟩ | ⟨level, rfl⟩ := busOp_or_poll_or_pinWrite op
  · obtain ⟨t, -, hleaves⟩ := perform_busOp hbus cmd rest k s
    exact hleaves.responseInv
  · exact (perform_poll p1 p2 p3 p4 cmd rest k s).responseInv
  · exact responseInv_goOn _ _ _ _

theorem runFrom_responseInv (cmd : Word) (pos : List MicroOp) (k : Nat) (s : State) :
    responseInv (runFrom cmd pos k s) :=
  runFrom_keeps (P := responseInv) (fun c p n t _ => responseInv_goOn c p n t)
    (fun op c rest n t _ => perform_responseInv op c rest n t) cmd pos k (goOn cmd pos k s)
    (responseInv_goOn cmd pos k s)

/-- Every command that answers leaves the response registers as its response, or is Busy. -/
theorem exec_responseInv {i : Instr} {s t : State} (h : exec i s = .next t) : responseInv t := by
  obtain ⟨-, -, rfl⟩ | ⟨-, -, rfl⟩ | ⟨op, rest, k, -, rfl⟩ := exec_next h
  · exact runFrom_responseInv _ _ _ _
  · exact responseInv_raise _ _ _
  · exact runFrom_responseInv _ _ _ _

/-- Settles O59: a step that waits leaves the state; every other one is a command's (`exec_responseInv`) or raises. -/
theorem stepKeepsResponse : Obligations.StepKeepsResponse := by
  intro s t hs h
  obtain ⟨-, rfl⟩ | ⟨_, i, -, hexec⟩ | ⟨_, info, -, rfl⟩ | ⟨i, -, hexec⟩ := step_next h
  · exact hs
  · exact exec_responseInv hexec
  · exact responseInv_raise _ _ _
  · exact exec_responseInv hexec

end Sys2Proof.Machine
end

section
/-! Every step keeps the invariant: the registers stay in range, and a step ends Idle or at a loop head that is
ready. -/

namespace Sys2Proof.Machine

open Sys2Proof Sys2Proof.Config

/-! ## The registers' ranges (R22 to R24, R27 to R29, R32) -/

/-- The part of `Inv` that speaks of registers and parameters. -/
structure RegistersInv (s : State) : Prop where
  params : s.params.wf
  chip : s.chip.wf
  speed : ∀ c, s.speed = some c → c.numberSteps ≠ 0 ∧ c.stepDelayMicros ≤ usPerMin
  remaining : s.stepsRemaining.toNat ≤ 2 ^ 31
  timestamp : s.lastStepTimestamp < 2 ^ s.params.clockBits
  status : s.status ≤ 6
  data : s.status ≠ statusOk → s.data = 0
  pin : s.en ≠ .high

theorem inv_iff (s : State) : Inv s ↔ RegistersInv s ∧ seqInv s :=
  ⟨fun h => ⟨⟨h.params, h.chip, h.speed, h.remaining, h.timestamp, h.status, h.data, h.pin⟩, h.seq⟩,
   fun ⟨h, hseq⟩ => ⟨h.params, h.chip, h.speed, h.remaining, h.timestamp, h.status, h.data, h.pin, hseq⟩⟩

theorem RegistersInv.keepsControl {s t : State} (h : RegistersInv s) (hk : KeepsControl s t) : RegistersInv t := by
  obtain ⟨hspeed, hremaining, -, -, hstamp⟩ := hk.stepper
  constructor
  case params => rw [hk.params]; exact h.params
  case chip => exact hk.chip h.chip
  case speed => rw [hspeed]; exact h.speed
  case remaining => rw [hremaining]; exact h.remaining
  case timestamp => rw [hstamp, hk.params]; exact h.timestamp
  case status => rw [hk.status]; exact h.status
  case data => rw [hk.status, hk.data]; exact h.data
  case pin => rw [hk.en]; exact h.pin

theorem RegistersInv.withCmdIn {s : State} (h : RegistersInv s) (words : List Word) :
    RegistersInv { s with cmdIn := words } :=
  h.keepsControl ⟨sameStepper_refl s, rfl, rfl, rfl, rfl, rfl, id⟩

theorem RegistersInv.goOn {s : State} (h : RegistersInv s) (cmd : Word) (pos : List MicroOp) (k : Nat) :
    RegistersInv (goOn cmd pos k s) :=
  h.keepsControl ⟨sameStepper_refl s, rfl, rfl, rfl, rfl, rfl, id⟩

theorem RegistersInv.respond {s : State} (h : RegistersInv s) (d : Byte) : RegistersInv (respond d s) :=
  { h with status := (by decide : statusOk ≤ 6), data := fun hne => absurd rfl hne }

/-- The codes of R121 are 1 to 6. -/
theorem statusCode_le (e : ErrorKind) : statusCode e ≤ 6 := by cases e <;> decide

theorem RegistersInv.raise {s : State} (h : RegistersInv s) (e : ErrorKind) (info : Nat) :
    RegistersInv (raise e info s) :=
  { h with status := statusCode_le e, data := fun _ => rfl }

theorem RegistersInv.leaves {pr : Params} {op : MicroOp} {cmd : Word} {rest : List MicroOp} {t u : State}
    (h : RegistersInv t) (hl : Leaves pr op cmd rest t u) : RegistersInv u := by
  cases hl with
  | responds data => exact h.respond data
  | raises e info => exact h.raise e info
  | goesOn _ k => exact h.goOn cmd _ k

theorem RegistersInv.sampled {s : State} (h : RegistersInv s) : RegistersInv (sampled s) := by
  obtain ⟨hparams, hchip, hspeed, hremaining, hstamp, hstatus, hdata, hpin⟩ := h
  constructor <;> simpa [Machine.sampled]

/-- A step that is made keeps the ranges: one fewer remains, and the sample is CLOCK_BITS wide. -/
theorem RegistersInv.stepped {s : State} (h : RegistersInv s) (c : Speed) (hr : s.stepsRemaining ≠ 0) :
    RegistersInv (stepped c s) := by
  obtain ⟨hparams, hchip, hspeed, hremaining, hstamp, hstatus, hdata, hpin⟩ := h.sampled
  have hpr : (Machine.sampled s).params = s.params := by simp [Machine.sampled]
  have hrem : (Machine.sampled s).stepsRemaining = s.stepsRemaining := by simp [Machine.sampled]
  refine ⟨hparams, hchip, hspeed, ?_, ?_, hstatus, hdata, hpin⟩
  · have hmax := h.remaining
    simp only [Machine.stepped, advance_stepsRemaining, hrem]
    bv_omega
  · simpa [Machine.stepped, hpr] using nextClock_lt s

theorem RegistersInv.polled {p1 p2 p3 p4 : Chan} {cmd : Word} {rest : List MicroOp} {k : Nat} {s u : State}
    (h : RegistersInv s) (hp : Polled p1 p2 p3 p4 cmd rest k s u) : RegistersInv u := by
  cases hp with
  | left _ => exact h.goOn _ _ _
  | unconfigured _ => exact h.raise _ _
  | waits => exact h.sampled.goOn _ _ _
  | steps c _ _ hr _ => exact (h.stepped c hr).goOn _ _ _

/-- Every micro-operation but a pin write to high keeps the ranges. -/
theorem RegistersInv.perform {s : State} (h : RegistersInv s) {op : MicroOp} (hop : op ≠ .pinWrite true) (cmd : Word)
    (rest : List MicroOp) (k : Nat) : RegistersInv (perform op cmd rest k s) := by
  obtain hbus | ⟨p1, p2, p3, p4, rfl⟩ | ⟨level, rfl⟩ := busOp_or_poll_or_pinWrite op
  · obtain ⟨t, hkeep, hleaves⟩ := perform_busOp hbus cmd rest k s
    exact (h.keepsControl hkeep).leaves hleaves
  · exact h.polled (perform_poll p1 p2 p3 p4 cmd rest k s)
  · cases level
    · exact { h with pin := (by decide : EnLevel.low ≠ .high) }
    · exact absurd rfl hop

/-- CFGSPEED configures a step delay in range (R22, R23, R107). -/
theorem stepDelay_le (speed steps : BitVec 16) : stepDelay speed steps ≤ usPerMin := by
  rw [BitVec.le_def, stepDelay, BitVec.toNat_udiv, BitVec.toNat_udiv]
  exact (Nat.div_le_self _ _).trans (Nat.div_le_self _ _)

theorem RegistersInv.configured {s : State} (h : RegistersInv s) (speed steps : BitVec 16) :
    RegistersInv (configured speed steps s) := by
  unfold Machine.configured
  split
  · exact h
  next hz =>
    refine { h with speed := ?_ }
    rintro c ⟨⟩
    exact ⟨fun hsteps => hz (.inr hsteps), stepDelay_le speed steps⟩

/-- MOVE asks for at most 2^31 steps (R24, R108). -/
theorem stepCount_le (cnt : BitVec 32) : (stepCount cnt).toNat ≤ 2 ^ 31 := by
  have hlow := BitVec.le_toInt cnt
  have hhigh := BitVec.toInt_lt (x := cnt)
  rw [stepCount, BitVec.toNat_ofNat]
  omega

theorem RegistersInv.moveStarted {s : State} (h : RegistersInv s) (cnt : BitVec 32) :
    RegistersInv (moveStarted cnt s) := by
  unfold Machine.moveStarted
  split
  · exact h
  · exact { h with remaining := stepCount_le cnt }

theorem RegistersInv.commandStart {s : State} (h : RegistersInv s) (i : Instr) : RegistersInv (commandStart i s) := by
  cases i with
  | cfgspeed speed steps => exact h.configured speed steps
  | move p1 p2 p3 p4 cnt => exact h.moveStarted cnt
  | _ => exact h

/-! ## Where a step ends (R25, R30, R109) -/

/-- A position from which the command responds in this step: it comes to a response without meeting the poll, and
without driving the pin high. -/
def reachesResponse : List MicroOp → Bool
  | [] => false
  | .poll _ _ _ _ :: _ => false
  | .pinWrite true :: _ => false
  | .respond _ :: _ => true
  | .raise _ _ :: _ => true
  | .read _ (.reportMode _) :: _ => true
  | .read _ .reportByte :: _ => true
  | _ :: rest => reachesResponse rest

theorem reachesResponse_cons_plain {op : MicroOp} (h : plainOp op = true) (rest : List MicroOp) :
    reachesResponse (op :: rest) = reachesResponse rest := by
  cases op with
  | read a next =>
    cases next with
    | replaceField c m => rfl
    | _ => cases h
  | write a v => rfl
  | delay d => rfl
  | _ => cases h

theorem reachesResponse_append {pre : List MicroOp} (h : pre.all plainOp = true) (rest : List MicroOp) :
    reachesResponse (pre ++ rest) = reachesResponse rest := by
  induction pre with
  | nil => rfl
  | cons op pre ih =>
    rw [List.all_cons, Bool.and_eq_true] at h
    obtain ⟨hop, hpre⟩ := h
    rw [List.cons_append, reachesResponse_cons_plain hop, ih hpre]

/-- The command goes on responding in this step, whatever a read answers. -/
theorem reachesResponse_follows {pr : Params} {op : MicroOp} {rest pos : List MicroOp}
    (h : reachesResponse (op :: rest) = true) (hpos : followsOp pr op rest pos) : reachesResponse pos = true := by
  cases op with
  | read a next =>
    obtain ⟨b, rfl⟩ := hpos
    cases next with
    | replaceField c m => exact h
    | reportMode c => simp only [afterRead]; split <;> rfl
    | reportByte => rfl
    | rampDown c tgt dur =>
      obtain ⟨info, hraise⟩ | hplain := fadeOutFrom_cases pr c b tgt dur
      · rw [afterRead, hraise]; rfl
      · rw [afterRead, reachesResponse_append hplain]; exact h
  | poll p1 p2 p3 p4 => cases h
  | pinWrite level =>
    cases level
    · exact hpos ▸ h
    · cases h
  | respond data => exact hpos.elim
  | raise e info => exact hpos.elim
  | write a v => exact hpos ▸ h
  | busWrite dev bytes => exact hpos ▸ h
  | busInit => exact hpos ▸ h
  | delay d => exact hpos ▸ h

/-- MOVE's loop may stand at its head: configured, a step pending, the index in range (R25, R109). -/
def loopReady (s : State) : Prop :=
  s.stepsRemaining ≠ 0 ∧ ∃ c, s.speed = some c ∧ s.currentStepIndex < c.numberSteps

/-- A position of a MOVE that comes back to its loop head after plain micro-operations. -/
def returnsToLoop (cmd : Word) (pos : List MicroOp) : Prop :=
  ∃ p1 p2 p3 p4 cnt pre, cmd = encode (.move p1 p2 p3 p4 cnt) ∧ pos = pre ++ [.poll p1 p2 p3 p4, .respond 0] ∧
    pre.all plainOp = true

/-- A position from which the step ends as `seqInv` says. -/
def onCourseAt (cmd : Word) (pos : List MicroOp) (s : State) : Prop :=
  reachesResponse pos = true ∨ (returnsToLoop cmd pos ∧ loopReady s)

/-- Idle, or on such a position. -/
def onCourse (s : State) : Prop :=
  match s.seq with
  | .idle => True
  | .busy cmd pos _ => onCourseAt cmd pos s

theorem loopReady_of_sameStepper {s t : State} (h : loopReady s) (hs : sameStepper s t) : loopReady t := by
  obtain ⟨hspeed, hremaining, hindex, -, -⟩ := hs
  rw [loopReady, hspeed, hremaining, hindex]
  exact h

/-- A step that is made with another to come leaves the loop ready (R110). -/
theorem loopReady_stepped {s : State} {c : Speed} (h : loopReady s) (hc : s.speed = some c)
    (hr : (stepped c s).stepsRemaining ≠ 0) : loopReady (stepped c s) := by
  obtain ⟨-, c', hc', hlt⟩ := h
  obtain rfl : c = c' := Option.some.inj (hc.symm.trans hc')
  exact ⟨hr, c, by simpa [stepped, sampled] using hc, by simpa [stepped, sampled] using nextIndex_lt _ hlt⟩

/-- Such a position is the loop head itself or begins with a plain micro-operation. -/
theorem returnsToLoop_cons {cmd : Word} {op : MicroOp} {rest : List MicroOp} (h : returnsToLoop cmd (op :: rest)) :
    (∃ p1 p2 p3 p4 cnt, cmd = encode (.move p1 p2 p3 p4 cnt) ∧ op = .poll p1 p2 p3 p4 ∧ rest = [.respond 0]) ∨
    (plainOp op = true ∧ returnsToLoop cmd rest) := by
  obtain ⟨p1, p2, p3, p4, cnt, pre, hcmd, heq, hplain⟩ := h
  cases pre with
  | nil =>
    obtain ⟨hop, hrest⟩ := List.cons.inj heq
    exact .inl ⟨p1, p2, p3, p4, cnt, hcmd, hop, hrest⟩
  | cons x pre =>
    obtain ⟨rfl, hrest⟩ := List.cons.inj heq
    rw [List.all_cons, Bool.and_eq_true] at hplain
    obtain ⟨hx, hpre⟩ := hplain
    exact .inr ⟨hx, p1, p2, p3, p4, cnt, pre, hcmd, hrest, hpre⟩

theorem returnsToLoop_append {cmd : Word} {pre pos : List MicroOp} (hpre : pre.all plainOp = true)
    (h : returnsToLoop cmd pos) : returnsToLoop cmd (pre ++ pos) := by
  obtain ⟨p1, p2, p3, p4, cnt, xs, hcmd, rfl, hplain⟩ := h
  exact ⟨p1, p2, p3, p4, cnt, pre ++ xs, hcmd, (List.append_assoc _ _ _).symm,
    by rw [List.all_append, hpre, hplain]; rfl⟩

/-- The loop head itself. -/
theorem returnsToLoop_head (p1 p2 p3 p4 : Chan) (cnt : BitVec 32) :
    returnsToLoop (encode (.move p1 p2 p3 p4 cnt)) [.poll p1 p2 p3 p4, .respond 0] :=
  ⟨p1, p2, p3, p4, cnt, [], rfl, rfl, rfl⟩

/-- A plain micro-operation that goes on does so on the way back to the loop head. -/
theorem returnsToLoop_follows {pr : Params} {cmd : Word} {op : MicroOp} {rest pos : List MicroOp}
    (hrest : returnsToLoop cmd rest) (hop : plainOp op = true) (hpos : followsOp pr op rest pos) :
    returnsToLoop cmd pos := by
  cases op with
  | write a v => exact hpos ▸ hrest
  | delay d => exact hpos ▸ hrest
  | read a next =>
    obtain ⟨b, rfl⟩ := hpos
    cases next with
    | replaceField c m => exact returnsToLoop_append rfl hrest
    | _ => cases hop
  | _ => cases hop

/-- A bus operation of a script on course keeps it there. -/
theorem onCourse_leaves {pr : Params} {cmd : Word} {op : MicroOp} {rest : List MicroOp} {s t u : State}
    (h : onCourseAt cmd (op :: rest) s) (hop : busOp op = true) (hk : KeepsControl s t)
    (hl : Leaves pr op cmd rest t u) : onCourse u := by
  cases hl with
  | responds data => trivial
  | raises e info => trivial
  | goesOn hpos k =>
    obtain hresponse | ⟨hloop, hready⟩ := h
    · exact .inl (reachesResponse_follows hresponse hpos)
    · obtain ⟨p1, p2, p3, p4, cnt, -, rfl, -⟩ | ⟨hplain, hrest⟩ := returnsToLoop_cons hloop
      · cases hop
      · exact .inr ⟨returnsToLoop_follows hrest hplain hpos, loopReady_of_sameStepper hready hk.stepper⟩

/-- The poll of a MOVE whose loop is ready is left for the response, waits, or makes a step and comes back. -/
theorem onCourse_polled {p1 p2 p3 p4 : Chan} {cmd : Word} {rest : List MicroOp} {k : Nat} {s u : State}
    (h : onCourseAt cmd (.poll p1 p2 p3 p4 :: rest) s) (hp : Polled p1 p2 p3 p4 cmd rest k s u) : onCourse u := by
  obtain hresponse | ⟨hloop, hready⟩ := h
  · cases hresponse
  obtain ⟨_, _, _, _, cnt, rfl, ⟨⟩, rfl⟩ | ⟨hplain, -⟩ := returnsToLoop_cons hloop
  · cases hp with
    | left _ => exact .inl rfl
    | unconfigured _ => trivial
    | waits => exact .inr ⟨hloop, loopReady_of_sameStepper hready (sampled_sameStepper s)⟩
    | steps c ph d _ hc =>
      have hphase := phaseWrite_plain s.params ph d p1 p2 p3 p4
      split
      · exact .inl (reachesResponse_append hphase _)
      next hr => exact .inr ⟨returnsToLoop_append hphase hloop, loopReady_stepped hready hc hr⟩
  · cases hplain

/-- A script on course writes the pin low only, on its way to a response. -/
theorem onCourseAt_pinWrite {cmd : Word} {level : Bool} {rest : List MicroOp} {s : State}
    (h : onCourseAt cmd (.pinWrite level :: rest) s) : level = false ∧ reachesResponse rest = true := by
  obtain hresponse | ⟨hloop, -⟩ := h
  · cases level
    · exact ⟨rfl, hresponse⟩
    · cases hresponse
  · obtain ⟨_, _, _, _, _, -, ⟨⟩, -⟩ | ⟨hplain, -⟩ := returnsToLoop_cons hloop
    cases hplain

/-- Every micro-operation of a script on course keeps it there. -/
theorem onCourse_perform {cmd : Word} {op : MicroOp} {rest : List MicroOp} {s : State}
    (h : onCourseAt cmd (op :: rest) s) (k : Nat) : onCourse (perform op cmd rest k s) := by
  obtain hbus | ⟨p1, p2, p3, p4, rfl⟩ | ⟨level, rfl⟩ := busOp_or_poll_or_pinWrite op
  · obtain ⟨t, hkeep, hleaves⟩ := perform_busOp hbus cmd rest k s
    exact onCourse_leaves h hbus hkeep hleaves
  · exact onCourse_polled h (perform_poll p1 p2 p3 p4 cmd rest k s)
  · exact .inl (onCourseAt_pinWrite h).2

theorem onCourse_micro {s : State} (hreg : RegistersInv s) (h : onCourse s) :
    RegistersInv (micro s) ∧ onCourse (micro s) := by
  unfold micro
  split
  next cmd op rest k hs =>
    rw [onCourse, hs] at h
    refine ⟨hreg.perform ?_ cmd rest k, onCourse_perform h k⟩
    rintro rfl
    cases (onCourseAt_pinWrite h).1
  next => exact ⟨hreg, h⟩
  next => exact ⟨hreg, h⟩

theorem paused_of_busy {s : State} {cmd : Word} {pos : List MicroOp} {k : Nat} (h : s.seq = .busy cmd pos k) :
    paused s = resting pos := by
  have hs : s = goOn cmd pos k s := by rw [goOn, ← h]
  rw [hs, paused_goOn]

theorem not_resting_of_reachesResponse {pos : List MicroOp} (h : reachesResponse pos = true) : resting pos = false := by
  cases pos with
  | nil => cases h
  | cons op rest =>
    cases op with
    | poll p1 p2 p3 p4 => cases h
    | _ => rfl

theorem not_resting_of_plainOp {op : MicroOp} (h : plainOp op = true) (rest : List MicroOp) :
    resting (op :: rest) = false := by
  cases op with
  | poll p1 p2 p3 p4 => cases h
  | _ => rfl

theorem onCourseAt_ne_nil {cmd : Word} {pos : List MicroOp} {s : State} (h : onCourseAt cmd pos s) : pos ≠ [] := by
  rintro rfl
  obtain hresponse | ⟨⟨p1, p2, p3, p4, cnt, pre, -, heq, -⟩, -⟩ := h
  · cases hresponse
  · simp at heq

/-- Where a step on course ends it is Idle or at a loop head that is ready. -/
theorem seqInv_of_onCourse {s : State} (h : onCourse s) (hp : paused s = true) : seqInv s := by
  cases hs : s.seq with
  | idle => exact .inl hs
  | busy cmd pos k =>
    rw [onCourse, hs] at h
    rw [paused_of_busy hs] at hp
    obtain ⟨op, rest, rfl⟩ := List.exists_cons_of_ne_nil (onCourseAt_ne_nil h)
    obtain hresponse | ⟨hloop, hremaining, c, hspeed, hindex⟩ := h
    · rw [not_resting_of_reachesResponse hresponse] at hp; cases hp
    · obtain ⟨p1, p2, p3, p4, cnt, rfl, rfl, rfl⟩ | ⟨hplain, -⟩ := returnsToLoop_cons hloop
      · exact .inr ⟨p1, p2, p3, p4, cnt, k, c, hs, hremaining, hspeed, hindex⟩
      · rw [not_resting_of_plainOp hplain] at hp; cases hp

/-- A script on course, run from registers in range, ends in a state that meets the invariant. -/
theorem runFrom_inv {cmd : Word} {pos : List MicroOp} {s : State} (hreg : RegistersInv s) (h : onCourseAt cmd pos s)
    (k : Nat) : Inv (runFrom cmd pos k s) := by
  obtain ⟨op, rest, rfl⟩ := List.exists_cons_of_ne_nil (onCourseAt_ne_nil h)
  obtain ⟨hreg', hcourse⟩ := runScript_keeps (P := fun t => RegistersInv t ∧ onCourse t)
    (fun t ⟨hr, hc⟩ => onCourse_micro hr hc) (weight (op :: rest)) (goOn cmd (op :: rest) k s) ⟨hreg.goOn _ _ _, h⟩
  exact (inv_iff _).mpr ⟨hreg', seqInv_of_onCourse hcourse (runFrom_paused cmd op rest k s)⟩

/-! ## Every command keeps the invariant -/

/-- A MOVE that passes its checks with a step to make finds its loop ready (R108, R109). -/
theorem loopReady_moveStarted {cnt : BitVec 32} {s : State} (herr : moveError cnt s = none) (hcnt : stepCount cnt ≠ 0) :
    loopReady (moveStarted cnt s) := by
  have hne : cnt ≠ 0 := by rintro rfl; exact hcnt rfl
  simp only [moveStarted, herr]
  unfold moveError at herr
  rw [if_neg hne] at herr
  split at herr
  · cases herr
  next c hc =>
    split at herr
    · cases herr
    next hlt => exact ⟨hcnt, c, hc, BitVec.not_le.mp hlt⟩

theorem scriptMove_onCourse (p1 p2 p3 p4 : Chan) (cnt : BitVec 32) (s : State) :
    onCourseAt (encode (.move p1 p2 p3 p4 cnt)) (scriptMove p1 p2 p3 p4 cnt s) (moveStarted cnt s) := by
  unfold scriptMove
  split
  · exact .inl rfl
  next herr =>
    split
    · exact .inl rfl
    next hcnt => exact .inr ⟨returnsToLoop_head p1 p2 p3 p4 cnt, loopReady_moveStarted herr hcnt⟩

theorem PlainScript.reachesResponse {pos : List MicroOp} (h : PlainScript pos) : reachesResponse pos = true := by
  cases h with
  | raises e info => rfl
  | responds h data => exact reachesResponse_append h _

/-- Every command's script is on course from its start. -/
theorem commandScript_onCourse (i : Instr) (s : State) :
    onCourseAt (encode i) (commandScript i s) (commandStart i s) := by
  cases i with
  | setmode ch mode all => exact .inl (scriptSetmode_plain ch mode all).reachesResponse
  | allon dp dir => exact .inl (scriptAllon_plain dp dir).reachesResponse
  | fadein ch tgt dur => exact .inl (scriptFadein_plain ch tgt dur).reachesResponse
  | cfgspeed speed steps => exact .inl (scriptCfgspeed_plain speed steps).reachesResponse
  | move p1 p2 p3 p4 cnt => exact scriptMove_onCourse p1 p2 p3 p4 cnt s
  | _ => exact .inl rfl

theorem inv_raise {s : State} (h : RegistersInv s) (e : ErrorKind) (info : Nat) : Inv (raise e info s) :=
  (inv_iff _).mpr ⟨h.raise e info, .inl rfl⟩

/-- A Busy sequencer that meets the invariant is on course. -/
theorem onCourseAt_of_seqInv {s : State} {cmd : Word} {pos : List MicroOp} {k : Nat} (h : seqInv s)
    (hs : s.seq = .busy cmd pos k) : onCourseAt cmd pos s := by
  obtain hidle | ⟨p1, p2, p3, p4, cnt, n, c, hhead, hremaining, hspeed, hindex⟩ := h
  · rw [hs] at hidle; cases hidle
  · rw [atLoopHead, hs, Seq.busy.injEq] at hhead
    obtain ⟨rfl, rfl, -⟩ := hhead
    exact .inr ⟨returnsToLoop_head p1 p2 p3 p4 cnt, hremaining, c, hspeed, hindex⟩

theorem exec_keeps_inv {i : Instr} {s t : State} (hs : Inv s) (h : exec i s = .next t) : Inv t := by
  obtain ⟨hreg, hseq⟩ := (inv_iff s).mp hs
  obtain ⟨-, -, rfl⟩ | ⟨-, -, rfl⟩ | ⟨op, rest, k, hbusy, rfl⟩ := exec_next h
  · exact runFrom_inv (hreg.commandStart i) (commandScript_onCourse i s) 0
  · exact inv_raise hreg _ _
  · exact runFrom_inv hreg (onCourseAt_of_seqInv hseq hbusy) k

/-- Settles O57: a step that waits leaves the state, an illegal word raises, and a command's script is on course from the
state it is accepted or held in (`exec_keeps_inv`). -/
theorem stepKeepsInvariant : Obligations.StepKeepsInvariant := by
  intro s t hs h
  obtain ⟨hreg, -⟩ := (inv_iff s).mp hs
  obtain ⟨-, rfl⟩ | ⟨words, i, hidle, hexec⟩ | ⟨words, info, -, rfl⟩ | ⟨i, -, hexec⟩ := step_next h
  · exact hs
  · exact exec_keeps_inv ((inv_iff _).mpr ⟨hreg.withCmdIn words, .inl hidle⟩) hexec
  · exact inv_raise (hreg.withCmdIn words) _ _
  · exact exec_keeps_inv hs hexec

end Sys2Proof.Machine
end

section
/-! The register map (R32, R40 to R42): which micro-operations stay on it, what their entries in the trace are, and that
every command's script is made of them. -/

namespace Sys2Proof.Machine

open Sys2Proof Sys2Proof.Config

/-! ## Addresses and micro-operations on the map -/

/-- The mode registers are on the map (R42, R72). -/
@[simp] theorem mapRead_modeReg (c : Chan) : mapRead (modeReg c) = true := by
  unfold modeReg
  split <;> rfl

/-- The duty registers are on the map (R42, R85). -/
@[simp] theorem mapRead_dutyReg (c : Chan) : mapRead (dutyReg c) = true := by
  revert c
  decide

@[simp] theorem mapWrite_modeReg (c : Chan) (v : Byte) : mapWrite (modeReg c) v = true := by simp [mapWrite]

@[simp] theorem mapWrite_dutyReg (c : Chan) (v : Byte) : mapWrite (dutyReg c) v = true := by simp [mapWrite]

/-- A micro-operation whose own access stays on the register map and the two device addresses, and that does not drive
the pin high (R32, R41, R42). -/
def opOnMap : MicroOp → Bool
  | .read a _ => mapRead a
  | .write a v => mapWrite a v
  | .busWrite dev bytes => dev == resetDev && bytes == resetMagic
  | .pinWrite level => !level
  | _ => true

/-! ## What a micro-operation records -/

theorem traceOnMap_emit (e : Event) (s : State) :
    traceOnMap (emit e s) ↔ traceOnMap s ∧ e.onMap s.params = true := by
  simp [traceOnMap, or_imp, forall_and]

/-- A state with the parameters and the trace of one on the map is on the map. -/
theorem traceOnMap_of_eq {s t : State} (h : traceOnMap s) (hparams : t.params = s.params) (htrace : t.trace = s.trace) :
    traceOnMap t := by
  rw [traceOnMap, hparams, htrace]
  exact h

theorem traceOnMap_raise {s : State} (h : traceOnMap s) (e : ErrorKind) (info : Nat) : traceOnMap (raise e info s) :=
  (traceOnMap_emit _ _).mpr ⟨h, rfl⟩

theorem traceOnMap_respond {s : State} (h : traceOnMap s) (data : Byte) : traceOnMap (respond data s) :=
  (traceOnMap_emit _ _).mpr ⟨h, rfl⟩

theorem traceOnMap_afterFailure {s : State} (h : traceOnMap s) (cmd : Word) (pos : List MicroOp) (k : Nat) :
    traceOnMap (afterFailure cmd pos k s) := by
  unfold afterFailure
  split
  · exact traceOnMap_raise h _ _
  · exact h

theorem traceOnMap_popStatus {s : State} (h : traceOnMap s) : traceOnMap (popStatus s) :=
  traceOnMap_of_eq h (popStatus_params s) (popStatus_trace s)

theorem traceOnMap_sampled {s : State} (h : traceOnMap s) : traceOnMap (sampled s) :=
  (traceOnMap_emit _ _).mpr ⟨traceOnMap_of_eq h (popClock_params s) (popClock_trace s), rfl⟩

theorem traceOnMap_polled {p1 p2 p3 p4 : Chan} {cmd : Word} {rest : List MicroOp} {k : Nat} {s u : State}
    (h : traceOnMap s) (hp : Polled p1 p2 p3 p4 cmd rest k s u) : traceOnMap u := by
  cases hp with
  | left _ => exact h
  | unconfigured _ => exact traceOnMap_raise h _ _
  | waits => exact traceOnMap_sampled h
  | steps c _ _ _ _ => exact traceOnMap_sampled h

/-- A micro-operation on the map records entries on the map only. -/
theorem traceOnMap_perform {op : MicroOp} (hop : opOnMap op = true) (cmd : Word) (rest : List MicroOp) (k : Nat)
    {s : State} (h : traceOnMap s) : traceOnMap (perform op cmd rest k s) := by
  have hpop := traceOnMap_popStatus h
  cases op with
  | read a next =>
    have hread : ∀ (t : State) (ok : Bool) (v : Option Byte), t.params = s.params → t.trace = s.trace →
        traceOnMap (emit (.memRead s.params.devAddr a ok v) t) := fun t ok v hparams htrace =>
      (traceOnMap_emit _ _).mpr ⟨traceOnMap_of_eq h hparams htrace, by simpa [Event.onMap, opOnMap, hparams] using hop⟩
    simp only [perform, chkRead]
    split
    · exact hread _ _ _ (by simp) (by simp)
    · split
      · exact traceOnMap_raise (hread _ _ _ (by simp) (by simp)) _ _
      · exact hread _ _ _ (by simp) (by simp)
  | write a v =>
    have hemit : traceOnMap (emit (.memWrite s.params.devAddr a v (nextStatus s)) (popStatus s)) :=
      (traceOnMap_emit _ _).mpr ⟨hpop, by simpa [Event.onMap, opOnMap] using hop⟩
    simp only [perform, chkWrite]
    split
    · exact hemit
    · exact traceOnMap_afterFailure (traceOnMap_of_eq hemit (forgetReg_params a _) (forgetReg_trace a _)) _ _ _
  | busWrite dev bytes =>
    have hemit : traceOnMap (emit (.busWrite dev bytes (nextStatus s)) (popStatus s)) :=
      (traceOnMap_emit _ _).mpr ⟨hpop, by simpa [Event.onMap, opOnMap] using hop⟩
    obtain ⟨hparams, -, -, htrace⟩ :=
      busEffect_frame dev bytes (nextStatus s) (emit (.busWrite dev bytes (nextStatus s)) (popStatus s))
    have heffect := traceOnMap_of_eq hemit hparams htrace
    simp only [perform, chkBus]
    split
    · exact heffect
    · exact traceOnMap_afterFailure heffect _ _ _
  | busInit => exact (traceOnMap_emit _ _).mpr ⟨h, rfl⟩
  | pinWrite level => exact (traceOnMap_emit _ _).mpr ⟨h, hop⟩
  | delay d => exact (traceOnMap_emit _ _).mpr ⟨h, rfl⟩
  | poll p1 p2 p3 p4 => exact traceOnMap_polled h (perform_poll p1 p2 p3 p4 cmd rest k s)
  | respond data => exact traceOnMap_respond h data
  | raise e info => exact traceOnMap_raise h e info

/-! ## Scripts on the map -/

@[simp] theorem setModeOne_onMap (c : Chan) (m : Mode) : (setModeOne c m).all opOnMap = true := by
  simp [setModeOne, opOnMap]

@[simp] theorem ramp_onMap (c : Chan) (i : BitVec 32) (vs : List Byte) : (ramp c i vs).all opOnMap = true := by
  simp [ramp, opOnMap]

@[simp] theorem modeThenDuty_onMap (c : Chan) (m : Mode) (v : Byte) : (modeThenDuty c m v).all opOnMap = true := by
  simp [modeThenDuty, opOnMap]

@[simp] theorem bulkModeThenDuty_onMap (m : Mode) (v : Byte) : (bulkModeThenDuty m v).all opOnMap = true := by
  have hA : mapWrite modeA (bulk m) = true := mapWrite_modeReg 0 (bulk m)
  have hB : mapWrite modeB (bulk m) = true := mapWrite_modeReg 4 (bulk m)
  simp [bulkModeThenDuty, setModeAll, opOnMap, hA, hB]

theorem phaseWrite_onMap (pr : Params) (ph : Fin 4) (d : Direction) (p1 p2 p3 p4 : Chan) :
    (phaseWrite pr ph d p1 p2 p3 p4).all opOnMap = true := by
  unfold phaseWrite
  rw [List.all_flatMap]
  refine List.all_eq_true.mpr fun role _ => ?_
  split <;> simp [opOnMap]

theorem fadeOutFrom_onMap (pr : Params) (c : Chan) (d0 tgt : Byte) (dur : BitVec 32) :
    (fadeOutFrom pr c d0 tgt dur).all opOnMap = true := by
  unfold fadeOutFrom
  split
  · rfl
  · split <;> split <;> simp

/-- Whatever a read answers, what follows it stays on the map. -/
theorem afterRead_onMap (pr : Params) (next : ReadThen) (b : Byte) : (afterRead pr next b).all opOnMap = true := by
  cases next with
  | replaceField c m => simp [afterRead, opOnMap]
  | reportMode c => simp only [afterRead]; split <;> rfl
  | reportByte => rfl
  | rampDown c tgt dur => exact fadeOutFrom_onMap pr c b tgt dur

theorem scriptSetmode_onMap (ch : Chan) (mode : BitVec 2) (all : Bool) :
    (scriptSetmode ch mode all).all opOnMap = true := by
  unfold scriptSetmode
  split
  · cases all
    · simp [opOnMap]
    · rfl
  · rfl

theorem scriptAllon_onMap (dp dir : Bool) : (scriptAllon dp dir).all opOnMap = true := by
  cases dp <;> simp [scriptAllon, opOnMap]

theorem scriptFadein_onMap (ch : Chan) (tgt : Byte) (dur : BitVec 32) :
    (scriptFadein ch tgt dur).all opOnMap = true := by
  unfold scriptFadein
  split
  · rfl
  · split <;> simp [opOnMap]

theorem scriptMove_onMap (p1 p2 p3 p4 : Chan) (cnt : BitVec 32) (s : State) :
    (scriptMove p1 p2 p3 p4 cnt s).all opOnMap = true := by
  unfold scriptMove
  split
  · rfl
  · split <;> rfl

/-- Every command's script stays on the map. -/
theorem commandScript_onMap (i : Instr) (s : State) : (commandScript i s).all opOnMap = true := by
  cases i with
  | setmode ch mode all => exact scriptSetmode_onMap ch mode all
  | getmode ch => simp [commandScript, scriptGetmode, opOnMap]
  | writeduty ch val => simp [commandScript, scriptWriteduty, opOnMap]
  | readduty ch => simp [commandScript, scriptReadduty, opOnMap]
  | turnon ch => simp [commandScript, scriptTurnon, opOnMap]
  | turnoff ch => simp [commandScript, scriptTurnoff, opOnMap]
  | setpwm ch val => simp [commandScript, scriptSetpwm, opOnMap]
  | allon dp dir => exact scriptAllon_onMap dp dir
  | alloff => simp [commandScript, scriptAlloff, opOnMap]
  | fadein ch tgt dur => exact scriptFadein_onMap ch tgt dur
  | fadeout ch tgt dur => simp [commandScript, scriptFadeout, opOnMap]
  | cfgspeed speed steps => simp only [commandScript, scriptCfgspeed]; split <;> rfl
  | move p1 p2 p3 p4 cnt => exact scriptMove_onMap p1 p2 p3 p4 cnt s
  | begin => rfl
  | swreset => rfl

/-! ## Every step -/

/-- A script on the map records entries on the map only. -/
theorem traceOnMap_runFrom {pos : List MicroOp} (hpos : pos.all opOnMap = true) (cmd : Word) (k : Nat) {s : State}
    (h : traceOnMap s) : traceOnMap (runFrom cmd pos k s) :=
  runFrom_keeps_of (P := traceOnMap) (A := fun op => opOnMap op = true) (pr := s.params)
    (fun _ next b _ => List.all_eq_true.mp (afterRead_onMap _ next b))
    (fun p1 p2 p3 p4 ph d _ => List.all_eq_true.mp (phaseWrite_onMap _ ph d p1 p2 p3 p4))
    (fun _ _ _ _ h => h) (fun _ c rest n _ hop _ h => traceOnMap_perform hop c rest n h)
    (List.all_eq_true.mp hpos) rfl h

/-- A Busy sequencer between steps holds a script on the map. -/
theorem pos_onMap_of_seqInv {s : State} {cmd : Word} {pos : List MicroOp} {k : Nat} (h : seqInv s)
    (hs : s.seq = .busy cmd pos k) : pos.all opOnMap = true := by
  obtain hidle | ⟨p1, p2, p3, p4, cnt, n, c, hhead, -⟩ := h
  · rw [hs] at hidle; cases hidle
  · rw [atLoopHead, hs, Seq.busy.injEq] at hhead
    obtain ⟨-, rfl, -⟩ := hhead
    rfl

theorem exec_traceOnMap {i : Instr} {s t : State} (hseq : seqInv s) (hs : traceOnMap s) (h : exec i s = .next t) :
    traceOnMap t := by
  obtain ⟨-, -, rfl⟩ | ⟨-, -, rfl⟩ | ⟨op, rest, k, hbusy, rfl⟩ := exec_next h
  · obtain ⟨hparams, -, htrace⟩ := commandStart_frame i s
    exact traceOnMap_runFrom (commandScript_onMap i s) _ _ (traceOnMap_of_eq hs hparams htrace)
  · exact traceOnMap_raise hs _ _
  · exact traceOnMap_runFrom (pos_onMap_of_seqInv hseq hbusy) _ _ hs

/-- Settles O58: a step that waits leaves the trace, an illegal word adds its response, and a command's script,
accepted or held, stays on the map (`exec_traceOnMap`). -/
theorem stepStaysOnRegisterMap : Obligations.StepStaysOnRegisterMap := by
  intro s t hinv hs h
  obtain ⟨-, rfl⟩ | ⟨words, i, hidle, hexec⟩ | ⟨words, info, -, rfl⟩ | ⟨i, -, hexec⟩ := step_next h
  · exact hs
  · exact exec_traceOnMap (s := { s with cmdIn := words }) (.inl hidle) hs hexec
  · exact traceOnMap_raise (s := { s with cmdIn := words }) hs _ _
  · exact exec_traceOnMap hinv.seq hs hexec

end Sys2Proof.Machine
end

section
/-! A channel's mode on the chip (20_memory.md): the field of one channel survives the write of another's (R80), what
SETMODE and GETMODE make of the mode register (R83, R84), and what a read-modify-write does with a foreign write in
between (R51). -/

namespace Sys2Proof.Machine

open Sys2Proof Sys2Proof.Config

/-! ## The codec's round trip and isolation (R80) -/

/-- Each bit of `b` with the two bits from `p` on replaced by `f`. -/
theorem getLsbD_replace_pair (b : Byte) (f : BitVec 2) (p n : Nat) (hn : n < 8) :
    ((b &&& ~~~((0b11 : Byte) <<< p)) ||| (f.setWidth 8 <<< p)).getLsbD n =
      if p ≤ n ∧ n < p + 2 then f.getLsbD (n - p) else b.getLsbD n := by
  have hmask : ∀ (j : Nat) (_ : j < 8), (3#8)[j] = decide (j < 2) := by decide
  by_cases hp : n < p
  · simp [hn, hp, Nat.not_le.mpr hp]
  · obtain ⟨j, rfl⟩ := Nat.exists_eq_add_of_le (Nat.not_lt.mp hp)
    by_cases hj : j < 2
    · simp [hn, hj, hmask j (by omega)]
    · simp [hn, hj, hmask j (by omega), BitVec.getLsbD_of_ge f j (by omega)]

/-- The field of local channel `j` once the field of `k` is set (R77): the new mode's code, or the old field. -/
theorem encodeField_field {pp : PairPos} (hpp : pp.wf) (b : Byte) (k j : Fin 4) (m : Mode) :
    ((encodeField pp b k m >>> pp.pos j).setWidth 2 : BitVec 2) =
      if j = k then modeCode m else (b >>> pp.pos j).setWidth 2 := by
  have hj : pp.pos j = 2 * (pp.slot j).val := rfl
  have hk : pp.pos k = 2 * (pp.slot k).val := rfl
  have hlt := (pp.slot j).isLt
  refine BitVec.eq_of_getLsbD_eq fun i hi => ?_
  rw [BitVec.getLsbD_setWidth, BitVec.getLsbD_ushiftRight, encodeField, getLsbD_replace_pair _ _ _ _ (by omega)]
  by_cases hjk : j = k
  · subst hjk
    rw [if_pos ⟨by omega, by omega⟩]
    simp [hi]
  · have hslot : (pp.slot j).val ≠ (pp.slot k).val := fun h => hpp j k hjk (Fin.ext h)
    rw [if_neg (by omega)]
    simp [hi, hjk]

/-- A field that is set decodes to the mode set (R80, round trip). -/
theorem decodeField_encodeField_same {pp : PairPos} (hpp : pp.wf) (b : Byte) (k : Fin 4) (m : Mode) :
    decodeField pp (encodeField pp b k m) k = some m := by
  rw [decodeField, encodeField_field hpp, if_pos rfl, modeOfCode_modeCode]

/-- Every other field decodes as before (R80, isolation). -/
theorem decodeField_encodeField_other {pp : PairPos} (hpp : pp.wf) (b : Byte) {k j : Fin 4} (hjk : j ≠ k) (m : Mode) :
    decodeField pp (encodeField pp b k m) j = decodeField pp b j := by
  rw [decodeField, encodeField_field hpp, if_neg hjk, decodeField]

/-- The mode register and the local index name the channel (R72). -/
theorem localIndex_ne {c ch : Chan} (hc : c ≠ ch) (hreg : modeReg c = modeReg ch) : localIndex c ≠ localIndex ch := by
  revert c ch
  decide

/-! ## SETMODE, then GETMODE (R83, R84) -/

/-- SETMODE's operand 0 to 2 is legal (R65). -/
theorem wellFormed_setmode_one (ch : Chan) (m : Mode) : (Instr.setmode ch (modeCode m) false).wellFormed = true := by
  cases m <;> rfl

/-- SETMODE of one channel, both transactions succeeding: one read-modify-write of its mode register (R81, R83). -/
theorem exec_setmode_one {s : State} {ch : Chan} {m : Mode} {l : List Bool} {b : Byte} {bs : List Byte}
    (hs : s.seq = .idle) (hok : s.statusIn = true :: true :: l) (ha : answers s (modeReg ch) b bs) :
    exec (.setmode ch (modeCode m) false) s =
      .next (respond 0
        { s with
          statusIn := l
          readIn := bs
          chip := Memory.write s.chip (modeReg ch).toNat (encodeField s.params.pairPos b (localIndex ch) m)
          trace := s.trace ++ rmwEvents s.params ch m b }) := by
  have hscript : scriptSetmode ch (modeCode m) false = setModeOne ch m ++ [.respond 0] := by simp [scriptSetmode]
  have hrun : exec (.setmode ch (modeCode m) false) s =
      runCommand (.setmode ch (modeCode m) false) s (scriptSetmode ch (modeCode m) false) s := rfl
  rw [hrun, hscript, runCommand_settle hs (wellFormed_setmode_one ch m) rfl,
    settle_setModeOne _ ch m _ 0 s l b bs hok ha, settle_respond]

/-- GETMODE of a channel whose field decodes, the read succeeding: the mode's code is reported (R84). -/
theorem exec_getmode_decodes {s : State} {ch : Chan} {m : Mode} {l : List Bool} {b : Byte} {bs : List Byte}
    (hs : s.seq = .idle) (hok : s.statusIn = true :: l) (ha : answers s (modeReg ch) b bs)
    (hm : decodeField s.params.pairPos b (localIndex ch) = some m) :
    exec (.getmode ch) s =
      .next (respond ((modeCode m).setWidth 8)
        (emit (.memRead s.params.devAddr (modeReg ch) true (some b)) { s with statusIn := l, readIn := bs })) := by
  have hrun : exec (.getmode ch) s = runCommand (.getmode ch) s (scriptGetmode ch) s := rfl
  rw [hrun, runCommand_settle hs rfl rfl, scriptGetmode, settle_read_answers hok ha]
  simp [afterRead, hm]

/-- Under the reference register file a read answers what the register holds and takes no input (R44). -/
theorem answers_chipHolds {s : State} (h : s.params.oracle = .registerFile) (a : Byte) :
    answers s a (chipHolds s a.toNat) s.readIn := .inr ⟨h, rfl, rfl⟩

/-- On the reference register file SETMODE stores the byte the mode register holds with the channel's field set, and the
chip is otherwise as before. -/
theorem exec_setmode_one_registerFile {s : State} (ch : Chan) (m : Mode) {l : List Bool} (hs : s.seq = .idle)
    (ho : s.params.oracle = .registerFile) (hok : s.statusIn = true :: true :: l) :
    ∃ t, exec (.setmode ch (modeCode m) false) s = .next t ∧ t.seq = .idle ∧ t.params = s.params ∧ t.statusIn = l ∧
      ∀ a, chipHolds t a = chipHolds (storeReg (modeReg ch)
        (encodeField s.params.pairPos (chipHolds s (modeReg ch).toNat) (localIndex ch) m) s) a :=
  ⟨_, exec_setmode_one hs hok (answers_chipHolds ho _), rfl, rfl, rfl, fun _ => rfl⟩

/-- Settles O14: GETMODE reads back the byte SETMODE stored, whose own field decodes to `m` and whose other fields are
those it had; the other mode register is untouched. -/
theorem setmodeThenGetmode : Obligations.SetmodeThenGetmode := by
  intro s ch m l hs ho hpp hok
  obtain ⟨t, hset, hidle, hparams, hstatus, hchip⟩ := exec_setmode_one_registerFile ch m hs ho hok
  have hdecodes : decodeField t.params.pairPos (chipHolds t (modeReg ch).toNat) (localIndex ch) = some m := by
    rw [hparams, hchip, chipHolds_storeReg_same, decodeField_encodeField_same hpp]
  have hget := exec_getmode_decodes hidle hstatus (answers_chipHolds (hparams ▸ ho) _) hdecodes
  refine ⟨t, _, hset, hget, rfl, rfl, rfl, fun c hc => ?_⟩
  change decodeField _ (chipHolds t _) _ = _
  rw [hchip]
  by_cases hreg : modeReg c = modeReg ch
  · rw [hreg, chipHolds_storeReg_same, decodeField_encodeField_other hpp _ (localIndex_ne hc hreg)]
  · rw [chipHolds_storeReg_other _ _ _ (fun h => hreg (BitVec.eq_of_toNat_eq h))]

/-! ## A foreign write in between (R51) -/

/-- A Busy sequencer performs the first micro-operation of its position. -/
theorem micro_of_busy {s : State} {cmd : Word} {op : MicroOp} {rest : List MicroOp} {k : Nat}
    (h : s.seq = .busy cmd (op :: rest) k) : micro s = perform op cmd rest k s := by
  simp [micro, h]

/-- A successful read is one micro-operation, after which what follows from the byte is next. -/
theorem perform_read_answers {cmd : Word} {a : Byte} {next : ReadThen} {rest : List MicroOp} {k : Nat} {s : State}
    {l : List Bool} {b : Byte} {bs : List Byte} (hok : s.statusIn = true :: l) (ha : answers s a b bs) :
    perform (.read a next) cmd rest k s =
      goOn cmd (afterRead s.params next b ++ rest) (k + 1)
        (emit (.memRead s.params.devAddr a true (some b)) { s with statusIn := l, readIn := bs }) := by
  rw [perform, chkRead, nextStatus_cons hok, popStatus_cons hok, if_pos rfl]
  obtain ⟨ho, hb⟩ | ⟨ho, rfl, rfl⟩ := ha
  · obtain ⟨hbyte, hpop⟩ := answerByte_transport (s := { s with statusIn := l }) a ho
    rw [hbyte, hpop, nextByte_cons (by exact hb), popByte_cons (by exact hb)]
  · obtain ⟨hbyte, hpop⟩ := answerByte_registerFile (s := { s with statusIn := l }) a ho
    rw [hbyte, hpop]
    rfl

/-- A successful write stores its byte. -/
theorem perform_write_ok_chip {cmd : Word} {a v : Byte} {rest : List MicroOp} {k : Nat} {s : State} {l : List Bool}
    (hok : s.statusIn = true :: l) :
    (perform (.write a v) cmd rest k s).chip = Memory.write s.chip a.toNat v := by
  simp [perform, chkWrite, nextStatus_cons hok]

/-- Settles O15: the write is the micro-operation after the read, with the byte made of the value read; it stores
that byte in whatever register file it finds. -/
theorem foreignWriteBetweenIsLost : Obligations.ForeignWriteBetweenIsLost := by
  intro s w c m rest k l b bs foreign hs hok ha
  have hread : micro s = _ := (micro_of_busy hs).trans (perform_read_answers hok ha)
  rw [hread, micro_of_busy (by rfl), perform_write_ok_chip (by rfl), Memory.read_write_same]

end Sys2Proof.Machine
end

section
/-! The chip registers a command leaves alone (20_memory.md R42, R46): which registers a micro-operation and what
follows it may store to, that these are the command's store targets, and what BEGIN and SWRESET make unknown (R34,
U2). -/

namespace Sys2Proof.Machine

open Sys2Proof Sys2Proof.Config

/-! ## One register -/

/-- Register `a` is known or unknown in `t` as in `s`, with the byte it had. -/
def sameRegister (a : Nat) (s t : State) : Prop :=
  Memory.read t.chip a = Memory.read s.chip a ∧ t.epoch = s.epoch ∧ t.lost.count a = s.lost.count a

theorem sameRegister.read {a : Nat} {s t : State} (h : sameRegister a s t) :
    Memory.read t.chip a = Memory.read s.chip a := h.1

theorem sameRegister.chipHolds {a : Nat} {s t : State} (h : sameRegister a s t) : chipHolds t a = chipHolds s a := by
  obtain ⟨hread, hepoch, hlost⟩ := h
  exact chipHolds_congr hread hepoch hlost

theorem sameRegister.trans {a : Nat} {s t u : State} (h : sameRegister a s t) (h' : sameRegister a t u) :
    sameRegister a s u := by
  obtain ⟨hread, hepoch, hlost⟩ := h
  obtain ⟨hread', hepoch', hlost'⟩ := h'
  exact ⟨hread'.trans hread, hepoch'.trans hepoch, hlost'.trans hlost⟩

theorem sameRegister_of_eq {s t : State} (hchip : t.chip = s.chip) (hepoch : t.epoch = s.epoch)
    (hlost : t.lost = s.lost) (a : Nat) : sameRegister a s t :=
  ⟨by rw [hchip], hepoch, by rw [hlost]⟩

theorem sameRegister_storeReg {a : Nat} {r : Byte} (h : r.toNat ≠ a) (v : Byte) (s : State) :
    sameRegister a s (storeReg r v s) :=
  ⟨Memory.read_write_other _ _ _ _ h.symm, rfl, rfl⟩

theorem sameRegister_forgetReg {a : Nat} {r : Byte} (h : r.toNat ≠ a) (s : State) : sameRegister a s (forgetReg r s) :=
  ⟨Memory.read_forget_other _ _ _ h.symm, rfl, by simp [h]⟩

theorem sameRegister_afterFailure (a : Nat) (cmd : Word) (pos : List MicroOp) (k : Nat) (s : State) :
    sameRegister a s (afterFailure cmd pos k s) := by
  unfold afterFailure
  split <;> exact ⟨rfl, rfl, rfl⟩

/-! ## Micro-operations that spare a register -/

/-- What follows the read (the write back of a field, FADEOUT's ramp) does not store to register `a`. -/
def readSpares (pr : Params) (a : Nat) : ReadThen → Prop
  | .replaceField c _ => (modeReg c).toNat ≠ a
  | .reportMode _ => True
  | .reportByte => True
  | .rampDown c tgt dur => ∀ r ∈ storeTargets pr (.fadeout c tgt dur), r.toNat ≠ a

/-- Neither this micro-operation nor what it brings (what follows a read, MOVE's phase writes) stores to register `a` or
makes the whole chip unknown. -/
def opSpares (pr : Params) (a : Nat) : MicroOp → Prop
  | .read _ next => readSpares pr a next
  | .write r _ => r.toNat ≠ a
  | .busWrite _ _ => False
  | .busInit => False
  | .pinWrite _ => True
  | .delay _ => True
  | .poll p1 p2 p3 p4 => ∀ r ∈ storeTargets pr (.move p1 p2 p3 p4 0), r.toNat ≠ a
  | .respond _ => True
  | .raise _ _ => True

theorem sameRegister_polled {p1 p2 p3 p4 : Chan} {cmd : Word} {rest : List MicroOp} {k : Nat} {s u : State}
    (hp : Polled p1 p2 p3 p4 cmd rest k s u) (a : Nat) : sameRegister a s u := by
  cases hp <;> exact sameRegister_of_eq (by simp [sampled, stepped]) (by simp [sampled, stepped])
    (by simp [sampled, stepped]) a

/-- A micro-operation that spares a register leaves it, whether its transaction fails or not (R46, R127). -/
theorem perform_spares {a : Nat} {s : State} {op : MicroOp} (hop : opSpares s.params a op) (cmd : Word)
    (rest : List MicroOp) (k : Nat) : sameRegister a s (perform op cmd rest k s) := by
  cases op with
  | read r next =>
    simp only [perform, chkRead]
    split
    · exact sameRegister_of_eq (by simp) (by simp) (by simp) a
    · split <;> exact sameRegister_of_eq (by simp) (by simp) (by simp) a
  | write r v =>
    have hemit : sameRegister a s (emit (.memWrite s.params.devAddr r v (nextStatus s)) (popStatus s)) :=
      sameRegister_of_eq (by simp) (by simp) (by simp) a
    simp only [perform, chkWrite]
    split
    · exact hemit.trans (sameRegister_storeReg hop v _)
    · exact (hemit.trans (sameRegister_forgetReg hop _)).trans (sameRegister_afterFailure a cmd rest k _)
  | busWrite dev bytes => exact hop.elim
  | busInit => exact hop.elim
  | poll p1 p2 p3 p4 => exact sameRegister_polled (perform_poll p1 p2 p3 p4 cmd rest k s) a
  | _ => exact ⟨rfl, rfl, rfl⟩

/-! ## Scripts that spare a register -/

theorem setModeOne_spares {pr : Params} {a : Nat} {c : Chan} (h : (modeReg c).toNat ≠ a) (m : Mode) :
    ∀ op ∈ setModeOne c m, opSpares pr a op := by
  simpa [setModeOne, opSpares, readSpares] using h

theorem modeThenDuty_spares {pr : Params} {a : Nat} {c : Chan} (hmode : (modeReg c).toNat ≠ a)
    (hduty : (dutyReg c).toNat ≠ a) (m : Mode) (v : Byte) : ∀ op ∈ modeThenDuty c m v, opSpares pr a op :=
  List.forall_mem_append.mpr ⟨setModeOne_spares hmode m, by simpa [opSpares] using hduty⟩

theorem bulkModeThenDuty_spares {pr : Params} {a : Nat}
    (h : ∀ r ∈ [modeA, modeB] ++ allChannels.map dutyReg, r.toNat ≠ a) (m : Mode) (v : Byte) :
    ∀ op ∈ bulkModeThenDuty m v, opSpares pr a op := by
  simp only [List.forall_mem_append, List.forall_mem_map] at h
  obtain ⟨hmode, hduty⟩ := h
  simp only [bulkModeThenDuty, List.forall_mem_append, List.forall_mem_map]
  exact ⟨by simpa [setModeAll, opSpares] using hmode, hduty⟩

theorem ramp_spares {pr : Params} {a : Nat} {c : Chan} (h : (dutyReg c).toNat ≠ a) (i : BitVec 32) (vs : List Byte) :
    ∀ op ∈ ramp c i vs, opSpares pr a op := by
  intro op hop
  obtain ⟨v, -, hop⟩ := List.mem_flatMap.mp hop
  have hpair : ∀ x ∈ [.write (dutyReg c) v, .delay ⟨i.toNat, .ms⟩], opSpares pr a x := by simpa [opSpares] using h
  exact hpair op hop

theorem phaseWrite_spares {pr : Params} {a : Nat} {p1 p2 p3 p4 : Chan}
    (h : ∀ r ∈ storeTargets pr (.move p1 p2 p3 p4 0), r.toNat ≠ a) (ph : Fin 4) (d : Direction) :
    ∀ op ∈ phaseWrite pr ph d p1 p2 p3 p4, opSpares pr a op := by
  cases hw : pr.phaseWriteOp
  · simpa [phaseWrite_dutyOnly hw, opSpares, storeTargets, hw] using h
  · simp only [storeTargets, hw, if_pos, List.forall_mem_append, List.forall_mem_map] at h
    obtain ⟨hduty, hmode⟩ := h
    simp only [List.forall_mem_cons] at hduty hmode
    simp [phaseWrite_setPwm hw, setModeOne, opSpares, readSpares, hduty, hmode]

theorem fadeOutFrom_spares {pr : Params} {a : Nat} {c : Chan} {tgt : Byte} {dur : BitVec 32}
    (h : ∀ r ∈ storeTargets pr (.fadeout c tgt dur), r.toNat ≠ a) (d0 : Byte) :
    ∀ op ∈ fadeOutFrom pr c d0 tgt dur, opSpares pr a op := by
  obtain ⟨hduty, hmode⟩ := List.forall_mem_cons.mp h
  unfold fadeOutFrom
  split
  · simp [opSpares]
  · refine List.forall_mem_append.mpr ⟨List.forall_mem_append.mpr ⟨?_, ramp_spares hduty _ _⟩, ?_⟩
    · split
      next hset => exact setModeOne_spares (hmode _ (by simp [hset])) _
      next => simp
    · split
      next htgt => exact setModeOne_spares (hmode _ (by simp [htgt])) _
      next => simp

theorem afterRead_spares {pr : Params} {a : Nat} {r : Byte} {next : ReadThen} (h : opSpares pr a (.read r next))
    (b : Byte) : ∀ op ∈ afterRead pr next b, opSpares pr a op := by
  cases next with
  | replaceField c m => simpa [afterRead, opSpares, readSpares] using h
  | reportMode c => simp only [afterRead]; split <;> simp [opSpares]
  | reportByte => simp [afterRead, opSpares]
  | rampDown c tgt dur => exact fadeOutFrom_spares h b

/-- A script that spares a register leaves it. -/
theorem runFrom_spares {a : Nat} {s : State} {pos : List MicroOp} (hpos : ∀ op ∈ pos, opSpares s.params a op)
    (cmd : Word) (k : Nat) : sameRegister a s (runFrom cmd pos k s) :=
  runFrom_keeps_of (P := sameRegister a s) (A := opSpares s.params a) (pr := s.params)
    (fun _ _ b h => afterRead_spares h b) (fun _ _ _ _ ph d h => phaseWrite_spares h ph d) (fun _ _ _ _ h => h)
    (fun _ c rest n _ hop hpr h => h.trans (perform_spares (hpr ▸ hop) c rest n)) hpos rfl ⟨rfl, rfl, rfl⟩

/-! ## Every command -/

theorem scriptSetmode_spares {pr : Params} {a : Nat} {ch : Chan} {mode : BitVec 2} {all : Bool}
    (h : ∀ r ∈ storeTargets pr (.setmode ch mode all), r.toNat ≠ a) :
    ∀ op ∈ scriptSetmode ch mode all, opSpares pr a op := by
  unfold scriptSetmode
  split
  · cases all
    · exact List.forall_mem_append.mpr ⟨setModeOne_spares (h _ List.mem_cons_self) _, by simp [opSpares]⟩
    · simpa [setModeAll, opSpares, storeTargets] using h
  · simp [opSpares]

theorem scriptAllon_spares {pr : Params} {a : Nat} {dp dir : Bool}
    (h : ∀ r ∈ storeTargets pr (.allon dp dir), r.toNat ≠ a) : ∀ op ∈ scriptAllon dp dir, opSpares pr a op := by
  refine List.forall_mem_append.mpr ⟨?_, by simp [opSpares]⟩
  cases dp
  · exact bulkModeThenDuty_spares h _ _
  · intro op hop
    obtain ⟨c, hc, hop⟩ := List.mem_flatMap.mp hop
    have htarget : ∀ r ∈ [modeReg c, dutyReg c], r.toNat ≠ a := fun r hr => h r (List.mem_flatMap.mpr ⟨c, hc, hr⟩)
    exact modeThenDuty_spares (htarget _ (by simp)) (htarget _ (by simp)) _ _ op hop

theorem scriptFadein_spares {pr : Params} {a : Nat} {ch : Chan} {tgt : Byte} {dur : BitVec 32}
    (h : ∀ r ∈ storeTargets pr (.fadein ch tgt dur), r.toNat ≠ a) :
    ∀ op ∈ scriptFadein ch tgt dur, opSpares pr a op := by
  have hmode : (modeReg ch).toNat ≠ a := h _ (by simp [storeTargets])
  have hduty : (dutyReg ch).toNat ≠ a := h _ (by simp [storeTargets])
  unfold scriptFadein
  split
  · simp [opSpares]
  · simp only [List.forall_mem_append]
    refine ⟨⟨⟨setModeOne_spares hmode _, ramp_spares hduty _ _⟩, ?_⟩, by simp [opSpares]⟩
    split
    · exact setModeOne_spares hmode _
    · simp

theorem scriptMove_spares {pr : Params} {a : Nat} {p1 p2 p3 p4 : Chan} {cnt : BitVec 32}
    (h : ∀ r ∈ storeTargets pr (.move p1 p2 p3 p4 cnt), r.toNat ≠ a) (s : State) :
    ∀ op ∈ scriptMove p1 p2 p3 p4 cnt s, opSpares pr a op := by
  unfold scriptMove
  split
  · simp [opSpares]
  · split
    · simp [opSpares]
    · exact List.forall_mem_cons.mpr ⟨h, by simp [opSpares]⟩

/-- A script that ends with a response spares what the micro-operations before it spare. -/
theorem spares_append_respond {pr : Params} {a : Nat} {pre : List MicroOp} (h : ∀ op ∈ pre, opSpares pr a op)
    (data : Byte) : ∀ op ∈ pre ++ [.respond data], opSpares pr a op :=
  List.forall_mem_append.mpr ⟨h, by simp [opSpares]⟩

/-- Every command but BEGIN and SWRESET spares the registers that are not its store targets. -/
theorem commandScript_spares {i : Instr} {s : State} {a : Nat} (hbegin : i ≠ .begin) (hswreset : i ≠ .swreset)
    (h : ∀ r ∈ storeTargets s.params i, r.toNat ≠ a) : ∀ op ∈ commandScript i s, opSpares s.params a op := by
  have hpair : ∀ {c : Chan} (m : Mode) (v : Byte), (∀ r ∈ [modeReg c, dutyReg c], r.toNat ≠ a) →
      ∀ op ∈ modeThenDuty c m v ++ [.respond 0], opSpares s.params a op := fun m v h =>
    spares_append_respond (modeThenDuty_spares (h _ (by simp)) (h _ (by simp)) m v) 0
  cases i with
  | setmode ch mode all => exact scriptSetmode_spares h
  | getmode ch => simp [commandScript, scriptGetmode, opSpares, readSpares]
  | writeduty ch val => simpa [commandScript, scriptWriteduty, opSpares, storeTargets] using h
  | readduty ch => simp [commandScript, scriptReadduty, opSpares, readSpares]
  | turnon ch => exact hpair .on fullOn h
  | turnoff ch => exact hpair .off 0 h
  | setpwm ch val => exact hpair .pwm val h
  | allon dp dir => exact scriptAllon_spares h
  | alloff => exact spares_append_respond (bulkModeThenDuty_spares h _ _) 0
  | fadein ch tgt dur => exact scriptFadein_spares h
  | fadeout ch tgt dur => exact List.forall_mem_cons.mpr ⟨h, by simp [opSpares]⟩
  | cfgspeed speed steps => simp only [commandScript, scriptCfgspeed]; split <;> simp [opSpares]
  | move p1 p2 p3 p4 cnt => exact scriptMove_spares h s
  | begin => exact absurd rfl hbegin
  | swreset => exact absurd rfl hswreset

/-- The registers CFGSPEED and MOVE write first are not the chip's. -/
theorem commandStart_sameRegister (i : Instr) (s : State) (a : Nat) : sameRegister a s (commandStart i s) := by
  cases i with
  | cfgspeed speed steps => simp only [commandStart, configured]; split <;> exact ⟨rfl, rfl, rfl⟩
  | move p1 p2 p3 p4 cnt => simp only [commandStart, moveStarted]; split <;> exact ⟨rfl, rfl, rfl⟩
  | _ => exact ⟨rfl, rfl, rfl⟩

/-! ## The command held at MOVE's loop head -/

/-- The word of every command carries its opcode (R60). -/
theorem opcodeOf_encode (i : Instr) : (opcodeOf (encode i)).toNat = i.opcode := by
  cases i with
  | setmode ch mode all => exact (Laws.OpcodeByte.setmode ch mode all).1
  | getmode ch => exact (Laws.OpcodeByte.getmode ch).1
  | writeduty ch val => exact (Laws.OpcodeByte.writeduty ch val).1
  | readduty ch => exact (Laws.OpcodeByte.readduty ch).1
  | turnon ch => exact (Laws.OpcodeByte.turnon ch).1
  | turnoff ch => exact (Laws.OpcodeByte.turnoff ch).1
  | setpwm ch val => exact (Laws.OpcodeByte.setpwm ch val).1
  | allon dp dir => exact (Laws.OpcodeByte.allon dp dir).1
  | alloff => exact Laws.OpcodeByte.alloff.1
  | fadein ch tgt dur => exact (Laws.OpcodeByte.fadein ch tgt dur).1
  | fadeout ch tgt dur => exact (Laws.OpcodeByte.fadeout ch tgt dur).1
  | cfgspeed speed steps => exact (Laws.OpcodeByte.cfgspeed speed steps).1
  | move p1 p2 p3 p4 cnt => exact (Laws.OpcodeByte.move p1 p2 p3 p4 cnt).1
  | begin => exact Laws.OpcodeByte.begin.1
  | swreset => exact Laws.OpcodeByte.swreset.1

/-- The word of a MOVE as a number (R62). -/
theorem encode_move_toNat (p1 p2 p3 p4 : Chan) (cnt : BitVec 32) :
    (encode (.move p1 p2 p3 p4 cnt)).toNat =
      13 + (p1.toNat * 2 ^ 8 + p2.toNat * 2 ^ 12 + p3.toNat * 2 ^ 16 + p4.toNat * 2 ^ 20 + cnt.toNat * 2 ^ 32) := by
  refine encode_toNat _ ?_
  simp only [Instr.opcode, operandBits, placed]
  omega

/-- Only the MOVE itself has a MOVE's word. -/
theorem eq_move_of_encode_eq {i : Instr} {p1 p2 p3 p4 : Chan} {cnt : BitVec 32}
    (h : encode i = encode (.move p1 p2 p3 p4 cnt)) : i = .move p1 p2 p3 p4 cnt := by
  have hop : i.opcode = 0x0D := by rw [← opcodeOf_encode i, h, opcodeOf_encode]; rfl
  cases i with
  | move q1 q2 q3 q4 cnt' =>
    have hword := congrArg BitVec.toNat h
    rw [encode_move_toNat, encode_move_toNat] at hword
    simp only [Instr.move.injEq, ← BitVec.toNat_inj]
    omega
  | _ => cases hop

/-- What a command that answers between steps has done: run its script from Idle, been found ill-formed, or, a MOVE,
gone on from its loop head. -/
theorem exec_next_of_seqInv {i : Instr} {s t : State} (hseq : seqInv s) (h : exec i s = .next t) :
    t = runFrom (encode i) (commandScript i s) 0 (commandStart i s) ∨
    (i.wellFormed = false ∧ t = raise .illegalCommand i.opcode s) ∨
    (∃ p1 p2 p3 p4 cnt k, i = .move p1 p2 p3 p4 cnt ∧
      t = runFrom (encode i) [.poll p1 p2 p3 p4, .respond 0] k s) := by
  obtain ⟨-, -, rfl⟩ | ⟨-, hill, rfl⟩ | ⟨op, rest, k, hbusy, rfl⟩ := exec_next h
  · exact .inl rfl
  · exact .inr (.inl ⟨hill, rfl⟩)
  · obtain hidle | ⟨p1, p2, p3, p4, cnt, n, c, hhead, -⟩ := hseq
    · rw [hidle] at hbusy; cases hbusy
    · rw [atLoopHead, hbusy, Seq.busy.injEq] at hhead
      obtain ⟨hword, hpos, -⟩ := hhead
      exact .inr (.inr ⟨p1, p2, p3, p4, cnt, k, eq_move_of_encode_eq hword, by rw [hpos]⟩)

/-- A register that is no store target of the command is as it was. -/
theorem exec_sameRegister {i : Instr} {s t : State} (hseq : seqInv s) (h : exec i s = .next t)
    (hbegin : i ≠ .begin) (hswreset : i ≠ .swreset) {a : Nat} (ha : ∀ r ∈ storeTargets s.params i, r.toNat ≠ a) :
    sameRegister a s t := by
  obtain rfl | ⟨-, rfl⟩ | ⟨p1, p2, p3, p4, cnt, k, rfl, rfl⟩ := exec_next_of_seqInv hseq h
  · obtain ⟨hparams, -, -⟩ := commandStart_frame i s
    refine (commandStart_sameRegister i s a).trans (runFrom_spares ?_ _ _)
    rw [hparams]
    exact commandScript_spares hbegin hswreset ha
  · exact ⟨rfl, rfl, rfl⟩
  · refine runFrom_spares (List.forall_mem_cons.mpr ⟨?_, by simp [opSpares]⟩) _ _
    exact ha

/-! ## BEGIN and SWRESET (R34, R117, R118, U2) -/

/-- BEGIN's bus initialisation makes the registers beside 0x00 and 0x01 unknown, and its writes spare them. -/
theorem runFrom_scriptBegin_read (pr : Params) (cmd : Word) (k : Nat) (s : State) {a : Nat} (h0 : a ≠ 0) (h1 : a ≠ 1) :
    Memory.read (runFrom cmd (scriptBegin pr) k s).chip a = none := by
  rw [scriptBegin, runFrom_cons rfl rfl, runFrom_cons rfl rfl]
  refine (runFrom_spares ?_ _ _).read.trans ?_
  · simp [opSpares, init0, init1, h0.symm, h1.symm]
  · rw [emit_chip, forgetBesideInit_read, if_neg (by omega)]

/-- The broadcast reset's transaction leaves no register known, and the command goes on or ends (R118; log
entry 10). -/
theorem perform_resetWrite (cmd : Word) (rest : List MicroOp) (k : Nat) (s : State) :
    ∃ t, t.chip = [] ∧ (perform (.busWrite resetDev resetMagic) cmd rest k s = goOn cmd rest (k + 1) t ∨
      perform (.busWrite resetDev resetMagic) cmd rest k s = raise .busTransportFailure k t) := by
  have heffect : ∀ ok u, busEffect resetDev resetMagic ok u = forgetChip u := fun ok u => if_pos rfl
  simp only [perform, chkBus, afterFailure, heffect]
  split
  · exact ⟨_, rfl, .inl rfl⟩
  · split
    · exact ⟨_, rfl, .inr rfl⟩
    · exact ⟨_, rfl, .inl rfl⟩

/-- The broadcast reset makes every register unknown, whether its transaction succeeds or not. -/
theorem runFrom_scriptSwreset_chip (cmd : Word) (k : Nat) (s : State) : (runFrom cmd scriptSwreset k s).chip = [] := by
  obtain ⟨t, hchip, hgo | hraise⟩ := perform_resetWrite cmd [.respond 0] k s
  · rw [scriptSwreset, runFrom_settle hgo, settle_respond, respond_chip, hchip]
  · rw [scriptSwreset, runFrom_end (by rw [hraise, paused_raise]), hraise, raise_chip, hchip]

/-- Settles O52: a command's script spares what is not its store target (`exec_sameRegister`); BEGIN and
SWRESET are held at no loop head and are well-formed, so they run their scripts. -/
theorem chipFrame : Obligations.ChipFrame := by
  refine ⟨fun i s t hseq h hbegin hswreset a ha => ?_, fun s t hseq h a h0 h1 => ?_, fun s t hseq h a => ?_⟩
  · have hsame := exec_sameRegister hseq h hbegin hswreset ha
    exact ⟨hsame.read, hsame.chipHolds⟩
  · obtain rfl | ⟨hill, -⟩ | ⟨_, _, _, _, _, _, hmove, -⟩ := exec_next_of_seqInv hseq h
    · exact runFrom_scriptBegin_read _ _ _ _ h0 h1
    · cases hill
    · cases hmove
  · obtain rfl | ⟨hill, -⟩ | ⟨_, _, _, _, _, _, hmove, -⟩ := exec_next_of_seqInv hseq h
    · exact congrArg (Memory.read · a) (runFrom_scriptSwreset_chip _ _ _)
    · cases hill
    · cases hmove

end Sys2Proof.Machine
end

section
/-! The word of a command and the fields a word holds (R60 to R67): encoding and decoding said once, as equivalences. -/

namespace Sys2Proof.Machine

open Sys2Proof

/-! ## Fields as numbers -/

/-- A field's value is the word shifted down and cut to the field's width (R12). -/
theorem wordField_eq_iff (w : Word) (lo n : Nat) (v : BitVec n) :
    wordField w lo n = v ↔ w.toNat / 2 ^ lo % 2 ^ n = v.toNat := by
  rw [← BitVec.toNat_inj, wordField_toNat]

/-- A bit is a field of one bit. -/
theorem wordBit_eq_iff (w : Word) (i : Nat) (b : Bool) : wordBit w i = b ↔ wordField w i 1 = BitVec.ofBool b := by
  rw [wordBit, beq_eq_decide]
  generalize wordField w i 1 = v
  revert v b
  decide

theorem placedBit_eq_placed (lo : Nat) (b : Bool) : placedBit lo b = placed lo (BitVec.ofBool b) := by
  cases b <;> simp [placedBit, placed]

/-- The word's opcode byte as a number (R60). -/
theorem opcodeOf_toNat (w : Word) : (opcodeOf w).toNat = w.toNat % 2 ^ 8 := by simp [opcodeOf, wordField_toNat]

theorem reservedClear_nil (w : Word) : reservedClear w [] = true := rfl

theorem reservedClear_cons (w : Word) (r : Nat × Nat) (rs : List (Nat × Nat)) :
    reservedClear w (r :: rs) = true ↔ wordField w r.1 r.2 = 0#r.2 ∧ reservedClear w rs = true := by
  simp [reservedClear]

/-! ## The formats -/

/-- The reserved ranges of the command's format (R62, R64). -/
def reservedRanges : Instr → List (Nat × Nat)
  | .setmode .. => reservedCM
  | .getmode .. => reservedC
  | .writeduty .. => reservedCV
  | .readduty .. => reservedC
  | .turnon .. => reservedC
  | .turnoff .. => reservedC
  | .setpwm .. => reservedCV
  | .allon .. => reservedD
  | .alloff => reservedN
  | .fadein .. => reservedF
  | .fadeout .. => reservedF
  | .cfgspeed .. => reservedS
  | .move .. => reservedM
  | .begin => reservedN
  | .swreset => reservedN

/-- The word's fields, read by the command's format, hold its operands (R62, R63). -/
def holdsOperands (w : Word) : Instr → Prop
  | .setmode ch mode all => fieldCh w = ch ∧ wordField w 12 2 = mode ∧ wordBit w 14 = all
  | .getmode ch => fieldCh w = ch
  | .writeduty ch val => fieldCh w = ch ∧ wordField w 16 8 = val
  | .readduty ch => fieldCh w = ch
  | .turnon ch => fieldCh w = ch
  | .turnoff ch => fieldCh w = ch
  | .setpwm ch val => fieldCh w = ch ∧ wordField w 16 8 = val
  | .allon dp dir => wordBit w 8 = dp ∧ wordBit w 9 = dir
  | .alloff => True
  | .fadein ch tgt dur => fieldCh w = ch ∧ wordField w 16 8 = tgt ∧ wordField w 32 32 = dur
  | .fadeout ch tgt dur => fieldCh w = ch ∧ wordField w 16 8 = tgt ∧ wordField w 32 32 = dur
  | .cfgspeed speed steps => wordField w 16 16 = speed ∧ wordField w 32 16 = steps
  | .move p1 p2 p3 p4 cnt =>
    fieldCh w = p1 ∧ wordField w 12 3 = p2 ∧ wordField w 16 3 = p3 ∧ wordField w 20 3 = p4 ∧ wordField w 32 32 = cnt
  | .begin => True
  | .swreset => True

/-- The fields of a format lie within the word (R62). -/
theorem opcode_add_operandBits_lt (i : Instr) : i.opcode + operandBits i < 2 ^ 64 := by
  cases i <;> simp only [Instr.opcode, operandBits, placed, placedBit_eq_placed] <;> omega

/-- A word is a command's exactly when its opcode byte is the command's, its fields hold the operands and its reserved
ranges are clear: in each format these tile the 64 bits (R60, R62, R64). -/
theorem encode_eq_iff (i : Instr) (w : Word) :
    encode i = w ↔
      (opcodeOf w).toNat = i.opcode ∧ holdsOperands w i ∧ reservedClear w (reservedRanges i) = true := by
  rw [← BitVec.toNat_inj, encode_toNat i (opcode_add_operandBits_lt i), opcodeOf_toNat]
  have hw := w.isLt
  cases i
  all_goals
    simp only [Instr.opcode, operandBits, placed, placedBit_eq_placed, holdsOperands, fieldCh, wordBit_eq_iff,
      wordField_eq_iff, reservedRanges, reservedC, reservedCM, reservedCV, reservedD, reservedF, reservedM, reservedN,
      reservedS, reservedClear_cons, reservedClear_nil, BitVec.toNat_zero, and_true, true_and]
    omega

/-- What the decoder reads from a word: the command whose opcode and operands the word holds, with its format's reserved
ranges. -/
theorem readFields_eq_some_iff (w : Word) (i : Instr) (rs : List (Nat × Nat)) :
    readFields w = some (i, rs) ↔ (opcodeOf w).toNat = i.opcode ∧ holdsOperands w i ∧ rs = reservedRanges i := by
  constructor
  · intro h
    unfold readFields at h
    split at h <;> cases h <;> exact ⟨‹_›, by simp [holdsOperands], rfl⟩
  · rintro ⟨hop, hi, rfl⟩
    cases i with
    | alloff | begin | swreset => simp [readFields, hop, Instr.opcode, reservedRanges]
    | _ => simpa [readFields, hop, Instr.opcode, reservedRanges, holdsOperands] using hi

/-- What the decoder does with what it reads (R62, R65). -/
theorem decode_eq_instr_iff_readFields (w : Word) (i : Instr) :
    decode w = .instr i ↔
      ∃ rs, readFields w = some (i, rs) ∧ reservedClear w rs = true ∧ i.wellFormed = true := by
  constructor
  · intro h
    unfold decode at h
    split at h
    · cases h
    next j rs hread =>
      split_ifs at h with hclear hwf
      cases h
      exact ⟨rs, hread, hclear, hwf⟩
  · rintro ⟨rs, hread, hclear, hwf⟩
    simp [decode, hread, hclear, hwf]

/-- The decoder answers a command exactly when the command is well-formed and the word is its word. -/
theorem decode_eq_instr_iff (w : Word) (i : Instr) : decode w = .instr i ↔ encode i = w ∧ i.wellFormed = true := by
  simp only [decode_eq_instr_iff_readFields, readFields_eq_some_iff, encode_eq_iff]
  constructor
  · rintro ⟨rs, ⟨hop, hi, rfl⟩, hclear, hwf⟩
    exact ⟨⟨hop, hi, hclear⟩, hwf⟩
  · rintro ⟨⟨hop, hi, hclear⟩, hwf⟩
    exact ⟨_, ⟨hop, hi, rfl⟩, hclear, hwf⟩

/-- Settles O1: the word of a command is the command's (`decode_eq_instr_iff`). -/
theorem decodeOfEncode : Obligations.DecodeOfEncode := fun i hwf => (decode_eq_instr_iff _ i).mpr ⟨rfl, hwf⟩

/-- Settles O2, the other direction of `decode_eq_instr_iff`. -/
theorem encodeOfDecode : Obligations.EncodeOfDecode := fun w i => (decode_eq_instr_iff w i).mp

/-- A line's word decodes to the line's command, which need only be well-formed. -/
theorem exists_line_of_encode {text : String} {w : Word} (line : Asm)
    (h : Asm.read text = some line ∧ encode line.toInstr = w ∧ line.toInstr.wellFormed = true) :
    ∃ line, Asm.read text = some line ∧ encode line.toInstr = w ∧ decode w = .instr line.toInstr := by
  obtain ⟨hread, hword⟩ := h
  exact ⟨line, hread, hword.1, (decode_eq_instr_iff w _).mpr hword⟩

/-- Settles O3: each text is read and its line encoded by evaluation; the way back is `exists_line_of_encode`. -/
theorem sampleCommandWords : Obligations.SampleCommandWords := by
  simp only [Obligations.SampleCommandWords, List.forall_mem_cons]
  refine ⟨?_, ?_, ?_, ?_, ?_, ?_, ?_, ?_, ?_, ?_, ?_, ?_, ?_, ?_, ?_, ?_, List.forall_mem_nil _⟩
  · exact exists_line_of_encode (.setmode 5 .pwm) (by decide)
  · exact exists_line_of_encode (.setmodeAll .on) (by decide)
  · exact exists_line_of_encode (.getmode 6) (by decide)
  · exact exists_line_of_encode (.writeduty 7 0x80) (by decide)
  · exact exists_line_of_encode (.turnon 0) (by decide)
  · exact exists_line_of_encode (.setpwm 3 128) (by decide)
  · exact exists_line_of_encode .allonFwd (by decide)
  · exact exists_line_of_encode .allonBwd (by decide)
  · exact exists_line_of_encode .alloff (by decide)
  · exact exists_line_of_encode (.fadeinFull 2 1000) (by decide)
  · exact exists_line_of_encode (.fadeoutFull 2 1000) (by decide)
  · exact exists_line_of_encode (.cfgspeed 60 200) (by decide)
  · exact exists_line_of_encode (.move 4 0 1 2 3) (by decide)
  · exact exists_line_of_encode (.move (-4) 0 1 2 3) (by decide)
  · exact exists_line_of_encode .begin (by decide)
  · exact exists_line_of_encode .swreset (by decide)

end Sys2Proof.Machine
end

section
/-! Legal words (R65 to R67): the mask test is that the reserved ranges are clear, the value checks are the command's
well-formedness, and what a step does with an illegal word. -/

namespace Sys2Proof.Machine

open Sys2Proof

/-! ## The mask test (R65) -/

/-- The bits of the field of `n` bits whose lowest bit is `lo`. -/
def fieldMask (lo n : Nat) : Word := (BitVec.allOnes n).setWidth 64 <<< lo

/-- The bits of the ranges. -/
def rangesMask (rs : List (Nat × Nat)) : Word := rs.foldr (fun r mask => fieldMask r.1 r.2 ||| mask) 0#64

theorem getLsbD_fieldMask (lo n : Nat) {i : Nat} (hi : i < 64) :
    (fieldMask lo n).getLsbD i = decide (lo ≤ i ∧ i < lo + n) := by
  rw [Bool.eq_iff_iff]
  simp only [fieldMask, BitVec.getLsbD_shiftLeft, BitVec.getLsbD_setWidth, BitVec.getLsbD_allOnes, Bool.and_eq_true,
    Bool.not_eq_true', decide_eq_true_eq, decide_eq_false_iff_not]
  omega

/-- A field is 0 exactly when masking the word with the field's bits gives 0. -/
theorem wordField_eq_zero_iff (w : Word) (lo n : Nat) : wordField w lo n = 0#n ↔ w &&& fieldMask lo n = 0#64 := by
  constructor
  · intro h
    refine BitVec.eq_of_getLsbD_eq fun i hi => ?_
    rw [BitVec.getLsbD_and, getLsbD_fieldMask lo n hi, BitVec.getLsbD_zero]
    by_cases hfield : lo ≤ i ∧ i < lo + n
    · have hbit := congrArg (BitVec.getLsbD · (i - lo)) h
      simpa [wordField, hfield, show i - lo < n by omega] using hbit
    · simp [hfield]
  · intro h
    refine BitVec.eq_of_getLsbD_eq fun i hi => ?_
    rw [wordField, BitVec.getLsbD_extractLsb', BitVec.getLsbD_zero]
    by_cases hword : lo + i < 64
    · have hbit := congrArg (BitVec.getLsbD · (lo + i)) h
      simpa [getLsbD_fieldMask lo n hword, hi] using hbit
    · simp [BitVec.getLsbD_of_ge w (lo + i) (by omega)]

/-- The reserved ranges are clear exactly when the word masked with their bits is 0. -/
theorem reservedClear_iff_mask (w : Word) (rs : List (Nat × Nat)) :
    reservedClear w rs = true ↔ w &&& rangesMask rs = 0#64 := by
  induction rs with
  | nil => simp [reservedClear_nil, rangesMask]
  | cons r rs ih =>
    rw [reservedClear_cons, ih, wordField_eq_zero_iff, ← BitVec.or_eq_zero_iff, ← BitVec.and_or_distrib_left]
    rfl

/-- The mask of a format is the opcode byte and the format's reserved ranges. -/
theorem formatMask_opcode (i : Instr) : formatMask i.opcode = 0xFF ||| rangesMask (reservedRanges i) := by
  cases i <;> simp only [Instr.opcode, reservedRanges] <;> decide

/-- No reserved range reaches into the opcode byte. -/
theorem opcodeMask_and_rangesMask (i : Instr) : 0xFF &&& rangesMask (reservedRanges i) = 0#64 := by
  cases i <;> simp only [reservedRanges] <;> decide

/-- The opcode byte as the match of the mask test. -/
theorem and_opcodeMask (w : Word) : w &&& 0xFF = BitVec.ofNat 64 (opcodeOf w).toNat := by
  have hmod : w.toNat &&& (0xFF : Word).toNat = w.toNat % 2 ^ 8 := Nat.and_two_pow_sub_one_eq_mod w.toNat 8
  simp only [← BitVec.toNat_inj, BitVec.toNat_and, BitVec.toNat_ofNat, opcodeOf_toNat, hmod]
  omega

/-- Of two disjoint masks, the union leaves no more of a word than the first exactly when the second leaves nothing. -/
theorem and_or_eq_and_iff {a m : Word} (h : a &&& m = 0#64) (w : Word) :
    w &&& (a ||| m) = w &&& a ↔ w &&& m = 0#64 := by
  constructor
  · intro hmask
    have habsorb : (a ||| m) &&& m = m := by rw [BitVec.and_or_distrib_right, h, BitVec.and_self, BitVec.zero_or]
    calc
      w &&& m = w &&& (a ||| m) &&& m := by rw [BitVec.and_assoc, habsorb]
      _ = 0#64 := by rw [hmask, BitVec.and_assoc, h, BitVec.and_zero]
  · intro hzero
    rw [BitVec.and_or_distrib_left, hzero, BitVec.or_zero]

/-- Given the opcode, the mask test of its format is that the reserved ranges are clear (R62, R65). -/
theorem maskTest_iff {w : Word} {i : Instr} (hop : (opcodeOf w).toNat = i.opcode) :
    w &&& formatMask (opcodeOf w).toNat = BitVec.ofNat 64 (opcodeOf w).toNat ↔
      reservedClear w (reservedRanges i) = true := by
  rw [← and_opcodeMask, hop, formatMask_opcode, and_or_eq_and_iff (opcodeMask_and_rangesMask i), reservedClear_iff_mask]

/-! ## The value checks (R65) -/

/-- The value checks on a word's bits are the well-formedness of the command whose opcode and operands it holds. -/
theorem valueChecks_iff {w : Word} {i : Instr} (hop : (opcodeOf w).toNat = i.opcode) (hi : holdsOperands w i) :
    valueChecks w ↔ i.wellFormed = true := by
  simp only [valueChecks, ← BitVec.toNat_inj (x := opcodeOf w), hop]
  cases i with
  | setmode ch mode all =>
    obtain ⟨rfl, rfl, rfl⟩ := hi
    simp [Instr.opcode, Instr.wellFormed, fieldCh, wordField, wordBit, imp_iff_not_or]
  | allon dp dir =>
    obtain ⟨rfl, rfl⟩ := hi
    have hbits : ∀ dp dir : BitVec 1, (dp = 0 → dir = 0) ↔ (dp = 1 ∨ ¬ dir = 1) := by decide
    simpa [Instr.opcode, Instr.wellFormed, wordField, wordBit] using hbits _ _
  | _ => simp [Instr.opcode, Instr.wellFormed]

/-- Every assigned opcode selects a command (R64, R66). -/
theorem exists_readFields {w : Word} (h1 : 1 ≤ (opcodeOf w).toNat) (h15 : (opcodeOf w).toNat ≤ 15) :
    ∃ i rs, readFields w = some (i, rs) := by
  unfold readFields
  generalize (opcodeOf w).toNat = op at h1 h15 ⊢
  interval_cases op <;> exact ⟨_, _, rfl⟩

/-- Settles O4: the decoder's two tests, on the command it reads, are the mask test (`maskTest_iff`) and the value checks
(`valueChecks_iff`). -/
theorem decodesWhenMaskAndChecksHold : Obligations.DecodesWhenMaskAndChecksHold := by
  intro w
  simp only [decode_eq_instr_iff_readFields, legalWord]
  constructor
  · rintro ⟨i, rs, hread, hclear, hwf⟩
    obtain ⟨hop, hi, rfl⟩ := (readFields_eq_some_iff w i rs).mp hread
    obtain ⟨h1, h15⟩ := Laws.OpcodeByte.opcode_range i
    exact ⟨hop ▸ h1, hop ▸ h15, (maskTest_iff hop).mpr hclear, (valueChecks_iff hop hi).mpr hwf⟩
  · rintro ⟨h1, h15, hmask, hvalues⟩
    obtain ⟨i, rs, hread⟩ := exists_readFields h1 h15
    obtain ⟨hop, hi, rfl⟩ := (readFields_eq_some_iff w i rs).mp hread
    exact ⟨i, _, hread, (maskTest_iff hop).mp hmask, (valueChecks_iff hop hi).mp hvalues⟩

/-- The decoder rejects an illegal word (R67). -/
theorem decode_illegal {w : Word} (h : ¬ legalWord w) : ∃ r, decode w = .illegal r := by
  cases hdec : decode w with
  | instr i => exact absurd ((decodesWhenMaskAndChecksHold w).mp ⟨i, hdec⟩) h
  | illegal r => exact ⟨r, rfl⟩

/-- Settles O5: the word is rejected (`decode_illegal`), so the step raises. -/
theorem illegalCommandIsRaised : Obligations.IllegalCommandIsRaised := by
  intro s w rest hidle hcmd hill
  obtain ⟨r, hr⟩ := decode_illegal hill
  simp only [step, hidle, hcmd, hr, raise_eq]

end Sys2Proof.Machine
end

section
/-! The mode codec (40_mode_codec.md): the registers of a channel (R72), the bulk patterns (R78), the laws of the codec
(R80), and what SETMODE and GETMODE leave, whichever of their transactions fail (R81 to R84). -/

namespace Sys2Proof.Machine

open Sys2Proof Sys2Proof.Config

/-! ## The registers of a channel (R72) -/

/-- The duty registers follow one another from 0x02 on (R72, R85). -/
theorem dutyReg_toNat (c : Chan) : (dutyReg c).toNat = c.toNat + 2 := by
  have hc := c.isLt
  simp [dutyReg, dutyBase]
  omega

/-- Settles O9: the mode register is chosen at channel 4, and the local index is the remainder by 4. -/
theorem channelRegisters : Obligations.ChannelRegisters := by
  intro c
  have hc := c.isLt
  refine ⟨fun hlow => ⟨if_pos hlow, Nat.mod_eq_of_lt hlow⟩, fun hhigh => ⟨if_neg (by omega), ?_⟩,
    dutyReg_toNat c⟩
  show c.toNat % 4 = c.toNat - 4
  omega

/-! ## The bulk patterns (R78) -/

/-- Every pair of a bulk pattern is the mode's code. -/
theorem bulk_field (pp : PairPos) (k : Fin 4) (m : Mode) :
    ((bulk m >>> pp.pos k).setWidth 2 : BitVec 2) = modeCode m := by
  have hpairs : ∀ slot : Fin 4, ((bulk m >>> (2 * slot.val)).setWidth 2 : BitVec 2) = modeCode m := by
    cases m <;> decide
  exact hpairs (pp.slot k)

/-- Settles O10: each field holds the mode's code (`bulk_field`), wherever it stands. -/
theorem bulkPatternsSetEveryField : Obligations.BulkPatternsSetEveryField :=
  ⟨rfl, rfl, rfl, fun pp k m => by rw [decodeField, bulk_field, modeOfCode_modeCode]⟩

/-! ## The laws of the codec (R80) -/

/-- Every pair of bits is the field of some local channel (R73). -/
theorem exists_slot_eq {pp : PairPos} (hpp : pp.wf) (p : Fin 4) : ∃ k, pp.slot k = p :=
  Finite.surjective_of_injective (fun j k h => not_imp_not.mp (hpp j k) h) p

/-- A byte is its four fields. -/
theorem eq_of_fields_eq {pp : PairPos} (hpp : pp.wf) {b c : Byte}
    (h : ∀ k, ((b >>> pp.pos k).setWidth 2 : BitVec 2) = (c >>> pp.pos k).setWidth 2) : b = c := by
  refine BitVec.eq_of_getLsbD_eq fun n hn => ?_
  obtain ⟨k, hk⟩ := exists_slot_eq hpp ⟨n / 2, by omega⟩
  have hpos : pp.pos k + n % 2 = n := by rw [PairPos.pos, hk]; exact Nat.div_add_mod n 2
  have hlt : n % 2 ≤ 1 := by omega
  have hbit := congrArg (·.getLsbD (n % 2)) (h k)
  simpa [hlt, hpos] using hbit

/-- The last write of a field wins (R80). -/
theorem encodeField_encodeField_same {pp : PairPos} (hpp : pp.wf) (b : Byte) (k : Fin 4) (m1 m2 : Mode) :
    encodeField pp (encodeField pp b k m1) k m2 = encodeField pp b k m2 := by
  refine eq_of_fields_eq hpp fun j => ?_
  by_cases hjk : j = k <;> simp [encodeField_field hpp, hjk]

/-- A field that is written again with its mode stays (R80, idempotence). -/
theorem encodeField_idem {pp : PairPos} (hpp : pp.wf) (b : Byte) (k : Fin 4) (m : Mode) :
    encodeField pp (encodeField pp b k m) k m = encodeField pp b k m := encodeField_encodeField_same hpp b k m m

/-- Writing one mode to every field makes the bulk pattern (R78, R80). -/
theorem encodeField_all_eq_bulk {pp : PairPos} (hpp : pp.wf) (b : Byte) (m : Mode) :
    encodeField pp (encodeField pp (encodeField pp (encodeField pp b 0 m) 1 m) 2 m) 3 m = bulk m := by
  refine eq_of_fields_eq hpp fun j => ?_
  simp only [encodeField_field hpp, bulk_field]
  match j with
  | 0 | 1 | 2 | 3 => rfl

/-- A field that is Invalid after a write was so before: the field written is not (R80). -/
theorem decodeField_of_encodeField_none {pp : PairPos} (hpp : pp.wf) {b : Byte} {k j : Fin 4} {m : Mode}
    (h : decodeField pp (encodeField pp b k m) j = none) : decodeField pp b j = none := by
  by_cases hjk : j = k
  · rw [hjk, decodeField_encodeField_same hpp] at h
    cases h
  · rwa [decodeField_encodeField_other hpp b hjk] at h

/-- Settles O11, law by law. -/
theorem codecLaws : Obligations.CodecLaws := fun _ b m m1 m2 hpp =>
  ⟨fun k => decodeField_encodeField_same hpp b k m, fun _ _ hjk => decodeField_encodeField_other hpp b hjk m,
    fun k => encodeField_idem hpp b k m, fun k => encodeField_encodeField_same hpp b k m1 m2,
    encodeField_all_eq_bulk hpp b m, fun _ _ => decodeField_of_encodeField_none hpp⟩

/-! ## SETMODE (R81 to R83) -/

/-- The response OK after some entries, whatever their statuses. -/
theorem respond_happened (s : State) (events : List Event) (l : List Bool) (bs : List Byte) (d : Byte) :
    respond d (happened s events l bs) = continued s events l bs d := by
  simp [continued, respond_eq, happened]

/-- `setModeAll`, its failures not ending the command. -/
theorem settle_setModeAll_goesOn {cmd : Word} {m : Mode} {rest : List MicroOp} {k : Nat} {s : State} {r w : Bool}
    {l : List Bool} (h : s.statusIn = r :: w :: l) (hp : (r = true ∧ w = true) ∨ s.params.busFail = .continue_) :
    settle cmd (setModeAll m ++ rest) k s =
      settle cmd rest (k + 2)
        (happened s (withStatuses [wrote s.params 0x0C (bulk m), wrote s.params 0x0D (bulk m)] [r, w]) l s.readIn) := by
  simp only [setModeAll, List.cons_append, List.nil_append]
  rw [settle_write_goesOn h (hp.imp_left And.left), settle_write_goesOn (by rfl) (by exact hp.imp_left And.right)]
  exact congrArg (settle cmd rest (k + 2)) (happened_happened _ _ _ _ _ _ _)

/-- An Idle sequencer accepts SETMODE of one channel and performs `setModeOne`. -/
theorem exec_setmode_one_settle {s : State} (ch : Chan) (m : Mode) (hs : s.seq = .idle) :
    exec (.setmode ch (modeCode m) false) s =
      .next (settle (encode (.setmode ch (modeCode m) false)) (setModeOne ch m ++ [.respond 0]) 0 s) := by
  have hscript : scriptSetmode ch (modeCode m) false = setModeOne ch m ++ [.respond 0] := by simp [scriptSetmode]
  rw [← hscript]
  exact runCommand_settle hs (wellFormed_setmode_one ch m) (by rw [hscript]; rfl)

/-- An Idle sequencer accepts SETMODE of all channels and performs `setModeAll`. -/
theorem exec_setmode_all_settle {s : State} (m : Mode) (hs : s.seq = .idle) :
    exec (.setmode 0 (modeCode m) true) s =
      .next (settle (encode (.setmode 0 (modeCode m) true)) (setModeAll m ++ [.respond 0]) 0 s) := by
  have hscript : scriptSetmode 0 (modeCode m) true = setModeAll m ++ [.respond 0] := by simp [scriptSetmode]
  rw [← hscript]
  exact runCommand_settle hs (by cases m <;> rfl) (by rw [hscript]; rfl)

/-- SETMODE of one channel, its failures not ending it. -/
theorem exec_setmode_one_goesOn {s : State} {ch : Chan} {m : Mode} {r w : Bool} {l : List Bool} {b : Byte}
    {bs : List Byte} (hs : s.seq = .idle) (h : s.statusIn = r :: w :: l)
    (hp : (r = true ∧ w = true) ∨ s.params.busFail = .continue_)
    (ha : answersAll s (withStatuses (rmwEvents s.params ch m b) [r, w]) bs) :
    exec (.setmode ch (modeCode m) false) s =
      .next (continued s (withStatuses (rmwEvents s.params ch m b) [r, w]) l bs 0) := by
  rw [exec_setmode_one_settle ch m hs, settle_setModeOne_goesOn h hp ha, settle_respond, respond_happened]

/-- SETMODE of all channels, its failures not ending it. -/
theorem exec_setmode_all_goesOn {s : State} {m : Mode} {r w : Bool} {l : List Bool} (hs : s.seq = .idle)
    (h : s.statusIn = r :: w :: l) (hp : (r = true ∧ w = true) ∨ s.params.busFail = .continue_) :
    exec (.setmode 0 (modeCode m) true) s =
      .next (continued s (withStatuses [wrote s.params 0x0C (bulk m), wrote s.params 0x0D (bulk m)] [r, w]) l
        s.readIn 0) := by
  rw [exec_setmode_all_settle m hs, settle_setModeAll_goesOn h hp, settle_respond, respond_happened]

/-- SETMODE of all channels, its first write failing under Abort: register A is unknown, B untouched (R148). -/
theorem exec_setmode_all_first_fails {s : State} {m : Mode} {l : List Bool} (hs : s.seq = .idle)
    (hp : s.params.busFail = .abort) (h : s.statusIn = false :: l) :
    exec (.setmode 0 (modeCode m) true) s = .next (raise .busTransportFailure 0
      (forgetReg modeA (emit (.memWrite s.params.devAddr modeA (bulk m) false) { s with statusIn := l }))) := by
  rw [exec_setmode_all_settle m hs, setModeAll, List.cons_append, settle_write_fail h hp]

/-- SETMODE of all channels, its second write failing under Abort: register A is written, B unknown (R148). -/
theorem exec_setmode_all_second_fails {s : State} {m : Mode} {l : List Bool} (hs : s.seq = .idle)
    (hp : s.params.busFail = .abort) (h : s.statusIn = true :: false :: l) :
    exec (.setmode 0 (modeCode m) true) s = .next (raise .busTransportFailure 1
      (forgetReg modeB (emit (.memWrite s.params.devAddr modeB (bulk m) false)
        { storeReg modeA (bulk m) (emit (wrote s.params modeA (bulk m)) s) with statusIn := l }))) := by
  rw [exec_setmode_all_settle m hs, setModeAll, List.cons_append, settle_write_ok h, List.cons_append,
    settle_write_fail (by rfl) (by exact hp)]
  rfl

/-- Settles O12: each form performs its sub-procedure, `setModeOne` or `setModeAll`, and each choice of statuses has
its lemma about that. -/
theorem setmodeCompletes : Obligations.SetmodeCompletes := by
  refine ⟨?_, ?_, ?_, ?_, ?_, ?_, ?_⟩
  · intro s ch m l b bs hs hok ha
    rw [exec_setmode_one hs hok ha]
    rfl
  · intro s m l hs hok
    rw [exec_setmode_all_goesOn hs hok (.inl ⟨rfl, rfl⟩)]
    simp [continued, completed, happened, withStatuses, wrote, storeAll, chipAfterEvent, lostAfterEvent]
  · intro s ch m l hs hp hfail
    rw [exec_setmode_one_settle ch m hs, settle_setModeOne_read_fails _ _ _ _ _ _ _ hp hfail]
  · intro s ch m l b bs hs hp hfail ha
    rw [exec_setmode_one_settle ch m hs, settle_setModeOne_write_fails _ _ _ _ _ _ _ _ _ hp hfail ha]
  · intro s m l hs hp
    refine ⟨fun hfail => ?_, fun hfail => ?_⟩
    · rw [exec_setmode_all_first_fails hs hp hfail]
      rfl
    · rw [exec_setmode_all_second_fails hs hp hfail]
      simp [raise, emit, errored, forgetReg, storeReg, modeA, modeB]
  · intro s ch m oks l b bs hs hp hlen hstatus events ha
    obtain ⟨r, w, rfl⟩ := List.length_eq_two.mp hlen
    exact exec_setmode_one_goesOn hs hstatus (.inr hp) ha
  · intro s m oks l hs hp hlen hstatus
    obtain ⟨r, w, rfl⟩ := List.length_eq_two.mp hlen
    exact exec_setmode_all_goesOn hs hstatus (.inr hp)

/-! ## GETMODE (R84) -/

/-- An Idle sequencer accepts GETMODE and performs its read. -/
theorem exec_getmode_settle {s : State} (ch : Chan) (hs : s.seq = .idle) :
    exec (.getmode ch) s = .next (settle (encode (.getmode ch)) [.read (modeReg ch) (.reportMode ch)] 0 s) :=
  runCommand_settle hs rfl rfl

/-- GETMODE goes on from the byte `b` its read answers to what the channel's field calls for. -/
theorem exec_getmode_goesOn {s : State} {ch : Chan} {ok : Bool} {l : List Bool} {b : Byte} {bs : List Byte}
    (hs : s.seq = .idle) (h : s.statusIn = ok :: l) (hp : ok = true ∨ s.params.busFail = .continue_)
    (ha : answersAll s [.memRead s.params.devAddr (modeReg ch) ok (some b)] bs) :
    exec (.getmode ch) s = .next (settle (encode (.getmode ch)) (afterRead s.params (.reportMode ch) b ++ []) 1
      (happened s [.memRead s.params.devAddr (modeReg ch) ok (some b)] l bs)) := by
  rw [exec_getmode_settle ch hs, settle_read_goesOn h hp ha]

/-- Settles O13: GETMODE goes on from the byte read, its field deciding the
response; a read that fails under Abort ends it. -/
theorem getmodeReportsTheField : Obligations.GetmodeReportsTheField := by
  refine ⟨?_, ?_⟩
  · intro s ch ok l b bs hs hstatus hread didRead
    have ⟨hgo, ha⟩ : (ok = true ∨ s.params.busFail = .continue_) ∧ answersAll s [didRead] bs := by
      obtain ⟨rfl, ha⟩ | ⟨rfl, hp, hb⟩ := hread
      · exact ⟨.inl rfl, bs, ha, rfl⟩
      · exact ⟨.inr hp, bs, hb, rfl⟩
    rw [exec_getmode_goesOn hs hstatus hgo ha]
    cases hfield : decodeField s.params.pairPos b (localIndex ch) with
    | none =>
      simp only [afterRead, hfield, List.cons_append, settle_raise]
      rfl
    | some m =>
      simp only [afterRead, hfield, List.cons_append, settle_respond]
      cases m <;> rfl
  · intro s ch l hs hfail hp
    rw [exec_getmode_settle ch hs, settle_read_fail hfail hp]
    rfl

end Sys2Proof.Machine
end

section
/-! Plain scripts and their entries (R14, R15, R18): a script of mode changes, writes and delays records one list of
entries, goes on through it whichever transactions may fail, and is cut within it by a failure under Abort (R127). -/

namespace Sys2Proof.Machine

open Sys2Proof Sys2Proof.Config

/-! ## The entries of a plain script -/

/-- The script `ops` records `es`, every transaction succeeding and each mode register read answering some byte. -/
inductive Records (p : Params) : List MicroOp → List Event → Prop where
  | nil : Records p [] []
  | write (a v : Byte) {ops : List MicroOp} {es : List Event} (h : Records p ops es) :
    Records p (.write a v :: ops) (wrote p a v :: es)
  | delay (d : Delay) {ops : List MicroOp} {es : List Event} (h : Records p ops es) :
    Records p (.delay d :: ops) (.delay d :: es)
  | modeChange (c : Chan) (m : Mode) (b : Byte) {ops : List MicroOp} {es : List Event} (h : Records p ops es) :
    Records p (setModeOne c m ++ ops) (rmwEvents p c m b ++ es)

theorem Records.append {p : Params} {ops ops' : List MicroOp} {es es' : List Event} (h : Records p ops es)
    (h' : Records p ops' es') : Records p (ops ++ ops') (es ++ es') := by
  induction h with
  | nil => exact h'
  | write a v _ ih => exact .write a v ih
  | delay d _ ih => exact .delay d ih
  | modeChange c m b _ ih => exact .modeChange c m b ih

theorem records_writes (p : Params) (ws : List (Byte × Byte)) :
    Records p (ws.map (fun w => .write w.1 w.2)) (ws.map (fun w => wrote p w.1 w.2)) := by
  induction ws with
  | nil => exact .nil
  | cons w ws ih => exact .write w.1 w.2 ih

theorem records_modeThenDuty (p : Params) (c : Chan) (m : Mode) (v b : Byte) :
    Records p (modeThenDuty c m v) (rmwEvents p c m b ++ [wrote p (dutyReg c) v]) :=
  .modeChange c m b (.write _ v .nil)

theorem records_modeThenDuty_each (p : Params) (m : Mode) (v : Byte) (side : List (Chan × Byte)) :
    Records p ((side.map Prod.fst).flatMap (fun c => modeThenDuty c m v))
      (side.flatMap (fun c => rmwEvents p c.1 m c.2 ++ [wrote p (dutyReg c.1) v])) := by
  induction side with
  | nil => exact .nil
  | cons c side ih => exact (records_modeThenDuty p c.1 m v c.2).append ih

/-! ## The transactions, statuses and bytes of the entries -/

@[simp] theorem transactionsIn_nil : transactionsIn [] = 0 := rfl

@[simp] theorem transactionsIn_wrote (p : Params) (a v : Byte) (es : List Event) :
    transactionsIn (wrote p a v :: es) = transactionsIn es + 1 := rfl

@[simp] theorem transactionsIn_delay (d : Delay) (es : List Event) :
    transactionsIn (.delay d :: es) = transactionsIn es := rfl

@[simp] theorem transactionsIn_rmwEvents_append (p : Params) (c : Chan) (m : Mode) (b : Byte) (es : List Event) :
    transactionsIn (rmwEvents p c m b ++ es) = transactionsIn es + 2 := rfl

/-- A delay takes no status. -/
theorem withStatuses_delay (d : Delay) (es : List Event) (oks : List Bool) :
    withStatuses (.delay d :: es) oks = .delay d :: withStatuses es oks := by simp [withStatuses]

/-- A delay does not fail. -/
theorem failedAt_delay (d : Delay) (es : List Event) (j : Nat) :
    failedAt (.delay d :: es) j = .delay d :: failedAt es j := by simp [failedAt]

/-- A delay takes no byte. -/
theorem answersAll_delay (s : State) (d : Delay) (es : List Event) (rest : List Byte) :
    answersAll s (.delay d :: es) rest ↔ answersAll (emit (.delay d) s) es rest := by
  simp only [answersAll]
  exact answersAll_congr (s := emit (.delay d) s) (t := s) rfl rfl rfl rfl rfl _ _

/-- A plain script does not stand at MOVE's loop head. -/
theorem Records.not_resting {p : Params} {ops : List MicroOp} {es : List Event} (h : Records p ops es) (d : Byte) :
    resting (ops ++ [.respond d]) = false := by
  cases h <;> rfl

/-- The entries of a plain script are those of its success. -/
theorem Records.withStatuses_ok {p : Params} {ops : List MicroOp} {es : List Event} (h : Records p ops es) :
    withStatuses es (List.replicate (transactionsIn es) true) = es := by
  induction h with
  | nil => rfl
  | write a v _ ih => exact congrArg (wrote p a v :: ·) ih
  | delay d _ ih => rw [transactionsIn_delay, withStatuses_delay, ih]
  | modeChange c m b _ ih => exact congrArg (rmwEvents p c m b ++ ·) ih

/-- A success loses no register. -/
theorem Records.lost {p : Params} {ops : List MicroOp} {es : List Event} (h : Records p ops es) (lost : List Nat) :
    es.foldl lostAfterEvent lost = lost := by
  induction h with
  | nil => rfl
  | write a v _ ih => exact ih
  | delay d _ ih => exact ih
  | modeChange c m b _ ih => exact ih

/-! ## Going on (R15) -/

/-- A plain script whose failures do not end the command leaves what its entries bring. -/
theorem Records.settle_goesOn {p : Params} {ops rest : List MicroOp} {es : List Event} (hr : Records p ops es)
    {cmd : Word} {k : Nat} {s : State} {oks l : List Bool} {bs : List Byte} (hparams : s.params = p)
    (hlen : oks.length = transactionsIn es) (h : s.statusIn = oks ++ l)
    (hp : (∀ ok ∈ oks, ok = true) ∨ s.params.busFail = .continue_) (ha : answersAll s (withStatuses es oks) bs) :
    settle cmd (ops ++ rest) k s =
      settle cmd rest (k + transactionsIn es) (happened s (withStatuses es oks) l bs) := by
  induction hr generalizing s k oks with
  | nil =>
    obtain rfl : oks = [] := List.eq_nil_of_length_eq_zero hlen
    obtain rfl : s.readIn = bs := ha
    obtain rfl : s.statusIn = l := h
    exact congrArg (settle cmd rest k) (by simp [happened, withStatuses])
  | write a v hr ih =>
    obtain ⟨ok, oks, rfl⟩ := List.exists_cons_of_length_eq_add_one hlen
    subst hparams
    obtain ⟨bs', hw, ha⟩ := (answersAll_cons s _ _ bs (oks ++ l)).1 ha
    obtain rfl : s.readIn = bs' := by cases ok <;> exact hw
    rw [List.cons_append, settle_write_goesOn (l := oks ++ l) h (hp.imp_left (· ok List.mem_cons_self)),
      ih (s := happened s [.memWrite s.params.devAddr a v ok] (oks ++ l) s.readIn) rfl (by simpa using hlen) rfl
        (hp.imp_left fun h x hx => h x (List.mem_cons_of_mem _ hx)) ha, happened_happened,
      transactionsIn_wrote, Nat.add_assoc, Nat.add_comm 1]
    rfl
  | delay d hr ih =>
    rw [withStatuses_delay] at ha ⊢
    rw [List.cons_append, settle_delay, ih (s := emit (.delay d) s) hparams hlen h hp
      ((answersAll_delay s d _ bs).1 ha)]
    simp [happened, emit, chipAfterEvent, lostAfterEvent]
  | modeChange c m b hr ih =>
    obtain ⟨r, oks, rfl⟩ := List.exists_cons_of_length_eq_add_one hlen
    obtain ⟨w, oks, rfl⟩ := List.exists_cons_of_length_eq_add_one (by simpa using hlen)
    subst hparams
    obtain ⟨bs', hrw, ha⟩ :=
      (answersAll_append s (withStatuses (rmwEvents s.params c m b) [r, w]) _ bs (oks ++ l)).1 ha
    rw [List.append_assoc,
      settle_setModeOne_goesOn (l := oks ++ l) h (hp.imp_left fun h => ⟨h r (by simp), h w (by simp)⟩) hrw,
      ih (s := happened s (withStatuses (rmwEvents s.params c m b) [r, w]) (oks ++ l) bs') rfl (by simpa using hlen) rfl
        (hp.imp_left fun h x hx => h x (by simp [hx])) ha, happened_happened,
      transactionsIn_rmwEvents_append, Nat.add_assoc, Nat.add_comm 2]
    rfl

/-! ## A failure under Abort (R127, R128) -/

/-- A command that went through the entries `pre` and is cut within the later ones is cut within them all. -/
theorem abortedAt_happened (s : State) (pre es : List Event) (k j : Nat) (l l' : List Bool) (bs bs' : List Byte) :
    abortedAt (happened s pre l bs) es (k + transactionsIn pre) j l' bs' =
      abortedAt s (pre ++ es) k (transactionsIn pre + j) l' bs' := by
  simp only [abortedAt, happened_happened, failedAt_append, Nat.add_assoc]

/-- A plain script whose transaction `j` fails under Abort is cut there. -/
theorem Records.settle_aborted {p : Params} {ops rest : List MicroOp} {es : List Event} (hr : Records p ops es)
    {cmd : Word} {k j : Nat} {s : State} {l : List Bool} {bs : List Byte} (hparams : s.params = p)
    (hp : s.params.busFail = .abort) (hj : j < transactionsIn es) (h : s.statusIn = List.replicate j true ++ false :: l)
    (ha : answersAll s (failedAt es j) bs) : settle cmd (ops ++ rest) k s = abortedAt s es k j l bs := by
  induction hr generalizing s k j with
  | nil => exact absurd hj (Nat.not_lt_zero j)
  | write a v hr ih =>
    subst hparams
    rw [List.cons_append]
    cases j with
    | zero =>
      obtain rfl : s.readIn = bs := ha
      rw [settle_write_fail h hp]
      rfl
    | succ j =>
      obtain ⟨_, rfl, ha⟩ :=
        (answersAll_cons s (wrote s.params a v) _ bs (List.replicate j true ++ false :: l)).1 ha
      rw [settle_write_goesOn (l := List.replicate j true ++ false :: l) h (.inl rfl)]
      have hrest := ih (k := k + 1)
        (s := happened s [wrote s.params a v] (List.replicate j true ++ false :: l) s.readIn)
        rfl hp (by simpa using hj) rfl ha
      exact hrest.trans ((abortedAt_happened s [wrote s.params a v] _ k j _ _ _ _).trans (by rw [Nat.add_comm]; rfl))
  | delay d hr ih =>
    rw [failedAt_delay] at ha
    rw [List.cons_append, settle_delay, ih (s := emit (.delay d) s) hparams hp hj h ((answersAll_delay s d _ bs).1 ha)]
    simp [abortedAt, errored, happened, failedAt_delay, emit, chipAfterEvent, lostAfterEvent]
  | modeChange c m b hr ih =>
    subst hparams
    rw [List.append_assoc]
    match j with
    | 0 =>
      obtain rfl : s.readIn = bs := ha
      rw [settle_setModeOne_read_fails _ _ _ _ _ _ _ hp h]
      rfl
    | 1 =>
      obtain ⟨_, hb, rfl⟩ := ha
      rw [settle_setModeOne_write_fails _ _ _ _ _ _ _ _ _ hp h hb]
      rfl
    | j + 2 =>
      obtain ⟨bs', hrw, ha⟩ := (answersAll_append s (rmwEvents s.params c m b) _ bs
        (List.replicate j true ++ false :: l)).1 ha
      rw [settle_setModeOne_goesOn (l := List.replicate j true ++ false :: l) h
        (.inl ⟨rfl, rfl⟩) hrw]
      have hrest := ih (k := k + 2)
        (s := happened s (rmwEvents s.params c m b) (List.replicate j true ++ false :: l) bs') rfl hp
        (by simpa using hj) rfl ha
      exact hrest.trans
        ((abortedAt_happened s (rmwEvents s.params c m b) _ k j _ _ _ _).trans (by rw [Nat.add_comm]; rfl))

/-! ## Commands that make a plain script and respond (OK, 0) -/

/-- `continued` in the terms of `completed`: only a failed write loses its register. -/
theorem continued_eq_completed (s : State) (es : List Event) (l : List Bool) (bs : List Byte) (d : Byte) :
    continued s es l bs d =
      completed { s with lost := es.foldl lostAfterEvent s.lost } l bs (es.foldl chipAfterEvent s.chip) d es := by
  simp [continued, happened, completed]

/-- An accepted command `i` performs `ops`, then responds (OK, 0). -/
structure Performs (i : Instr) (ops : List MicroOp) (s : State) : Prop where
  idle : s.seq = .idle
  legal : i.wellFormed = true
  runs : exec i s = runCommand i s (ops ++ [.respond 0]) s

section
variable {i : Instr} {ops : List MicroOp} {s : State} {es : List Event} {l : List Bool} {bs : List Byte}

theorem Performs.exec_settle (h : Performs i ops s) (hr : Records s.params ops es) :
    exec i s = .next (settle (encode i) (ops ++ [.respond 0]) 0 s) := by
  rw [h.runs, runCommand_settle h.idle h.legal (hr.not_resting 0)]

/-- Its failures not ending it, the command leaves what its entries bring and responds. -/
theorem Performs.continues (h : Performs i ops s) (hr : Records s.params ops es) {oks : List Bool}
    (hp : (∀ ok ∈ oks, ok = true) ∨ s.params.busFail = .continue_) (hlen : oks.length = transactionsIn es)
    (hstatus : s.statusIn = oks ++ l) (ha : answersAll s (withStatuses es oks) bs) :
    exec i s = .next (continued s (withStatuses es oks) l bs 0) := by
  rw [h.exec_settle hr, hr.settle_goesOn rfl hlen hstatus hp ha, settle_respond, respond_happened]

/-- Every transaction succeeding, the command makes its writes and responds. -/
theorem Performs.completes (h : Performs i ops s) (hr : Records s.params ops es)
    (hstatus : s.statusIn = List.replicate (transactionsIn es) true ++ l) (ha : answersAll s es bs) :
    exec i s = .next (completed s l bs (es.foldl chipAfterEvent s.chip) 0 es) := by
  have hrun := h.continues hr (.inl fun ok hok => List.eq_of_mem_replicate hok) List.length_replicate hstatus
    (by rwa [hr.withStatuses_ok])
  rw [hrun, hr.withStatuses_ok, continued_eq_completed, hr.lost]

/-- Its transaction `j` failing under Abort, the command is cut there. -/
theorem Performs.aborts (h : Performs i ops s) (hr : Records s.params ops es) {j : Nat}
    (hp : s.params.busFail = .abort) (hj : j < transactionsIn es)
    (hstatus : s.statusIn = List.replicate j true ++ false :: l) (ha : answersAll s (failedAt es j) bs) :
    exec i s = .next (abortedAt s es 0 j l bs) := by
  rw [h.exec_settle hr, hr.settle_aborted rfl hp hj hstatus ha]

end

end Sys2Proof.Machine
end

section
/-! The PWM engine (41_pwm_engine.md): what WRITEDUTY, READDUTY, TURNON, TURNOFF, SETPWM, ALLON and ALLOFF leave (R86 to
R92), whichever of their transactions fail. -/

namespace Sys2Proof.Machine

open Sys2Proof Sys2Proof.Config

/-! ## WRITEDUTY (R86) -/

theorem performs_writeduty {s : State} (ch : Chan) (v : Byte) (hs : s.seq = .idle) :
    Performs (.writeduty ch v) [.write (dutyReg ch) v] s := ⟨hs, rfl, rfl⟩

/-- Settles O16: WRITEDUTY's script is one write, which succeeds, is cut or goes on. -/
theorem writedutyWritesOneRegister : Obligations.WritedutyWritesOneRegister := by
  have hrecords : ∀ (s : State) (ch : Chan) (v : Byte),
      Records s.params [.write (dutyReg ch) v] [wrote s.params (dutyReg ch) v] := fun s ch v =>
    .write (dutyReg ch) v .nil
  refine ⟨fun s ch v l hs hok => ?_, fun s ch v l hs hfail hp => ?_, fun s ch v l hs hfail hp => ?_⟩
  · exact (performs_writeduty ch v hs).completes (hrecords s ch v) hok rfl
  · exact (performs_writeduty ch v hs).aborts (hrecords s ch v) (j := 0) hp Nat.zero_lt_one hfail rfl
  · have hrun := (performs_writeduty ch v hs).continues (hrecords s ch v) (oks := [false]) (.inr hp) rfl hfail rfl
    rwa [continued_eq_completed] at hrun

/-! ## READDUTY (R87) -/

/-- A read that succeeds, or whose failure under Continue draws a byte, answers `b` and does not end the command. -/
theorem read_goesOn {s : State} {dev : DevAddr} {a b : Byte} {ok : Bool} {bs : List Byte}
    (h : (ok = true ∧ answers s a b bs) ∨ (ok = false ∧ s.params.busFail = .continue_ ∧ s.readIn = b :: bs)) :
    (ok = true ∨ s.params.busFail = .continue_) ∧ answersAll s [.memRead dev a ok (some b)] bs := by
  obtain ⟨rfl, ha⟩ | ⟨rfl, hp, hb⟩ := h
  · exact ⟨.inl rfl, bs, ha, rfl⟩
  · exact ⟨.inr hp, bs, hb, rfl⟩

/-- An Idle sequencer accepts READDUTY and performs its read. -/
theorem exec_readduty_settle {s : State} (ch : Chan) (hs : s.seq = .idle) :
    exec (.readduty ch) s = .next (settle (encode (.readduty ch)) [.read (dutyReg ch) .reportByte] 0 s) :=
  runCommand_settle hs rfl rfl

/-- Settles O17: READDUTY goes on from the byte its read answers to the response that carries it; a read that fails
under Abort ends it. -/
theorem readdutyReturnsTheByteRead : Obligations.ReaddutyReturnsTheByteRead := by
  refine ⟨fun s ch ok l b bs hs hstatus hread => ?_, fun s ch l hs hfail hp => ?_⟩
  · obtain ⟨hgo, ha⟩ := read_goesOn (dev := s.params.devAddr) hread
    rw [exec_readduty_settle ch hs, settle_read_goesOn hstatus hgo ha, afterRead, List.cons_append, settle_respond,
      respond_happened, continued_eq_completed]
    rfl
  · rw [exec_readduty_settle ch hs, settle_read_fail hfail hp]
    rfl

/-! ## TURNON, TURNOFF and SETPWM (R88 to R90) -/

/-- The commands that set a channel's mode and then its duty, with the mode and the duty of each. -/
def modeThenDutyCommands (ch : Chan) (v : Byte) : List (Instr × Mode × Byte) :=
  [(.turnon ch, .on, 255), (.turnoff ch, .off, 0), (.setpwm ch v, .pwm, v)]

theorem performs_modeThenDuty {s : State} {ch : Chan} {v : Byte} (hs : s.seq = .idle) :
    ∀ row ∈ modeThenDutyCommands ch v, Performs row.1 (modeThenDuty ch row.2.1 row.2.2) s := by
  simp only [modeThenDutyCommands, List.forall_mem_cons]
  exact ⟨⟨hs, rfl, rfl⟩, ⟨hs, rfl, rfl⟩, ⟨hs, rfl, rfl⟩, by simp⟩

/-- Settles O18: each command performs `modeThenDuty`, whose read answers `b`. -/
theorem modeThenDutyCompletes : Obligations.ModeThenDutyCompletes := by
  intro s ch v l b bs hs row hrow events
  have hperforms := performs_modeThenDuty hs row hrow
  have hrecords := records_modeThenDuty s.params ch row.2.1 row.2.2 b
  refine ⟨fun hok ha => ?_, fun oks hp hlen hstatus ha => ?_⟩
  · exact hperforms.completes hrecords hok ⟨bs, ha, rfl⟩
  · exact hperforms.continues hrecords (.inr hp) hlen hstatus ha

/-- Settles O19: each command performs `modeThenDuty`, cut at its read, its mode write or its duty write. -/
theorem modeThenDutyFailures : Obligations.ModeThenDutyFailures := by
  intro s ch v l b bs hs hp row hrow field didRead
  have hperforms := performs_modeThenDuty hs row hrow
  have hrecords := records_modeThenDuty s.params ch row.2.1 row.2.2 b
  refine ⟨fun hfail => ?_, fun ha hfail => ?_, fun ha hfail => ?_⟩
  · exact hperforms.aborts hrecords (j := 0) hp (by simp) hfail rfl
  · exact hperforms.aborts hrecords (j := 1) hp (by simp) hfail ⟨bs, ha, rfl⟩
  · exact hperforms.aborts hrecords (j := 2) hp (by simp) hfail ⟨bs, ha, rfl⟩

/-! ## ALLON without a direction and ALLOFF (R91, R92) -/

/-- The writes of a bulk command, in order: both mode registers, then the eight duty registers. -/
def bulkWrites (m : Mode) (v : Byte) : List (Byte × Byte) :=
  [(0x0C, bulk m), (0x0D, bulk m)] ++
    ([0x02, 0x03, 0x04, 0x05, 0x06, 0x07, 0x08, 0x09] : List Byte).map (fun a => (a, v))

theorem performs_allon_bulk {s : State} (hs : s.seq = .idle) :
    Performs (.allon false false) ((bulkWrites .on 0xFF).map (fun w => .write w.1 w.2)) s := ⟨hs, rfl, rfl⟩

theorem performs_alloff {s : State} (hs : s.seq = .idle) :
    Performs .alloff ((bulkWrites .off 0x00).map (fun w => .write w.1 w.2)) s := ⟨hs, rfl, rfl⟩

theorem transactionsIn_writes (p : Params) (ws : List (Byte × Byte)) :
    transactionsIn (ws.map (fun w => wrote p w.1 w.2)) = ws.length := by
  induction ws with
  | nil => rfl
  | cons w ws ih => simpa using ih

theorem writes_no_read (p : Params) (ws : List (Byte × Byte)) :
    ∀ e ∈ ws.map (fun w => wrote p w.1 w.2), ∀ dev a ok v, e ≠ .memRead dev a ok v :=
  List.forall_mem_map.mpr fun _ _ => nofun

/-- Writes take no byte, whatever their statuses. -/
theorem answersAll_writes (s : State) (ws : List (Byte × Byte)) (oks : List Bool) :
    answersAll s (withStatuses (ws.map (fun w => wrote s.params w.1 w.2)) oks) s.readIn :=
  (answersAll_of_no_read _ _ _ (withStatuses_no_read _ _ (writes_no_read s.params ws))).2 rfl

/-- A failure among writes leaves those before it and itself. -/
theorem failedAt_writes (p : Params) (ws : List (Byte × Byte)) (j : Nat) (hj : j < ws.length) :
    failedAt (ws.map (fun w => wrote p w.1 w.2)) j =
      (ws.take j).map (fun w => wrote p w.1 w.2) ++
        [.memWrite p.devAddr (ws.getD j (0, 0)).1 (ws.getD j (0, 0)).2 false] := by
  induction ws generalizing j with
  | nil => exact absurd hj (Nat.not_lt_zero j)
  | cons w ws ih =>
    cases j with
    | zero => rfl
    | succ j => exact congrArg (wrote p w.1 w.2 :: ·) (ih j (by simpa using hj))

/-- A command of writes only, all succeeding. -/
theorem Performs.completes_writes {i : Instr} {ws : List (Byte × Byte)} {s : State} {l : List Bool}
    (h : Performs i (ws.map (fun w => .write w.1 w.2)) s) (hstatus : s.statusIn = List.replicate ws.length true ++ l) :
    exec i s = .next (completed s l s.readIn (storeAll s.chip ws) 0 (ws.map (fun w => wrote s.params w.1 w.2))) := by
  have hrecords := records_writes s.params ws
  have hread := answersAll_writes s ws (List.replicate (transactionsIn (ws.map (fun w => wrote s.params w.1 w.2))) true)
  rw [hrecords.withStatuses_ok] at hread
  rw [h.completes hrecords (by rwa [transactionsIn_writes]) hread, foldl_chipAfterEvent_wrote]

/-- Settles O20: each command performs its ten writes. -/
theorem bulkCommandsComplete : Obligations.BulkCommandsComplete := by
  intro s l hs row hrow events
  have ⟨hperforms, hten⟩ : Performs row.1 (row.2.map (fun w => .write w.1 w.2)) s ∧ row.2.length = 10 := by
    obtain rfl | rfl : row = _ ∨ row = _ := by simpa using hrow
    · exact ⟨performs_allon_bulk hs, rfl⟩
    · exact ⟨performs_alloff hs, rfl⟩
  refine ⟨fun hok => hperforms.completes_writes (by rwa [hten]), fun oks hp hlen hstatus => ?_⟩
  have hcount : oks.length = transactionsIn events := by rw [hlen, transactionsIn_writes, hten]
  exact hperforms.continues (records_writes s.params row.2) (.inr hp) hcount hstatus (answersAll_writes s row.2 oks)

/-- A bulk command whose write `j` fails keeps the writes before it; its own register is unknown (R127, R148). -/
theorem abortedAt_writes (s : State) (ws : List (Byte × Byte)) (j : Nat) (hj : j < ws.length) (l : List Bool) :
    abortedAt s (ws.map (fun w => wrote s.params w.1 w.2)) 0 j l s.readIn =
      errored
        { s with
          statusIn := l
          chip := Memory.forget (storeAll s.chip (ws.take j)) (ws.getD j (0, 0)).1.toNat
          lost := (ws.getD j (0, 0)).1.toNat :: s.lost
          trace := s.trace ++ (ws.take j).map (fun w => wrote s.params w.1 w.2) ++
            [.memWrite s.params.devAddr (ws.getD j (0, 0)).1 (ws.getD j (0, 0)).2 false] }
        .busTransportFailure j := by
  have hchip := foldl_chipAfterEvent_wrote s.params s.chip (ws.take j)
  have hlost := (records_writes s.params (ws.take j)).lost s.lost
  rw [abortedAt, failedAt_writes _ _ _ hj, happened, List.foldl_append, List.foldl_append, hchip, hlost, Nat.zero_add,
    ← List.append_assoc]
  rfl

/-- Settles O21: the ten writes are cut at write `j`. -/
theorem bulkCommandFailure : Obligations.BulkCommandFailure := by
  intro s l j hs hp hfail row hrow writes failed
  have hperforms : Performs row.1 (writes.map (fun w => .write w.1 w.2)) s := by
    obtain rfl | rfl : row = _ ∨ row = _ := by simpa using hrow
    · exact performs_allon_bulk hs
    · exact performs_alloff hs
  have hj : j.val < transactionsIn (writes.map (fun w => wrote s.params w.1 w.2)) :=
    (transactionsIn_writes s.params writes).symm ▸ j.isLt
  have hread : answersAll s (failedAt (writes.map (fun w => wrote s.params w.1 w.2)) j.val) s.readIn := by
    rw [failedAt_writes _ _ _ j.isLt]
    exact (answersAll_of_no_read _ _ _ (List.forall_mem_append.mpr
      ⟨writes_no_read s.params (writes.take j.val), by simp⟩)).2 rfl
  rw [hperforms.aborts (records_writes s.params writes) hp hj hfail hread, abortedAt_writes s writes j.val j.isLt]

/-! ## ALLON with a direction (R91) -/

theorem performs_allon_directed {s : State} (dir : Bool) (hs : s.seq = .idle) :
    Performs (.allon true dir) ((sideChannels dir).flatMap (fun c => modeThenDuty c .on 255)) s := ⟨hs, rfl, rfl⟩

/-- The register file after the mode and duty of some channels, their mode registers reading the bytes given. -/
theorem foldl_chipAfterEvent_modeThenDuty (p : Params) (m : Mode) (v : Byte) (side : List (Chan × Byte))
    (chip : Memory) :
    (side.flatMap (fun c => rmwEvents p c.1 m c.2 ++ [wrote p (dutyReg c.1) v])).foldl chipAfterEvent chip =
      storeAll chip (side.flatMap (fun c =>
        [(modeReg c.1, encodeField p.pairPos c.2 (localIndex c.1) m), (dutyReg c.1, v)])) := by
  induction side generalizing chip with
  | nil => rfl
  | cons c side ih => exact ih _

/-- Settles O22: the script is `modeThenDuty` of four channels, whose reads answer `b1` to `b4`. -/
theorem directedAllonCompletes : Obligations.DirectedAllonCompletes := by
  intro s dir l b1 b2 b3 b4 bs hs side events
  have hrecords : Records s.params ((sideChannels dir).flatMap (fun c => modeThenDuty c .on 255)) events := by
    have hside : sideChannels dir = side.map Prod.fst := by cases dir <;> rfl
    rw [hside]
    exact records_modeThenDuty_each s.params .on 255 side
  have hcount : transactionsIn events = 12 := by cases dir <;> rfl
  have hperforms := performs_allon_directed dir hs
  refine ⟨fun hok ha => ?_, fun j hp hfail ha => ?_, fun oks hp hlen hstatus ha => ?_⟩
  · rw [hperforms.completes hrecords (by rwa [hcount]) ha, foldl_chipAfterEvent_modeThenDuty]
  · exact hperforms.aborts hrecords hp (by rw [hcount]; exact j.isLt) hfail ha
  · exact hperforms.continues hrecords (.inr hp) (hlen.trans hcount.symm) hstatus ha

end Sys2Proof.Machine
end

section
/-! What the PWM engine's commands leave on the reference register file (20_memory.md R44, 41_pwm_engine.md): ALLON with
a direction sets one side and spares the other (R91), and the bulk commands leave in the mode registers what SETMODE of
the eight channels leaves (R93). -/

namespace Sys2Proof.Machine

open Sys2Proof Sys2Proof.Config

/-! ## Setting the modes of some channels -/

/-- The mode the register file holds for channel `c`; `none` is Invalid (R76). -/
def chipMode (s : State) (c : Chan) : Option Mode :=
  decodeField s.params.pairPos (chipHolds s (modeReg c).toNat) (localIndex c)

/-- The mode register of channel `c` is known. -/
def modeKnown (s : State) (c : Chan) : Prop := ∃ b, Memory.read s.chip (modeReg c).toNat = some b

/-- From `s` to `t` the mode `m` was set for the channels `cs`, and for no other. -/
structure ModesSet (cs : List Chan) (m : Mode) (s t : State) : Prop where
  params : t.params = s.params
  chosen : ∀ c ∈ cs, modeKnown t c ∧ chipMode t c = some m
  others : ∀ c, c ∉ cs → chipMode t c = chipMode s c ∧ (modeKnown s c → modeKnown t c)

theorem ModesSet.nil (m : Mode) (s : State) : ModesSet [] m s s := ⟨rfl, nofun, fun _ _ => ⟨rfl, id⟩⟩

theorem ModesSet.cons {c : Chan} {cs : List Chan} {m : Mode} {s t u : State} (h : ModesSet [c] m s t)
    (h' : ModesSet cs m t u) : ModesSet (c :: cs) m s u where
  params := h'.params.trans h.params
  chosen := fun c' hc' => by
    by_cases hmem : c' ∈ cs
    · exact h'.chosen c' hmem
    · obtain rfl : c' = c := (List.mem_cons.1 hc').resolve_right hmem
      obtain ⟨hknown, hmode⟩ := h.chosen c' List.mem_cons_self
      obtain ⟨hkeeps, hknows⟩ := h'.others c' hmem
      exact ⟨hknows hknown, hkeeps.trans hmode⟩
  others := fun c' hc' => by
    obtain ⟨hne, hmem⟩ := not_or.1 (mt List.mem_cons.2 hc')
    obtain ⟨hkeeps, hknows⟩ := h.others c' (mt List.mem_singleton.1 hne)
    obtain ⟨hkeeps', hknows'⟩ := h'.others c' hmem
    exact ⟨hkeeps'.trans hkeeps, hknows' ∘ hknows⟩

/-- Writes that spare the mode registers set no mode. -/
theorem ModesSet.of_sameRegister {cs : List Chan} {m : Mode} {s t u : State} (h : ModesSet cs m s t)
    (hparams : u.params = t.params) (hsame : ∀ c, sameRegister (modeReg c).toNat t u) : ModesSet cs m s u := by
  have hmode : ∀ c, chipMode u c = chipMode t c := fun c => by rw [chipMode, chipMode, hparams, (hsame c).chipHolds]
  have hknown : ∀ c, modeKnown u c ↔ modeKnown t c := fun c => by rw [modeKnown, modeKnown, (hsame c).read]
  refine ⟨hparams.trans h.params, fun c hc => ?_, fun c hc => ?_⟩
  · rw [hmode, hknown]
    exact h.chosen c hc
  · rw [hmode, hknown]
    exact h.others c hc

/-- Writing back the mode register with the field of `ch` set sets the mode of `ch` (R80, R81). -/
theorem modesSet_storeReg {s : State} (hpp : s.params.pairPos.wf) (ch : Chan) (m : Mode) :
    ModesSet [ch] m s (storeReg (modeReg ch)
      (encodeField s.params.pairPos (chipHolds s (modeReg ch).toNat) (localIndex ch) m) s) := by
  refine ⟨rfl, List.forall_mem_singleton.2 ⟨⟨_, Memory.read_write_same _ _ _⟩, ?_⟩, fun c hc => ?_⟩
  · rw [chipMode, chipHolds_storeReg_same, storeReg_params, decodeField_encodeField_same hpp]
  · rw [chipMode, chipMode, modeKnown, modeKnown, storeReg_params, storeReg_chip]
    by_cases hreg : modeReg c = modeReg ch
    · rw [hreg, chipHolds_storeReg_same,
        decodeField_encodeField_other hpp _ (localIndex_ne (mt List.mem_singleton.2 hc) hreg)]
      exact ⟨rfl, fun _ => ⟨_, Memory.read_write_same _ _ _⟩⟩
    · have haddr : (modeReg c).toNat ≠ (modeReg ch).toNat := mt BitVec.eq_of_toNat_eq hreg
      rw [chipHolds_storeReg_other _ _ _ haddr, Memory.read_write_other _ _ _ _ haddr]
      exact ⟨rfl, id⟩

/-! ## ALLON with a direction: one side (R91) -/

/-- From `s` to `t` the duty `v` was written for the channels `cs`, and for no other. -/
structure DutiesSet (cs : List Chan) (v : Byte) (s t : State) : Prop where
  chosen : ∀ c ∈ cs, Memory.read t.chip (dutyReg c).toNat = some v
  others : ∀ c, c ∉ cs → Memory.read t.chip (dutyReg c).toNat = Memory.read s.chip (dutyReg c).toNat

theorem DutiesSet.nil (v : Byte) (s : State) : DutiesSet [] v s s := ⟨nofun, fun _ _ => rfl⟩

theorem DutiesSet.cons {c : Chan} {cs : List Chan} {v : Byte} {s t u : State} (h : DutiesSet [c] v s t)
    (h' : DutiesSet cs v t u) : DutiesSet (c :: cs) v s u where
  chosen := fun c' hc' => by
    by_cases hmem : c' ∈ cs
    · exact h'.chosen c' hmem
    · obtain rfl : c' = c := (List.mem_cons.1 hc').resolve_right hmem
      exact (h'.others c' hmem).trans (h.chosen c' List.mem_cons_self)
  others := fun c' hc' => by
    obtain ⟨hne, hmem⟩ := not_or.1 (mt List.mem_cons.2 hc')
    exact (h'.others c' hmem).trans (h.others c' (mt List.mem_singleton.1 hne))

theorem dutyReg_inj {c c' : Chan} (h : (dutyReg c).toNat = (dutyReg c').toNat) : c = c' :=
  BitVec.eq_of_toNat_eq (by simpa [dutyReg_toNat] using h)

/-- No register is both a mode and a duty register (R72). -/
theorem dutyReg_ne_modeReg (c c' : Chan) : (dutyReg c).toNat ≠ (modeReg c').toNat := by
  revert c c'
  decide

/-- Writing the duty register of `ch`, the other duty registers being as in `s`. -/
theorem dutiesSet_write {s t : State} {chip : Memory} {ch : Chan} {v : Byte}
    (ht : t.chip = Memory.write chip (dutyReg ch).toNat v)
    (hchip : ∀ c, Memory.read chip (dutyReg c).toNat = Memory.read s.chip (dutyReg c).toNat) :
    DutiesSet [ch] v s t := by
  refine ⟨List.forall_mem_singleton.2 ?_, fun c hc => ?_⟩
  · rw [ht, Memory.read_write_same]
  · rw [ht, Memory.read_write_other _ _ _ _ (mt dutyReg_inj (mt List.mem_singleton.2 hc)), hchip]

/-- The mode and the duty of one channel, all three transactions succeeding. -/
theorem settle_modeThenDuty_sets {cmd : Word} {rest : List MicroOp} {k : Nat} {s : State} {l : List Bool} (c : Chan)
    (m : Mode) (v : Byte) (ho : s.params.oracle = .registerFile) (hpp : s.params.pairPos.wf)
    (hstatus : s.statusIn = true :: true :: true :: l) :
    ∃ t, settle cmd (modeThenDuty c m v ++ rest) k s = settle cmd rest (k + 3) t ∧ t.statusIn = l ∧
      ModesSet [c] m s t ∧ DutiesSet [c] v s t := by
  rw [modeThenDuty, List.append_assoc, settle_setModeOne cmd c m _ k s _ _ _ hstatus (answers_chipHolds ho _),
    List.cons_append, settle_write_ok rfl]
  refine ⟨_, rfl, rfl, ?_, ?_⟩
  · refine (modesSet_storeReg hpp c m).of_sameRegister rfl fun c' => ?_
    exact sameRegister_storeReg (dutyReg_ne_modeReg c c') v _
  · exact dutiesSet_write rfl fun c' => Memory.read_write_other _ _ _ _ (dutyReg_ne_modeReg c' c)

/-- The mode and the duty of some channels, all transactions succeeding. -/
theorem settle_modeThenDuty_each {cmd : Word} {rest : List MicroOp} {k : Nat} {s : State} {l : List Bool}
    (cs : List Chan) (m : Mode) (v : Byte) (ho : s.params.oracle = .registerFile) (hpp : s.params.pairPos.wf)
    (hstatus : s.statusIn = List.replicate (3 * cs.length) true ++ l) :
    ∃ k' t, settle cmd (cs.flatMap (fun c => modeThenDuty c m v) ++ rest) k s = settle cmd rest k' t ∧
      ModesSet cs m s t ∧ DutiesSet cs v s t := by
  induction cs generalizing s k with
  | nil => exact ⟨k, s, rfl, .nil m s, .nil v s⟩
  | cons c cs ih =>
    rw [List.length_cons, Nat.mul_succ] at hstatus
    obtain ⟨t, hrun, hleft, hmode, hduty⟩ := settle_modeThenDuty_sets (cmd := cmd) (k := k)
      (rest := cs.flatMap (fun c => modeThenDuty c m v) ++ rest) c m v ho hpp hstatus
    obtain ⟨k', u, hrun', hmodes, hduties⟩ := ih (k := k + 3) (hmode.params ▸ ho) (hmode.params ▸ hpp) hleft
    refine ⟨k', u, ?_, hmode.cons hmodes, hduty.cons hduties⟩
    rw [List.flatMap_cons, List.append_assoc, hrun, hrun']

theorem mem_sideChannels (c : Chan) (dir : Bool) : c ∈ sideChannels dir ↔ decide (c.toNat % 2 = 0) = dir := by
  revert c dir
  decide

/-- Settles O23: ALLON sets the mode and the duty of the channels of one side, and of no other. -/
theorem directedAllonEffect : Obligations.DirectedAllonEffect := by
  intro s dir l hs ho hpp hok
  have hlen : 3 * (sideChannels dir).length = 12 := by cases dir <;> rfl
  obtain ⟨k, t, hrun, hmodes, hduties⟩ := settle_modeThenDuty_each (cmd := encode (.allon true dir)) (k := 0)
    (rest := [.respond 0]) (sideChannels dir) .on 255 ho hpp (by rwa [hlen])
  have hexec : exec (.allon true dir) s = .next (respond 0 t) := by
    rw [(performs_allon_directed dir hs).runs, runCommand_settle hs rfl (by cases dir <;> rfl), hrun, settle_respond]
  have hmode : ∀ c, decodeField s.params.pairPos (chipHolds (respond 0 t) (modeReg c).toNat) (localIndex c) =
      chipMode t c := fun c => by rw [chipMode, hmodes.params]; rfl
  refine ⟨_, hexec, rfl, rfl, fun c => ⟨fun hc => ?_, fun hc => ?_⟩⟩
  · have hmem := (mem_sideChannels c dir).2 hc
    exact ⟨(hmode c).trans (hmodes.chosen c hmem).2, hduties.chosen c hmem⟩
  · have hmem := mt (mem_sideChannels c dir).1 hc
    exact ⟨(hmode c).trans (hmodes.others c hmem).1, hduties.others c hmem⟩

/-! ## The bulk commands and SETMODE of each channel (R93) -/

/-- SETMODE of one channel, both transactions succeeding, sets its mode, whatever the host presents next. -/
theorem exec_setmode_one_sets {s : State} (words : List Word) (ch : Chan) (m : Mode) {l : List Bool}
    (hs : s.seq = .idle) (ho : s.params.oracle = .registerFile) (hpp : s.params.pairPos.wf)
    (hok : s.statusIn = true :: true :: l) :
    ∃ t, exec (.setmode ch (modeCode m) false) { s with cmdIn := words } = .next t ∧ t.seq = .idle ∧
      t.cmdIn = words ∧ t.statusIn = l ∧ ModesSet [ch] m s t :=
  ⟨_, exec_setmode_one (s := { s with cmdIn := words }) hs hok (answers_chipHolds ho _), rfl, rfl, rfl,
    (modesSet_storeReg hpp ch m).of_sameRegister rfl fun _ => sameRegister_of_eq rfl rfl rfl _⟩

/-- An Idle sequencer runs the legal command presented (R30, R143). -/
theorem step_encode {s : State} {i : Instr} {rest : List Word} (hs : s.seq = .idle) (hw : i.wellFormed = true)
    (hcmd : s.cmdIn = encode i :: rest) : step s = exec i { s with cmdIn := rest } :=
  stepRunsDecodedCommand.1 s _ rest i hs hcmd (decodeOfEncode i hw)

/-- The first of some steps, the others after it. -/
theorem core_run_succ {s t : State} (h : step s = .next t) (n : Nat) :
    Host.Core.run Sys2Proof.core (n + 1) s = Host.Core.run Sys2Proof.core n t := by
  have hcore : Sys2Proof.core.step s = .next t := h
  simp only [Host.Core.run, hcore]

/-- SETMODE of some channels, one after another, all transactions succeeding. -/
theorem run_setmode_each {s : State} {l : List Bool} (cs : List Chan) (m : Mode) (hs : s.seq = .idle)
    (ho : s.params.oracle = .registerFile) (hpp : s.params.pairPos.wf)
    (hcmd : s.cmdIn = cs.map (fun c => encode (.setmode c (modeCode m) false)))
    (hstatus : s.statusIn = List.replicate (2 * cs.length) true ++ l) :
    ∃ u, Host.Core.run Sys2Proof.core cs.length s = .next u ∧ ModesSet cs m s u := by
  induction cs generalizing s with
  | nil => exact ⟨s, rfl, .nil m s⟩
  | cons c cs ih =>
    rw [List.length_cons, Nat.mul_succ] at hstatus
    obtain ⟨t, hexec, hidle, hleft, hstatus', hmode⟩ := exec_setmode_one_sets
      (cs.map (fun c => encode (.setmode c (modeCode m) false))) c m hs ho hpp hstatus
    have hstep : step s = .next t := (step_encode hs (wellFormed_setmode_one c m) hcmd).trans hexec
    obtain ⟨u, hrun, hmodes⟩ := ih hidle (hmode.params ▸ ho) (hmode.params ▸ hpp) hleft hstatus'
    exact ⟨u, (core_run_succ hstep cs.length).trans hrun, hmode.cons hmodes⟩

/-- Each field of a mode register is the field of a channel (R72). -/
theorem exists_channel_of_field {a : Byte} (ha : a ∈ [modeA, modeB]) (k : Fin 4) :
    ∃ c : Chan, modeReg c = a ∧ localIndex c = k := by
  revert k a
  decide

theorem eq_modeCode_of_modeOfCode {f : BitVec 2} {m : Mode} (h : modeOfCode f = some m) : f = modeCode m := by
  cases m <;> revert f <;> decide

/-- Once the mode of every channel is set to `m`, both mode registers hold the bulk pattern (R78). -/
theorem read_modeReg_of_modesSet {m : Mode} {s t : State} (h : ModesSet allChannels m s t)
    (hpp : s.params.pairPos.wf) : ∀ a ∈ [modeA, modeB], Memory.read t.chip a.toNat = some (bulk m) := by
  intro a ha
  have hall : ∀ c : Chan, c ∈ allChannels := by decide
  have hholds : chipHolds t a.toNat = bulk m := by
    refine eq_of_fields_eq (h.params ▸ hpp) fun k => ?_
    obtain ⟨c, rfl, rfl⟩ := exists_channel_of_field ha k
    rw [bulk_field]
    exact eq_modeCode_of_modeOfCode (h.chosen c (hall c)).2
  obtain ⟨c, rfl, -⟩ := exists_channel_of_field ha 0
  obtain ⟨⟨b, hread⟩, -⟩ := h.chosen c (hall c)
  rw [← hholds, chipHolds, hread, Option.getD_some]

theorem completed_chip (s : State) (l : List Bool) (bs : List Byte) (chip : Memory) (d : Byte) (es : List Event) :
    (completed s l bs chip d es).chip = chip := rfl

/-- The writes of a bulk command leave both mode registers at the pattern. -/
theorem read_storeAll_bulkWrites (chip : Memory) (m : Mode) (v : Byte) :
    ∀ a ∈ [modeA, modeB], Memory.read (storeAll chip (bulkWrites m v)) a.toNat = some (bulk m) := by
  simp [storeAll, bulkWrites, Memory.read_write, modeA, modeB]

/-- Settles O24: both ways the mode registers end at the bulk pattern. -/
theorem bulkEqualsPerChannel : Obligations.BulkEqualsPerChannel := by
  intro s l hs ho hpp _ hok row hrow
  obtain ⟨v, hperforms⟩ : ∃ v, Performs row.1 ((bulkWrites row.2 v).map (fun w => .write w.1 w.2)) s := by
    obtain rfl | rfl : row = _ ∨ row = _ := by simpa using hrow
    · exact ⟨_, performs_allon_bulk hs⟩
    · exact ⟨_, performs_alloff hs⟩
  obtain ⟨t, hexec, hchip⟩ : ∃ t, exec row.1 s = .next t ∧ t.chip = storeAll s.chip (bulkWrites row.2 v) :=
    ⟨_, hperforms.completes_writes (l := List.replicate 6 true ++ l) hok, completed_chip ..⟩
  obtain ⟨u, hrun, hmodes⟩ := run_setmode_each
    (s := { s with cmdIn := allChannels.map (fun c => encode (.setmode c (modeCode row.2) false)) })
    allChannels row.2 hs ho hpp rfl hok
  refine ⟨t, u, hexec, hrun, fun r hr => ?_⟩
  obtain ⟨a, ha, rfl⟩ : ∃ a ∈ [modeA, modeB], a.toNat = r := by simpa [modeA, modeB, eq_comm] using hr
  rw [hchip]
  exact ⟨read_storeAll_bulkWrites s.chip row.2 v a ha, read_modeReg_of_modesSet hmodes hpp a ha⟩

end Sys2Proof.Machine
end

section
/-! The fades (42_fade.md): a ramp with the mode changes around it, what FADEIN and FADEOUT leave whichever of their
transactions fail (R96, R97), where they end on the reference register file (R44), and how long they wait (R99). -/

namespace Sys2Proof.Machine

open Sys2Proof Sys2Proof.Config

/-! ## A ramp and the mode changes around it -/

/-- A ramp of one channel, with the mode change before it and the one after it, if any (R96, R97). -/
structure Fade where
  chan : Chan
  before : Option Mode
  interval : BitVec 32
  values : List Byte
  after : Option Mode

/-- `setModeOne(c, m)`, if there is a mode to set. -/
def modeChange (c : Chan) (m : Option Mode) : List MicroOp := m.elim [] (setModeOne c)

/-- The entries of a mode change whose read answers `b`. -/
def modeChangeEvents (p : Params) (c : Chan) (m : Option Mode) (b : Byte) : List Event :=
  m.elim [] (fun m => rmwEvents p c m b)

/-- The register write of a mode change whose read answers `b`. -/
def modeChangeWrites (pp : PairPos) (c : Chan) (m : Option Mode) (b : Byte) : List (Byte × Byte) :=
  m.elim [] (fun m => [(modeReg c, encodeField pp b (localIndex c) m)])

/-- How many transactions a mode change makes. -/
def modeChangeCount (m : Option Mode) : Nat := m.elim 0 (fun _ => 2)

theorem modeChangeCount_ite (P : Prop) [Decidable P] (m : Mode) :
    modeChangeCount (if P then some m else none) = if P then 2 else 0 := by
  split <;> rfl

/-- The script of a fade. -/
def Fade.ops (f : Fade) : List MicroOp :=
  modeChange f.chan f.before ++ ramp f.chan f.interval f.values ++ modeChange f.chan f.after

/-- Its entries, the reads of the mode register answering `b` and `b'`. -/
def Fade.events (f : Fade) (p : Params) (b b' : Byte) : List Event :=
  modeChangeEvents p f.chan f.before b ++ rampEvents p f.chan f.interval f.values ++
    modeChangeEvents p f.chan f.after b'

/-- Its register writes. -/
def Fade.writes (f : Fade) (pp : PairPos) (b b' : Byte) : List (Byte × Byte) :=
  modeChangeWrites pp f.chan f.before b ++ f.values.map (fun v => (dutyReg f.chan, v)) ++
    modeChangeWrites pp f.chan f.after b'

/-- How many transactions it makes. -/
def Fade.count (f : Fade) : Nat := modeChangeCount f.before + f.values.length + modeChangeCount f.after

theorem records_modeChange (p : Params) (c : Chan) (m : Option Mode) (b : Byte) :
    Records p (modeChange c m) (modeChangeEvents p c m b) := by
  cases m with
  | none => exact .nil
  | some m => exact .modeChange c m b .nil

theorem records_ramp (p : Params) (c : Chan) (i : BitVec 32) (vs : List Byte) :
    Records p (ramp c i vs) (rampEvents p c i vs) := by
  induction vs with
  | nil => exact .nil
  | cons v vs ih => exact .write (dutyReg c) v (.delay ⟨i.toNat, .ms⟩ ih)

theorem Fade.records (f : Fade) (p : Params) (b b' : Byte) : Records p f.ops (f.events p b b') :=
  ((records_modeChange p f.chan f.before b).append (records_ramp p f.chan f.interval f.values)).append
    (records_modeChange p f.chan f.after b')

theorem transactionsIn_modeChangeEvents (p : Params) (c : Chan) (m : Option Mode) (b : Byte) :
    transactionsIn (modeChangeEvents p c m b) = modeChangeCount m := by
  cases m <;> rfl

theorem Fade.transactionsIn_events (f : Fade) (p : Params) (b b' : Byte) :
    transactionsIn (f.events p b b') = f.count := by
  simp only [Fade.events, Fade.count, transactionsIn_append, transactionsIn_modeChangeEvents, transactionsIn_rampEvents]

theorem foldl_chipAfterEvent_modeChangeEvents (p : Params) (chip : Memory) (c : Chan) (m : Option Mode) (b : Byte) :
    (modeChangeEvents p c m b).foldl chipAfterEvent chip = storeAll chip (modeChangeWrites p.pairPos c m b) := by
  cases m <;> rfl

theorem storeAll_append (chip : Memory) (ws ws' : List (Byte × Byte)) :
    storeAll chip (ws ++ ws') = storeAll (storeAll chip ws) ws' := List.foldl_append

/-- The register file after a fade's entries is that of its writes. -/
theorem Fade.foldl_chipAfterEvent (f : Fade) (p : Params) (chip : Memory) (b b' : Byte) :
    (f.events p b b').foldl chipAfterEvent chip = storeAll chip (f.writes p.pairPos b b') := by
  simp only [Fade.events, Fade.writes, List.foldl_append, storeAll_append, foldl_chipAfterEvent_modeChangeEvents,
    foldl_chipAfterEvent_rampEvents]

/-! ## FADEIN (R96) -/

/-- The fade of FADEIN: up to `tgt` in mode PWM, then mode On when `tgt` is full on. -/
def fadeIn (ch : Chan) (tgt : Byte) (dur : BitVec 32) : Fade :=
  ⟨ch, some .pwm, rampInterval dur tgt, rampUpValues tgt, if tgt = 255 then some .on else none⟩

theorem scriptFadein_eq (ch : Chan) {tgt : Byte} (htgt : tgt ≠ 0) (dur : BitVec 32) :
    scriptFadein ch tgt dur = (fadeIn ch tgt dur).ops ++ [.respond 0] := by
  rw [scriptFadein, if_neg htgt, Fade.ops, fadeIn]
  split <;> rfl

theorem performs_fadein {s : State} (ch : Chan) {tgt : Byte} (htgt : tgt ≠ 0) (dur : BitVec 32) (hs : s.seq = .idle) :
    Performs (.fadein ch tgt dur) (fadeIn ch tgt dur).ops s :=
  ⟨hs, rfl, by rw [← scriptFadein_eq ch htgt dur]; rfl⟩

theorem fadeIn_count (ch : Chan) (tgt : Byte) (dur : BitVec 32) :
    (fadeIn ch tgt dur).count = 2 + (tgt.toNat + 1) + (if tgt = 255 then 2 else 0) := by
  have hlen : (rampUpValues tgt).length = tgt.toNat + 1 := by simp [rampUpValues]
  simp only [Fade.count, fadeIn, hlen, modeChangeCount_ite]
  rfl

/-- Settles O25: FADEIN performs its fade, which completes, is cut or goes on. -/
theorem fadeinCompletes : Obligations.FadeinCompletes := by
  intro s ch tgt dur l b b' bs hs htgt transactions values field events
  have hevents : events = (fadeIn ch tgt dur).events s.params b b' := by
    simp only [events, values, Fade.events, rampEvents, fadeIn, rampInterval_toNat]
    split <;> rfl
  have hwrites : (fadeIn ch tgt dur).writes s.params.pairPos b b' =
      [(modeReg ch, field .pwm b)] ++ values.map (fun v => (dutyReg ch, v)) ++
        (if tgt = 255 then [(modeReg ch, field .on b')] else []) := by
    simp only [field, values, Fade.writes, fadeIn]
    split <;> rfl
  have hperforms := performs_fadein ch htgt dur hs
  have hrecords := (fadeIn ch tgt dur).records s.params b b'
  have hcount : transactionsIn events = transactions := by
    rw [hevents, Fade.transactionsIn_events, fadeIn_count]
  rw [← hevents] at hrecords
  refine ⟨fun hok ha => ?_, fun j hj hp hfail ha => ?_, fun oks hp hlen hstatus ha => ?_⟩
  · rw [hperforms.completes hrecords (by rwa [hcount]) ha, hevents, Fade.foldl_chipAfterEvent, hwrites]
  · exact hperforms.aborts hrecords hp (by rwa [hcount]) hfail ha
  · exact hperforms.continues hrecords (.inr hp) (hlen.trans hcount.symm) hstatus ha

/-! ## FADEOUT (R97) -/

/-- The fade of FADEOUT from `d0`: down to `tgt`, in mode PWM if FADEOUT_SETS_PWM, then mode Off when `tgt` is 0. -/
def fadeOut (pr : Params) (ch : Chan) (d0 tgt : Byte) (dur : BitVec 32) : Fade :=
  ⟨ch, if pr.fadeoutSetsPwm then some .pwm else none, rampInterval dur (d0 - tgt), rampDownValues d0 tgt,
    if tgt = 0 then some .off else none⟩

theorem fadeOutFrom_eq (pr : Params) (ch : Chan) {d0 tgt : Byte} (hlt : tgt.toNat < d0.toNat) (dur : BitVec 32) :
    fadeOutFrom pr ch d0 tgt dur = (fadeOut pr ch d0 tgt dur).ops := by
  rw [fadeOutFrom, if_neg (BitVec.not_le.2 hlt)]
  simp only [Fade.ops, fadeOut, modeChange]
  split <;> split <;> rfl

/-- The transactions of FADEOUT: one read, then its fade's. -/
theorem fadeOut_count (pr : Params) (ch : Chan) (d0 tgt : Byte) (dur : BitVec 32) :
    1 + (if pr.fadeoutSetsPwm then 2 else 0) + (d0.toNat - tgt.toNat + 1) + (if tgt = 0 then 2 else 0) =
      (fadeOut pr ch d0 tgt dur).count + 1 := by
  have hlen : (rampDownValues d0 tgt).length = d0.toNat - tgt.toNat + 1 := by simp [rampDownValues]
  simp only [Fade.count, fadeOut, hlen, modeChangeCount_ite]
  omega

/-- The values of FADEOUT as numbers: d0, d0 - 1, ..., tgt. -/
theorem rampDownValues_eq (d0 tgt : Byte) :
    rampDownValues d0 tgt = (List.range (d0.toNat - tgt.toNat + 1)).map (fun j => BitVec.ofNat 8 (d0.toNat - j)) := by
  refine List.map_congr_left fun j hj => BitVec.eq_of_toNat_eq ?_
  have hj : j < d0.toNat - tgt.toNat + 1 := List.mem_range.1 hj
  have hd := d0.isLt
  simp only [BitVec.toNat_sub, BitVec.toNat_ofNat]
  omega

/-- FADEOUT's interval as a number (R95). -/
theorem fadeOut_interval_toNat (pr : Params) (ch : Chan) {d0 tgt : Byte} (hlt : tgt.toNat < d0.toNat)
    (dur : BitVec 32) : (fadeOut pr ch d0 tgt dur).interval.toNat = dur.toNat / (d0.toNat - tgt.toNat) := by
  rw [fadeOut, rampInterval_toNat, BitVec.toNat_sub_of_le (Nat.le_of_lt hlt)]

/-- The entry of FADEOUT's first read, which answers the start duty `d0`. -/
abbrev startRead (p : Params) (ch : Chan) (ok : Bool) (d0 : Byte) : Event :=
  .memRead p.devAddr (dutyReg ch) ok (some d0)

/-- An Idle sequencer accepts FADEOUT and performs its read. -/
theorem exec_fadeout_settle {s : State} (ch : Chan) (tgt : Byte) (dur : BitVec 32) (hs : s.seq = .idle) :
    exec (.fadeout ch tgt dur) s =
      .next (settle (encode (.fadeout ch tgt dur)) [.read (dutyReg ch) (.rampDown ch tgt dur), .respond 0] 0 s) :=
  runCommand_settle hs rfl rfl

section
variable {s : State} {ch : Chan} {tgt d0 b b' : Byte} {dur : BitVec 32} {l : List Bool} {bs : List Byte}

/-- FADEOUT, its failures not ending it: the read of `d0`, then the fade. -/
theorem exec_fadeout_goesOn (hs : s.seq = .idle) (hlt : tgt.toNat < d0.toNat) {ok : Bool} {oks : List Bool}
    (hlen : oks.length = (fadeOut s.params ch d0 tgt dur).count)
    (hp : (∀ x ∈ ok :: oks, x = true) ∨ s.params.busFail = .continue_) (hstatus : s.statusIn = ok :: (oks ++ l))
    (ha : answersAll s (startRead s.params ch ok d0 ::
      withStatuses ((fadeOut s.params ch d0 tgt dur).events s.params b b') oks) bs) :
    exec (.fadeout ch tgt dur) s = .next (continued s (startRead s.params ch ok d0 ::
      withStatuses ((fadeOut s.params ch d0 tgt dur).events s.params b b') oks) l bs 0) := by
  obtain ⟨bs', hread, ha⟩ := (answersAll_cons s _ _ bs (oks ++ l)).1 ha
  have hrecords := (fadeOut s.params ch d0 tgt dur).records s.params b b'
  rw [exec_fadeout_settle ch tgt dur hs,
    settle_read_goesOn (l := oks ++ l) hstatus (hp.imp_left (· ok List.mem_cons_self)) hread, afterRead,
    fadeOutFrom_eq _ _ hlt,
    hrecords.settle_goesOn (s := happened s [startRead s.params ch ok d0] (oks ++ l) bs') rfl
      (by rw [Fade.transactionsIn_events, hlen]) rfl (hp.imp_left fun h x hx => h x (List.mem_cons_of_mem _ hx)) ha,
    happened_happened, settle_respond, respond_happened]
  rfl

/-- FADEOUT, its transaction `j` failing under Abort: it is the read of `d0`, or within the fade. -/
theorem exec_fadeout_aborts (hs : s.seq = .idle) (hlt : tgt.toNat < d0.toNat) {j : Nat}
    (hj : j < (fadeOut s.params ch d0 tgt dur).count + 1) (hp : s.params.busFail = .abort)
    (hstatus : s.statusIn = List.replicate j true ++ false :: l)
    (ha : answersAll s (failedAt (startRead s.params ch true d0 ::
      (fadeOut s.params ch d0 tgt dur).events s.params b b') j) bs) :
    exec (.fadeout ch tgt dur) s = .next (abortedAt s (startRead s.params ch true d0 ::
      (fadeOut s.params ch d0 tgt dur).events s.params b b') 0 j l bs) := by
  rw [exec_fadeout_settle ch tgt dur hs]
  cases j with
  | zero =>
    obtain rfl : s.readIn = bs := ha
    rw [settle_read_fail hstatus hp]
    rfl
  | succ j =>
    obtain ⟨bs', hread, ha⟩ := (answersAll_cons s _ _ bs (List.replicate j true ++ false :: l)).1 ha
    have hfade := ((fadeOut s.params ch d0 tgt dur).records s.params b b').settle_aborted (rest := [.respond 0])
      (cmd := encode (.fadeout ch tgt dur)) (k := 1)
      (s := happened s [startRead s.params ch true d0] (List.replicate j true ++ false :: l) bs') rfl hp
      (by rw [Fade.transactionsIn_events]; omega) rfl ha
    rw [settle_read_goesOn (l := List.replicate j true ++ false :: l) hstatus (.inl rfl) hread, afterRead,
      fadeOutFrom_eq _ _ hlt, hfade]
    exact congrArg _ ((abortedAt_happened s [startRead s.params ch true d0] _ 0 j _ _ _ _).trans
      (by rw [Nat.add_comm]; rfl))

end

/-- Settles O28: FADEOUT reads `d0` and performs its fade, which completes, is cut or goes on. -/
theorem fadeoutCompletes : Obligations.FadeoutCompletes := by
  intro s ch tgt d0 dur l b b' bs hs hlt transactions values field events
  have hevents : events = startRead s.params ch true d0 ::
      (fadeOut s.params ch d0 tgt dur).events s.params b b' := by
    simp only [events, values, ← rampDownValues_eq, Fade.events, rampEvents, fadeOut_interval_toNat _ _ hlt]
    simp only [fadeOut]
    split <;> split <;> rfl
  have hwrites : (fadeOut s.params ch d0 tgt dur).writes s.params.pairPos b b' =
      (if s.params.fadeoutSetsPwm then [(modeReg ch, field .pwm b)] else []) ++ values.map (fun v => (dutyReg ch, v)) ++
        (if tgt = 0 then [(modeReg ch, field .off b')] else []) := by
    simp only [field, values, ← rampDownValues_eq, Fade.writes, fadeOut]
    split <;> split <;> rfl
  have hcount : transactions = (fadeOut s.params ch d0 tgt dur).count + 1 := fadeOut_count s.params ch d0 tgt dur
  have hrecords := (fadeOut s.params ch d0 tgt dur).records s.params b b'
  rw [hevents]
  refine ⟨fun hok ha => ?_, fun j hj hp hfail ha => ?_, fun oks hp hlen hstatus ha => ?_⟩
  · have hall := hrecords.withStatuses_ok
    rw [Fade.transactionsIn_events] at hall
    rw [hcount] at hok
    have hrun := exec_fadeout_goesOn (b := b) (b' := b') (bs := bs) (ok := true) hs hlt List.length_replicate
      (.inl fun x hx => List.eq_of_mem_replicate (n := _ + 1) hx) hok (by rwa [hall])
    rw [hrun, hall, continued_eq_completed]
    simp only [List.foldl_cons, lostAfterEvent, hrecords.lost, chipAfterEvent, Fade.foldl_chipAfterEvent, hwrites]
  · exact exec_fadeout_aborts hs hlt (by rwa [← hcount]) hp hfail ha
  · obtain ⟨ok, oks, rfl⟩ := List.exists_cons_of_length_eq_add_one (hlen.trans hcount)
    exact exec_fadeout_goesOn hs hlt (by simpa [hcount] using hlen) (.inr hp) hstatus ha


/-! ## Where a fade ends on the reference register file (R44) -/

/-- A field that is set decodes to the mode set, wherever the other fields stand (R80). -/
theorem decodeField_encodeField_self (pp : PairPos) (b : Byte) (k : Fin 4) (m : Mode) :
    decodeField pp (encodeField pp b k m) k = some m := by
  have hpos : pp.pos k = 2 * (pp.slot k).val := rfl
  have hlt := (pp.slot k).isLt
  have hfield : ((encodeField pp b k m >>> pp.pos k).setWidth 2 : BitVec 2) = modeCode m := by
    refine BitVec.eq_of_getLsbD_eq fun i hi => ?_
    rw [BitVec.getLsbD_setWidth, BitVec.getLsbD_ushiftRight, encodeField, getLsbD_replace_pair _ _ _ _ (by omega),
      if_pos ⟨by omega, by omega⟩]
    simp [hi]
  rw [decodeField, hfield, modeOfCode_modeCode]

theorem chipMode_of_read {t : State} {c : Chan} {b : Byte} (h : Memory.read t.chip (modeReg c).toNat = some b) :
    chipMode t c = decodeField t.params.pairPos b (localIndex c) := by
  rw [chipMode, chipHolds, h, Option.getD_some]

theorem chipMode_of_sameRegister {s t : State} {c : Chan} (hparams : t.params = s.params)
    (h : sameRegister (modeReg c).toNat s t) : chipMode t c = chipMode s c := by
  rw [chipMode, chipMode, hparams, h.chipHolds]

/-- A mode change, all its transactions succeeding, sets the channel's mode and spares its duty register. -/
theorem settle_modeChange_ends {cmd : Word} {rest : List MicroOp} {k : Nat} {s : State} {l : List Bool} (c : Chan)
    (m : Option Mode) (ho : s.params.oracle = .registerFile)
    (hstatus : s.statusIn = List.replicate (modeChangeCount m) true ++ l) :
    ∃ k' t, settle cmd (modeChange c m ++ rest) k s = settle cmd rest k' t ∧ t.statusIn = l ∧
      t.params = s.params ∧ chipMode t c = m.or (chipMode s c) ∧
      Memory.read t.chip (dutyReg c).toNat = Memory.read s.chip (dutyReg c).toNat := by
  cases m with
  | none => exact ⟨k, s, rfl, hstatus, rfl, rfl, rfl⟩
  | some m =>
    refine ⟨_, _, settle_setModeOne cmd c m rest k s l _ _ hstatus (answers_chipHolds ho _), rfl, rfl, ?_,
      Memory.read_write_other _ _ _ _ (dutyReg_ne_modeReg c c)⟩
    exact (chipMode_of_read (Memory.read_write_same _ _ _)).trans (decodeField_encodeField_self _ _ _ m)

/-- Writes of other registers leave a register. -/
theorem read_storeAll_of_ne (chip : Memory) {ws : List (Byte × Byte)} {a : Nat} (h : ∀ w ∈ ws, w.1.toNat ≠ a) :
    Memory.read (storeAll chip ws) a = Memory.read chip a := by
  induction ws generalizing chip with
  | nil => rfl
  | cons w ws ih =>
    exact (ih _ fun x hx => h x (List.mem_cons_of_mem _ hx)).trans
      (Memory.read_write_other _ _ _ _ (h w List.mem_cons_self).symm)

/-- A ramp, all its writes succeeding, ends at its last duty and spares the channel's mode register. -/
theorem settle_ramp_ends {cmd : Word} {rest : List MicroOp} {k : Nat} {s : State} {l : List Bool} (c : Chan)
    (i : BitVec 32) {vs us : List Byte} {v : Byte} (hvs : vs = us ++ [v])
    (hstatus : s.statusIn = List.replicate vs.length true ++ l) :
    ∃ k' t, settle cmd (ramp c i vs ++ rest) k s = settle cmd rest k' t ∧ t.statusIn = l ∧ t.params = s.params ∧
      chipMode t c = chipMode s c ∧ Memory.read t.chip (dutyReg c).toNat = some v := by
  refine ⟨_, _, settle_ramp cmd c i vs rest k s l hstatus, rfl, rfl, ?_, ?_⟩
  · have hspares : ∀ w ∈ vs.map (fun v => (dutyReg c, v)), w.1.toNat ≠ (modeReg c).toNat :=
      List.forall_mem_map.2 fun _ _ => dutyReg_ne_modeReg c c
    exact chipMode_of_sameRegister rfl ⟨read_storeAll_of_ne s.chip hspares, rfl, rfl⟩
  · rw [hvs, List.map_append, storeAll_append]
    exact Memory.read_write_same _ _ _

/-- A fade, all its transactions succeeding, ends at its last duty and in the last mode it sets. -/
theorem Fade.settle_ends (f : Fade) {us : List Byte} {v : Byte} (hvalues : f.values = us ++ [v]) {cmd : Word}
    {rest : List MicroOp} {k : Nat} {s : State} {l : List Bool} (ho : s.params.oracle = .registerFile)
    (hstatus : s.statusIn = List.replicate f.count true ++ l) :
    ∃ k' t, settle cmd (f.ops ++ rest) k s = settle cmd rest k' t ∧ t.params = s.params ∧
      chipMode t f.chan = f.after.or (f.before.or (chipMode s f.chan)) ∧
      Memory.read t.chip (dutyReg f.chan).toNat = some v := by
  simp only [Fade.count, List.replicate_add, List.append_assoc] at hstatus
  simp only [Fade.ops, List.append_assoc]
  obtain ⟨k1, t1, hrun1, hstatus1, hparams1, hmode1, -⟩ := settle_modeChange_ends f.chan f.before ho hstatus
  obtain ⟨k2, t2, hrun2, hstatus2, hparams2, hmode2, hduty2⟩ := settle_ramp_ends f.chan f.interval hvalues hstatus1
  obtain ⟨k3, t3, hrun3, -, hparams3, hmode3, hduty3⟩ :=
    settle_modeChange_ends f.chan f.after (by rw [hparams2, hparams1, ho]) hstatus2
  refine ⟨k3, t3, hrun1.trans (hrun2.trans hrun3), by rw [hparams3, hparams2, hparams1], ?_, hduty3.trans hduty2⟩
  rw [hmode3, hmode2, hmode1]

theorem rampUpValues_last (tgt : Byte) : rampUpValues tgt = (List.range tgt.toNat).map (BitVec.ofNat 8) ++ [tgt] := by
  simp [rampUpValues, List.range_succ]

theorem rampDownValues_last {d0 tgt : Byte} (hlt : tgt.toNat < d0.toNat) :
    ∃ us, rampDownValues d0 tgt = us ++ [tgt] := by
  have hlast : d0.toNat - (d0.toNat - tgt.toNat) = tgt.toNat := by omega
  rw [rampDownValues_eq, List.range_succ, List.map_append, List.map_singleton, hlast, BitVec.ofNat_toNat,
    BitVec.setWidth_eq]
  exact ⟨_, rfl⟩

/-- The last mode FADEIN sets: On at full on, else the PWM it sets first (R96). -/
theorem fadeIn_lastMode (ch : Chan) (tgt : Byte) (dur : BitVec 32) (m : Option Mode) :
    (fadeIn ch tgt dur).after.or ((fadeIn ch tgt dur).before.or m) = some (if tgt = 255 then .on else .pwm) := by
  simp only [fadeIn]
  split <;> rfl

/-- The last mode FADEOUT sets: Off at 0, else PWM if FADEOUT_SETS_PWM, else none (R97). -/
theorem fadeOut_lastMode (pr : Params) (ch : Chan) (d0 tgt : Byte) (dur : BitVec 32) (m : Option Mode) :
    (fadeOut pr ch d0 tgt dur).after.or ((fadeOut pr ch d0 tgt dur).before.or m) =
      if tgt = 0 then some .off else if pr.fadeoutSetsPwm then some .pwm else m := by
  simp only [fadeOut]
  split
  · rfl
  · split <;> rfl

/-- Settles O26: FADEIN's fade ends at duty `tgt`, in mode On or in the PWM it sets first. -/
theorem fadeinEndState : Obligations.FadeinEndState := by
  intro s ch tgt dur l hs ho htgt hok
  obtain ⟨k, t, hrun, hparams, hmode, hduty⟩ := (fadeIn ch tgt dur).settle_ends (rampUpValues_last tgt)
    (cmd := encode (.fadein ch tgt dur)) (rest := [.respond 0]) (k := 0) ho (by rwa [fadeIn_count])
  have hexec : exec (.fadein ch tgt dur) s = .next (respond 0 t) := by
    rw [(performs_fadein ch htgt dur hs).exec_settle ((fadeIn ch tgt dur).records s.params 0 0), hrun, settle_respond]
  refine ⟨_, hexec, rfl, rfl, hduty, ?_⟩
  rw [← hparams]
  exact hmode.trans (fadeIn_lastMode ch tgt dur _)

/-- Settles O29: FADEOUT's fade ends at duty `tgt`, in the last mode it sets, or in the mode the channel had. -/
theorem fadeoutEndState : Obligations.FadeoutEndState := by
  intro s ch tgt d0 dur l hs ho hd0 hlt hok
  obtain ⟨us, hvalues⟩ := rampDownValues_last hlt
  have hstatus : s.statusIn = true :: (List.replicate (fadeOut s.params ch d0 tgt dur).count true ++ l) := by
    rw [hok, fadeOut_count s.params ch d0 tgt dur]
    rfl
  have hread := settle_read_answers (cmd := encode (.fadeout ch tgt dur)) (next := .rampDown ch tgt dur)
    (rest := [.respond 0]) (k := 0) hstatus (answers_chipHolds ho (dutyReg ch))
  rw [hd0, afterRead, fadeOutFrom_eq _ _ hlt] at hread
  obtain ⟨k, t, hrun, hparams, hmode, hduty⟩ := (fadeOut s.params ch d0 tgt dur).settle_ends hvalues
    (cmd := encode (.fadeout ch tgt dur)) (rest := [.respond 0]) (k := 1)
    (s := emit (startRead s.params ch true d0)
      { s with statusIn := List.replicate (fadeOut s.params ch d0 tgt dur).count true ++ l }) ho rfl
  have hexec : exec (.fadeout ch tgt dur) s = .next (respond 0 t) := by
    rw [exec_fadeout_settle ch tgt dur hs, hread, ← settle_respond, ← hrun]
  refine ⟨_, hexec, rfl, rfl, hduty, ?_⟩
  have hfield : decodeField s.params.pairPos (chipHolds (respond 0 t) (modeReg ch).toNat) (localIndex ch) =
      chipMode t ch := by rw [chipMode, hparams]; rfl
  exact hfield.trans (hmode.trans (fadeOut_lastMode s.params ch d0 tgt dur _))

/-! ## How long a fade waits (R99) -/

theorem modeChange_plain (c : Chan) (m : Option Mode) : (modeChange c m).all plainOp = true := by
  cases m <;> rfl

theorem Fade.ops_plain (f : Fade) : ∀ op ∈ f.ops, plainOp op = true := by
  rw [← List.all_eq_true, Fade.ops, List.all_append, List.all_append, modeChange_plain, ramp_plain, modeChange_plain]
  rfl

theorem sum_opMillis_modeChange (c : Chan) (m : Option Mode) : ((modeChange c m).map opMillis).sum = 0 := by
  cases m <;> rfl

theorem Fade.sum_opMillis (f : Fade) : (f.ops.map opMillis).sum = f.values.length * f.interval.toNat := by
  simp only [Fade.ops, List.map_append, List.sum_append, sum_opMillis_modeChange, sum_opMillis_ramp, Nat.zero_add,
    Nat.add_zero]

/-- A fade that ends with OK has waited its delays since entry `n`, where nothing was waited before it. -/
theorem Fade.runFrom_waits (f : Fade) {cmd : Word} {d : Byte} {k n : Nat} {s : State} (hn : n ≤ s.trace.length)
    (hnone : ((s.trace.drop n).map delayMillis).sum = 0)
    (hok : (runFrom cmd (f.ops ++ [.respond d]) k s).status = statusOk) :
    (((runFrom cmd (f.ops ++ [.respond d]) k s).trace.drop n).map delayMillis).sum =
      f.values.length * f.interval.toNat := by
  rw [Sys2Proof.Machine.runFrom_waits f.ops_plain hn hok, hnone, Nat.zero_add, f.sum_opMillis]

theorem fadeIn_waits {s t : State} {ch : Chan} {tgt : Byte} {dur : BitVec 32} (hs : s.seq = .idle)
    (h : exec (.fadein ch tgt dur) s = .next t) (hok : t.status = statusOk) :
    ((t.trace.drop s.trace.length).map delayMillis).sum = (tgt.toNat + 1) * (dur.toNat / tgt.toNat) := by
  have hrun : exec (.fadein ch tgt dur) s =
      .next (runFrom (encode (.fadein ch tgt dur)) (scriptFadein ch tgt dur) 0 s) := runCommand_idle hs rfl
  obtain rfl := Host.Outcome.next.inj (hrun.symm.trans h)
  by_cases htgt : tgt = 0
  · rw [scriptFadein, if_pos htgt, runFrom_raise] at hok
    cases hok
  · rw [scriptFadein_eq ch htgt] at hok ⊢
    rw [Fade.runFrom_waits _ le_rfl (by simp) hok, fadeIn, rampInterval_toNat, rampUpValues, List.length_map,
      List.length_range]

/-- A read raises, or goes on with the byte its entry records. -/
theorem perform_read_cases (a : Byte) (next : ReadThen) (cmd : Word) (rest : List MicroOp) (k : Nat) (s : State) :
    (∃ t, perform (.read a next) cmd rest k s = raise .busTransportFailure k t) ∨
    ∃ ok b t, perform (.read a next) cmd rest k s = goOn cmd (afterRead s.params next b ++ rest) (k + 1) t ∧
      t.trace = s.trace ++ [.memRead s.params.devAddr a ok (some b)] := by
  simp only [perform, chkRead]
  split
  · exact .inr ⟨true, _, _, rfl, by simp⟩
  · split
    · exact .inl ⟨_, rfl⟩
    · exact .inr ⟨false, _, _, rfl, by simp⟩

/-- FADEOUT that ends with OK has read a start duty above `tgt`, and then run its fade. -/
theorem exec_fadeout_ok {s t : State} {ch : Chan} {tgt : Byte} {dur : BitVec 32} (hs : s.seq = .idle)
    (h : exec (.fadeout ch tgt dur) s = .next t) (hok : t.status = statusOk) :
    ∃ ok d0 u, tgt.toNat < d0.toNat ∧ u.trace = s.trace ++ [startRead s.params ch ok d0] ∧
      t = runFrom (encode (.fadeout ch tgt dur)) ((fadeOut s.params ch d0 tgt dur).ops ++ [.respond 0]) 1 u := by
  have hrun : exec (.fadeout ch tgt dur) s =
      .next (runFrom (encode (.fadeout ch tgt dur)) (scriptFadeout ch tgt dur) 0 s) := runCommand_idle hs rfl
  obtain rfl := Host.Outcome.next.inj (hrun.symm.trans h)
  rw [scriptFadeout] at hok ⊢
  obtain ⟨u, hread⟩ | ⟨ok, d0, u, hread, htrace⟩ := perform_read_cases (dutyReg ch) (.rampDown ch tgt dur)
    (encode (.fadeout ch tgt dur)) [.respond 0] 0 s
  · rw [runFrom_end (by rw [hread]; rfl), hread] at hok
    cases hok
  · rw [runFrom_settle hread, afterRead] at hok ⊢
    by_cases hlt : tgt.toNat < d0.toNat
    · rw [fadeOutFrom_eq _ _ hlt] at hok ⊢
      exact ⟨ok, d0, u, hlt, htrace,
        settle_of_not_resting (((fadeOut s.params ch d0 tgt dur).records s.params 0 0).not_resting 0)⟩
    · rw [fadeOutFrom, if_pos (BitVec.le_def.2 (Nat.not_lt.1 hlt)), List.cons_append, settle_raise] at hok
      cases hok

theorem fadeOut_waits {s t : State} {ch : Chan} {tgt : Byte} {dur : BitVec 32} (hs : s.seq = .idle)
    (h : exec (.fadeout ch tgt dur) s = .next t) (hok : t.status = statusOk) :
    ∃ ok d0, (t.trace.drop s.trace.length).head? = some (startRead s.params ch ok d0) ∧ tgt.toNat < d0.toNat ∧
      ((t.trace.drop s.trace.length).map delayMillis).sum =
        (d0.toNat - tgt.toNat + 1) * (dur.toNat / (d0.toNat - tgt.toNat)) := by
  obtain ⟨ok, d0, u, hlt, htrace, rfl⟩ := exec_fadeout_ok hs h hok
  obtain ⟨-, -, -, ev, hev⟩ := runFrom_frame (encode (.fadeout ch tgt dur))
    ((fadeOut s.params ch d0 tgt dur).ops ++ [.respond 0]) 1 u
  refine ⟨ok, d0, ?_, hlt, ?_⟩
  · rw [hev, htrace, List.append_assoc, List.drop_left]
    rfl
  · rw [Fade.runFrom_waits _ (by simp [htrace]) (by simp [htrace, delayMillis]) hok, fadeOut_interval_toNat _ _ hlt]
    simp [fadeOut, rampDownValues]

/-- Settles O30: both sums are those of the fade that was run. -/
theorem rampTotalDelay : Obligations.RampTotalDelay := by
  refine ⟨fun s t ch tgt dur hs h hok => fadeIn_waits hs h hok, fun s t ch tgt dur hs h hok => fadeOut_waits hs h hok,
    fun s t ch hs h hok => ?_, fun s t ch hs h hok => ?_⟩
  · exact (fadeIn_waits hs h hok).trans_le (by decide)
  · exact lt_of_lt_of_eq (by decide) (fadeIn_waits hs h hok).symm

end Sys2Proof.Machine
end

section
/-! The stepper's arithmetic (43_stepper.md): the phase from one step to the next (R112), the phase table (R103 to R105)
and the elapsed time (R110, R134). -/

namespace Sys2Proof.Machine

open Sys2Proof Sys2Proof.Config

/-! ## Phase continuity (R112) -/

/-- Forward the phase is that of the next index. -/
theorem phaseOf_forward {n i : BitVec 16} (h : i.toNat < n.toNat) :
    (phaseOf (nextIndex .forward n i)).val = (i.toNat + 1) % n.toNat % 4 :=
  congrArg (· % 4) (nextIndex_forward_toNat h)

/-- Backward the phase is that of the index before. -/
theorem phaseOf_backward {n i : BitVec 16} (h : i.toNat < n.toNat) :
    (phaseOf (nextIndex .backward n i)).val = (if i.toNat = 0 then n.toNat - 1 else i.toNat - 1) % 4 :=
  congrArg (· % 4) (nextIndex_backward_toNat h)

/-- A step that does not wrap moves the phase by one, however many steps a revolution has. -/
theorem phaseOf_of_not_wrapping {n i : BitVec 16} (h : i.toNat < n.toNat) :
    (i.toNat + 1 ≠ n.toNat → (phaseOf (nextIndex .forward n i)).val = ((phaseOf i).val + 1) % 4) ∧
    (i ≠ 0 → (phaseOf (nextIndex .backward n i)).val = ((phaseOf i).val + 3) % 4) := by
  have hphase : (phaseOf i).val = i.toNat % 4 := rfl
  refine ⟨fun htop => ?_, fun hzero => ?_⟩
  · rw [phaseOf_forward h, Nat.mod_eq_of_lt (by omega : i.toNat + 1 < n.toNat), hphase]
    omega
  · have hpos : i.toNat ≠ 0 := fun h0 => hzero (BitVec.eq_of_toNat_eq h0)
    rw [phaseOf_backward h, if_neg hpos, hphase]
    omega

/-- The phase from the last index forward, and from index 0 backward. -/
theorem phaseOf_of_wrapping {n : BitVec 16} (h : 0 < n.toNat) :
    (phaseOf (nextIndex .forward n (n - 1))).val = 0 ∧ (phaseOf (nextIndex .backward n 0)).val = (n.toNat - 1) % 4 ∧
    (phaseOf (n - 1)).val = (n.toNat - 1) % 4 := by
  have hlast : (n - 1).toNat = n.toNat - 1 := BitVec.toNat_sub_of_le (BitVec.le_def.2 h)
  refine ⟨?_, ?_, congrArg (· % 4) hlast⟩
  · rw [phaseOf_forward (by omega), hlast, Nat.sub_add_cancel h, Nat.mod_self]
  · rw [phaseOf_backward (by exact h)]
    rfl

/-- With a multiple of 4 steps a revolution the wrap too moves the phase by one. -/
theorem phaseOf_of_four_dvd {n i : BitVec 16} (h : i.toNat < n.toNat) (hn : n.toNat % 4 = 0) :
    (phaseOf (nextIndex .forward n i)).val = ((phaseOf i).val + 1) % 4 ∧
    (phaseOf (nextIndex .backward n i)).val = ((phaseOf i).val + 3) % 4 := by
  obtain ⟨hforward, hbackward⟩ := phaseOf_of_not_wrapping h
  obtain ⟨hup, hdown, hlast⟩ := phaseOf_of_wrapping (by omega : 0 < n.toNat)
  refine ⟨?_, ?_⟩
  · by_cases htop : i.toNat + 1 = n.toNat
    · obtain rfl : i = n - 1 := by bv_omega
      rw [hup, hlast]
      omega
    · exact hforward htop
  · by_cases hzero : i = 0
    · subst hzero
      rw [hdown]
      show (n.toNat - 1) % 4 = 3
      omega
    · exact hbackward hzero

/-- With another number of steps a revolution the wrap breaks the cycle, in both directions. -/
theorem phaseOf_breaks_at_wrap {n : BitVec 16} (hn : n.toNat % 4 ≠ 0) :
    (phaseOf (nextIndex .forward n (n - 1))).val ≠ ((phaseOf (n - 1)).val + 1) % 4 ∧
    (phaseOf (nextIndex .backward n 0)).val ≠ ((phaseOf 0).val + 3) % 4 := by
  obtain ⟨hup, hdown, hlast⟩ := phaseOf_of_wrapping (by omega : 0 < n.toNat)
  refine ⟨by rw [hup, hlast]; omega, ?_⟩
  rw [hdown]
  show (n.toNat - 1) % 4 ≠ 3
  omega

/-- Settles O41: steps that wrap and steps that do not; one and two steps a revolution by their indices. -/
theorem phaseContinuity : Obligations.PhaseContinuity := by
  refine ⟨fun n i h hn => phaseOf_of_four_dvd h hn, fun n hn => phaseOf_breaks_at_wrap hn,
    fun n i h => phaseOf_of_not_wrapping h, by decide, fun d i hi => ?_, fun d i hi => ?_⟩
  · obtain rfl : i = 0 := by bv_omega
    cases d <;> rfl
  · obtain rfl | rfl : i = 0 ∨ i = 1 := by bv_omega
    all_goals cases d <;> rfl

/-! ## The phase table (R103 to R105) -/

theorem forwardDuty_eq (t : PhaseTable) (ph r : Fin 4) :
    forwardDuty t ph r = if (t.row ph).energised r then 250 else 0 := rfl

/-- A duty is that of an energised role or of one that is not (T1). -/
theorem forwardDuty_on_or_off (t : PhaseTable) (ph r : Fin 4) : forwardDuty t ph r = 250 ∨ forwardDuty t ph r = 0 :=
  ite_eq_or_eq _ _ _

/-- Every row energises two of the four roles (T2). -/
theorem energised_count (row : PhaseRow) :
    ((List.finRange 4).filter row.energised).length = 2 ∧
    ((List.finRange 4).filter (fun r => row.energised r.rev)).length = 2 := by
  cases row <;> decide

/-- Settles O42: backward a role's duty is that of the mirrored role. -/
theorem phaseTableProperties : Obligations.PhaseTableProperties := by
  have hon : ∀ b : Bool, ((if b then 250 else 0 : Byte) == 250) = b := by decide
  refine ⟨fun t d ph r => ?_, fun t d ph => ?_, config_params_wf, fun t ph => ⟨rfl, rfl, rfl, rfl⟩, by decide⟩
  · cases d with
    | forward => exact forwardDuty_on_or_off t ph r
    | backward => exact forwardDuty_on_or_off t ph r.rev
  · obtain ⟨hforward, hbackward⟩ := energised_count (t.row ph)
    cases d with
    | forward => simpa only [phaseDuty, forwardDuty_eq, hon] using hforward
    | backward => simpa only [phaseDuty, forwardDuty_eq, hon] using hbackward

/-! ## The elapsed time (R110, R134) -/

/-- Settles O43: the two sides differ by one turn of the clock. -/
theorem elapsedIsModular : Obligations.ElapsedIsModular := by
  intro w now last hnow hlast
  have hturn : ((now + (2 ^ w - last) : Nat) : Int) = (now : Int) - last + (2 ^ w : Nat) := by
    rw [Nat.cast_add, Nat.cast_sub hlast.le]
    omega
  rw [elapsed, Nat.mod_eq_of_lt hlast, Int.natCast_emod, hturn, Int.add_emod_right]

end Sys2Proof.Machine
end

section
/-! CFGSPEED and the start of MOVE (R107 to R109, R113): what they write before any poll, and what ends a MOVE before it
changes anything. -/

namespace Sys2Proof.Machine

open Sys2Proof Sys2Proof.Config

/-! ## CFGSPEED (R107) -/

/-- An Idle sequencer accepts CFGSPEED, which raises or responds at once. -/
theorem exec_cfgspeed {s : State} (speed steps : BitVec 16) (hs : s.seq = .idle) :
    exec (.cfgspeed speed steps) s =
      .next (if speed = 0 ∨ steps = 0 then raise .divisionPrecondition 0 s
        else respond 0 { s with speed := some ⟨steps, stepDelay speed steps⟩ }) := by
  rw [exec_eq_runCommand, runCommand_idle hs rfl, commandScript, commandStart, scriptCfgspeed, configured]
  split
  · rw [runFrom_raise]
  · rw [runFrom_respond]

/-- The two divisions of R107 are one by the product. -/
theorem stepDelay_eq (speed steps : BitVec 16) :
    stepDelay speed steps = BitVec.ofNat 32 (60000000 / (steps.toNat * speed.toNat)) := by
  refine BitVec.eq_of_toNat_eq ?_
  have hspeed : speed.toNat % 2 ^ 32 = speed.toNat := Nat.mod_eq_of_lt (by omega)
  have hsteps : steps.toNat % 2 ^ 32 = steps.toNat := Nat.mod_eq_of_lt (by omega)
  have hle : 60000000 / (steps.toNat * speed.toNat) ≤ 60000000 := Nat.div_le_self _ _
  rw [stepDelay, BitVec.toNat_udiv, BitVec.toNat_udiv, BitVec.toNat_setWidth, BitVec.toNat_setWidth, hspeed, hsteps,
    Nat.div_div_eq_div_mul, BitVec.toNat_ofNat, Nat.mod_eq_of_lt (by omega)]
  rfl

/-- Settles O31: CFGSPEED responds, with the delay of `stepDelay_eq`. -/
theorem cfgspeedCompletes : Obligations.CfgspeedCompletes := by
  intro s speed steps hs hspeed hsteps
  rw [exec_cfgspeed speed steps hs, if_neg (not_or.mpr ⟨hspeed, hsteps⟩), respond_eq, stepDelay_eq]

/-! ## The start of MOVE (R108, R109, R113) -/

section
variable {s : State} {p1 p2 p3 p4 : Chan} {cnt : BitVec 32} {c : Speed}

/-- A MOVE whose checks fail raises their error from the state it was presented in. -/
theorem exec_move_raises {e : ErrorKind} (hs : s.seq = .idle) (herr : moveError cnt s = some e) :
    exec (.move p1 p2 p3 p4 cnt) s = .next (errored s e 0) := by
  rw [exec_eq_runCommand, runCommand_idle hs rfl, commandScript, commandStart, scriptMove, moveStarted, herr,
    runFrom_raise, raise_eq]

/-- The step count of a MOVE as a number, at most 2^31 (R108). -/
theorem stepCount_toNat (cnt : BitVec 32) : (stepCount cnt).toNat = cnt.toInt.natAbs := by
  have hlow := BitVec.le_toInt cnt
  have hhigh := BitVec.toInt_lt (x := cnt)
  rw [stepCount, BitVec.toNat_ofNat, Nat.mod_eq_of_lt (by omega)]

theorem stepCount_ne_zero (hcnt : cnt ≠ 0) : stepCount cnt ≠ 0 := by
  intro h
  have habs : cnt.toInt.natAbs = 0 := by rw [← stepCount_toNat, h]; rfl
  exact hcnt (BitVec.eq_of_toInt_eq (Int.natAbs_eq_zero.mp habs))

/-- The direction of a MOVE by the sign of its count (R108). -/
def signDirection (cnt : BitVec 32) : Direction := if 0 < cnt.toInt then .forward else .backward

theorem moveDirection_of_ne_zero (hcnt : cnt ≠ 0) (old : Direction) : moveDirection cnt old = signDirection cnt := by
  have hne : cnt.toInt ≠ 0 := fun h => hcnt (BitVec.eq_of_toInt_eq h)
  unfold moveDirection signDirection
  by_cases hpos : 0 < cnt.toInt
  · rw [if_pos hpos, if_pos hpos]
  · rw [if_neg hpos, if_neg hpos, if_pos (by omega)]

/-- The state of a MOVE that has passed its checks, at its loop head for the first time (R108). -/
def enteredLoop (p1 p2 p3 p4 : Chan) (cnt : BitVec 32) (s : State) : State :=
  { s with
    stepsRemaining := stepCount cnt
    direction := signDirection cnt
    seq := .busy (encode (.move p1 p2 p3 p4 cnt)) [.poll p1 p2 p3 p4, .respond 0] 0 }

theorem atLoopHead_enteredLoop (p1 p2 p3 p4 : Chan) (cnt : BitVec 32) (s : State) :
    atLoopHead (enteredLoop p1 p2 p3 p4 cnt s) p1 p2 p3 p4 cnt 0 := rfl

/-- A MOVE at its loop head performs its poll. -/
theorem exec_move_atLoopHead {k : Nat} (h : atLoopHead s p1 p2 p3 p4 cnt k) :
    exec (.move p1 p2 p3 p4 cnt) s =
      .next (runFrom (encode (.move p1 p2 p3 p4 cnt)) [.poll p1 p2 p3 p4, .respond 0] k s) :=
  runCommand_busy h

theorem exec_move_enters (hs : s.seq = .idle) (hcnt : cnt ≠ 0) (hc : s.speed = some c)
    (hindex : s.currentStepIndex.toNat < c.numberSteps.toNat) :
    exec (.move p1 p2 p3 p4 cnt) s = exec (.move p1 p2 p3 p4 cnt) (enteredLoop p1 p2 p3 p4 cnt s) := by
  have hchecks : moveError cnt s = none := by
    simp only [moveError, if_neg hcnt, hc, BitVec.le_def, if_neg (Nat.not_le.mpr hindex)]
  have hscript : scriptMove p1 p2 p3 p4 cnt s = [.poll p1 p2 p3 p4, .respond 0] := by
    simp only [scriptMove, hchecks, if_neg (stepCount_ne_zero hcnt)]
  have hstart : moveStarted cnt s = { s with stepsRemaining := stepCount cnt, direction := signDirection cnt } := by
    simp only [moveStarted, hchecks, moveDirection_of_ne_zero hcnt]
  rw [exec_move_atLoopHead (atLoopHead_enteredLoop p1 p2 p3 p4 cnt s), exec_eq_runCommand, runCommand_idle hs rfl,
    commandScript, commandStart, hscript, hstart]
  rfl

end

/-- Settles O32, check by check. -/
theorem moveChecksComeFirst : Obligations.MoveChecksComeFirst := by
  refine ⟨fun s p1 p2 p3 p4 cnt hs hcnt hc => exec_move_raises hs ?_,
    fun s p1 p2 p3 p4 cnt c hs hcnt hc hindex => exec_move_raises hs ?_⟩
  · simp only [moveError, if_neg hcnt, hc]
  · simp only [moveError, if_neg hcnt, hc, BitVec.le_def, if_pos hindex]

/-- Settles O33: a count of 0 passes the checks, asks for no step and keeps the direction. -/
theorem zeroCountMoveCompletes : Obligations.ZeroCountMoveCompletes := by
  intro s p1 p2 p3 p4 hs
  have hscript : scriptMove p1 p2 p3 p4 0 s = [.respond 0] := rfl
  have hstart : moveStarted 0 s = { s with stepsRemaining := 0 } := rfl
  rw [exec_eq_runCommand, runCommand_idle hs rfl, commandScript, commandStart, hscript, hstart, runFrom_respond,
    respond_eq]

/-- Settles O34: the script of a MOVE that passes its checks is its loop, from the registers the state at the loop head
has. -/
theorem moveEntersItsLoop : Obligations.MoveEntersItsLoop :=
  fun _ _ _ _ _ _ _ hs hcnt hc hindex => exec_move_enters hs hcnt hc hindex

/-! ## What CFGSPEED and MOVE leave -/

theorem moveStarted_speed (cnt : BitVec 32) (s : State) : (moveStarted cnt s).speed = s.speed := by
  unfold moveStarted
  split <;> rfl

/-- Settles O50: CFGSPEED writes what its two outcomes write (`exec_cfgspeed`); no micro-operation writes the speed
(`runFrom_frame`). -/
theorem stepperCommandsFrame : Obligations.StepperCommandsFrame := by
  refine ⟨fun speed steps s t hs h => ?_, fun p1 p2 p3 p4 cnt s t h => ?_⟩
  · rw [exec_cfgspeed speed steps hs] at h
    obtain rfl := Host.Outcome.next.inj h
    split <;> exact ⟨rfl, rfl, rfl, rfl, rfl, rfl, rfl, rfl⟩
  · obtain ⟨-, -, rfl⟩ | ⟨-, hill, -⟩ | ⟨op, rest, k, -, rfl⟩ := exec_next h
    · obtain ⟨-, -, hspeed, -⟩ := runFrom_frame (encode (.move p1 p2 p3 p4 cnt)) (scriptMove p1 p2 p3 p4 cnt s) 0
        (moveStarted cnt s)
      exact hspeed.trans (moveStarted_speed cnt s)
    · cases hill
    · obtain ⟨-, -, hspeed, -⟩ := runFrom_frame (encode (.move p1 p2 p3 p4 cnt)) (op :: rest) k s
      exact hspeed

end Sys2Proof.Machine
end

section
/-! MOVE's poll (R108, R110, R115): one that is not due samples the clock and waits; one that is due updates the step's
registers and goes on with its phase writes. -/

namespace Sys2Proof.Machine

open Sys2Proof Sys2Proof.Config

/-! ## What a sample and a due step's update do to each field -/

@[simp] theorem sampled_stepsRemaining (s : State) : (sampled s).stepsRemaining = s.stepsRemaining := by simp [sampled]
@[simp] theorem sampled_params (s : State) : (sampled s).params = s.params := by simp [sampled]
@[simp] theorem sampled_cmdIn (s : State) : (sampled s).cmdIn = s.cmdIn := by simp [sampled]
@[simp] theorem sampled_trace (s : State) : (sampled s).trace = s.trace ++ [.clockRead (nextClock s)] := by
  simp [sampled]

@[simp] theorem stepped_speed (c : Speed) (s : State) : (stepped c s).speed = s.speed := by simp [stepped, sampled]
@[simp] theorem stepped_stepsRemaining (c : Speed) (s : State) :
    (stepped c s).stepsRemaining = s.stepsRemaining - 1 := by simp [stepped]
@[simp] theorem stepped_currentStepIndex (c : Speed) (s : State) :
    (stepped c s).currentStepIndex = nextIndex s.direction c.numberSteps s.currentStepIndex := by
  simp [stepped, sampled]
@[simp] theorem stepped_direction (c : Speed) (s : State) : (stepped c s).direction = s.direction := by
  simp [stepped, sampled]
@[simp] theorem stepped_lastStepTimestamp (c : Speed) (s : State) :
    (stepped c s).lastStepTimestamp = nextClock s := rfl
@[simp] theorem stepped_params (c : Speed) (s : State) : (stepped c s).params = s.params := by simp [stepped]
@[simp] theorem stepped_cmdIn (c : Speed) (s : State) : (stepped c s).cmdIn = s.cmdIn := by simp [stepped]
@[simp] theorem stepped_trace (c : Speed) (s : State) :
    (stepped c s).trace = s.trace ++ [.clockRead (nextClock s)] := by simp [stepped]

/-! ## The two outcomes of a poll with a step pending -/

/-- The phase a due step comes to (R102, R110). -/
def nextPhase (c : Speed) (s : State) : Fin 4 := phaseOf (nextIndex s.direction c.numberSteps s.currentStepIndex)

/-- What a due step goes on with after its phase writes: the response, or the loop head again (R108). -/
def afterStep (p1 p2 p3 p4 : Chan) (s : State) : List MicroOp :=
  if s.stepsRemaining = 1 then [.respond 0] else [.poll p1 p2 p3 p4, .respond 0]

section
variable {s : State} {p1 p2 p3 p4 : Chan} {cnt : BitVec 32} {k : Nat} {c : Speed}

/-- A poll that finds the step not due samples the clock and stays. -/
theorem exec_move_waits (hhead : atLoopHead s p1 p2 p3 p4 cnt k) (hr : s.stepsRemaining ≠ 0) (hc : s.speed = some c)
    (hd : elapsed s.params.clockBits (nextClock s) s.lastStepTimestamp < c.stepDelayMicros.toNat) :
    exec (.move p1 p2 p3 p4 cnt) s =
      .next (goOn (encode (.move p1 p2 p3 p4 cnt)) [.poll p1 p2 p3 p4, .respond 0] k (sampled s)) := by
  have hpoll : perform (.poll p1 p2 p3 p4) (encode (.move p1 p2 p3 p4 cnt)) [.respond 0] k s =
      goOn (encode (.move p1 p2 p3 p4 cnt)) [.poll p1 p2 p3 p4, .respond 0] k (sampled s) := by
    simp only [perform, pollStep, if_neg hr, hc, if_pos hd]
    rfl
  rw [exec_move_atLoopHead hhead, runFrom_end (by rw [hpoll]; rfl), hpoll]

/-- A poll that finds the step due makes it: the registers first, then the phase writes. -/
theorem exec_move_steps (hhead : atLoopHead s p1 p2 p3 p4 cnt k) (hr : s.stepsRemaining ≠ 0) (hc : s.speed = some c)
    (hd : c.stepDelayMicros.toNat ≤ elapsed s.params.clockBits (nextClock s) s.lastStepTimestamp) :
    exec (.move p1 p2 p3 p4 cnt) s =
      .next (settle (encode (.move p1 p2 p3 p4 cnt))
        (phaseWrite s.params (nextPhase c s) s.direction p1 p2 p3 p4 ++ afterStep p1 p2 p3 p4 s) k (stepped c s)) := by
  have hpoll : perform (.poll p1 p2 p3 p4) (encode (.move p1 p2 p3 p4 cnt)) [.respond 0] k s =
      goOn (encode (.move p1 p2 p3 p4 cnt))
        (phaseWrite s.params (nextPhase c s) s.direction p1 p2 p3 p4 ++ afterStep p1 p2 p3 p4 s) k (stepped c s) := by
    have hlast : s.stepsRemaining - 1 = 0 ↔ s.stepsRemaining = 1 := sub_eq_zero
    have hupdate : advance c (nextClock s) (emit (.clockRead (nextClock s)) (popClock s)) = stepped c s := rfl
    simp only [perform, pollStep, if_neg hr, hc, if_neg (Nat.not_lt.mpr hd), hupdate, stepped_currentStepIndex,
      stepped_direction, stepped_stepsRemaining, hlast, afterStep, nextPhase]
  rw [exec_move_atLoopHead hhead, runFrom_settle hpoll]

/-- A scripted sample in range is the next one. -/
theorem nextClock_scripted {now : Nat} {clk : List Nat} (hk : s.clockIn = now :: clk)
    (hb : now < 2 ^ s.params.clockBits) : nextClock s = now := by
  rw [nextClock_cons hk, Nat.mod_eq_of_lt hb]

theorem sampled_scripted {now : Nat} {clk : List Nat} (hk : s.clockIn = now :: clk)
    (hb : now < 2 ^ s.params.clockBits) :
    sampled s = { s with clockIn := clk, trace := s.trace ++ [.clockRead now] } := by
  rw [sampled, nextClock_scripted hk hb, popClock_cons hk]
  rfl

/-- The step of a MOVE at its loop head is that MOVE's (R30). -/
theorem step_atLoopHead (hhead : atLoopHead s p1 p2 p3 p4 cnt k) : step s = exec (.move p1 p2 p3 p4 cnt) s := by
  obtain ⟨-, hbusy, -⟩ := stepRunsDecodedCommand
  exact hbusy s _ _ k _ hhead (decodeOfEncode _ rfl)

end

/-! ## A poll that is not due (R115) -/

/-- Settles O35: the sequencer is left where it stood. -/
theorem pollNotDueWaits : Obligations.PollNotDueWaits := by
  intro s p1 p2 p3 p4 cnt k now clk c hhead hr hc hk hb hd
  rw [exec_move_waits hhead hr hc (by rwa [nextClock_scripted hk hb]), sampled_scripted hk hb, goOn, ← hhead]

/-- Settles O45, by induction on the number of steps: each takes one sample and waits. -/
theorem movePollsWhileNotDue : Obligations.MovePollsWhileNotDue := by
  intro n
  induction n with
  | zero => exact fun s p1 p2 p3 p4 cnt k c hhead _ _ _ _ => ⟨s, rfl, hhead, rfl, rfl, sameStepper_refl s⟩
  | succ n ih =>
    intro s p1 p2 p3 p4 cnt k c hhead hr hc hlen hclk
    obtain ⟨now, clk, hk⟩ := List.exists_cons_of_length_pos (Nat.zero_lt_of_lt hlen)
    rw [hk] at hlen hclk
    obtain ⟨hb, hd⟩ := hclk now List.mem_cons_self
    have hstep := (step_atLoopHead hhead).trans (pollNotDueWaits s p1 p2 p3 p4 cnt k now clk c hhead hr hc hk hb hd)
    rw [core_run_succ hstep n]
    exact ih { s with clockIn := clk, trace := s.trace ++ [.clockRead now] } p1 p2 p3 p4 cnt k c hhead hr hc
      (Nat.le_of_succ_le_succ hlen) fun x hx => hclk x (List.mem_cons_of_mem _ hx)

end Sys2Proof.Machine
end

section
/-! MOVE's due step (R106, R110): its registers are updated, and its phase writes, with or without the mode changes
before them, complete, go on or are cut (R15, R127). -/

namespace Sys2Proof.Machine

open Sys2Proof Sys2Proof.Config

/-! ## The entries of the phase writes (R106) -/

/-- The duty writes of a step, role by role. -/
def phaseDuties (pr : Params) (d : Direction) (ph : Fin 4) (p1 p2 p3 p4 : Chan) : List (Byte × Byte) :=
  [(dutyReg p1, phaseDuty pr.phaseTable d ph 0), (dutyReg p2, phaseDuty pr.phaseTable d ph 1),
   (dutyReg p3, phaseDuty pr.phaseTable d ph 2), (dutyReg p4, phaseDuty pr.phaseTable d ph 3)]

theorem phaseEvents_eq (pr : Params) (d : Direction) (ph : Fin 4) (p1 p2 p3 p4 : Chan) :
    phaseEvents pr d ph p1 p2 p3 p4 = (phaseDuties pr d ph p1 p2 p3 p4).map (fun w => wrote pr w.1 w.2) := rfl

theorem records_phaseWrite_dutyOnly {pr : Params} (h : pr.phaseWriteOp = .dutyOnly) (ph : Fin 4) (d : Direction)
    (p1 p2 p3 p4 : Chan) : Records pr (phaseWrite pr ph d p1 p2 p3 p4) (phaseEvents pr d ph p1 p2 p3 p4) := by
  rw [phaseWrite_dutyOnly h]
  exact records_writes pr (phaseDuties pr d ph p1 p2 p3 p4)

theorem records_phaseWrite_setPwm {pr : Params} (h : pr.phaseWriteOp = .setPwm) (ph : Fin 4) (d : Direction)
    (p1 p2 p3 p4 : Chan) (b1 b2 b3 b4 : Byte) :
    Records pr (phaseWrite pr ph d p1 p2 p3 p4) (phasePwmEvents pr d ph p1 p2 p3 p4 b1 b2 b3 b4) := by
  rw [phaseWrite_setPwm h]
  exact .modeChange p1 .pwm b1 (.write _ _ (.modeChange p2 .pwm b2 (.write _ _
    (.modeChange p3 .pwm b3 (.write _ _ (.modeChange p4 .pwm b4 (.write _ _ .nil)))))))

/-- The register file after the phase writes, each after its mode change, the mode registers reading `b1` to `b4`. -/
theorem foldl_chipAfterEvent_phasePwmEvents (pr : Params) (d : Direction) (ph : Fin 4) (p1 p2 p3 p4 : Chan)
    (b1 b2 b3 b4 : Byte) (chip : Memory) :
    (phasePwmEvents pr d ph p1 p2 p3 p4 b1 b2 b3 b4).foldl chipAfterEvent chip =
      storeAll chip [
        (modeReg p1, encodeField pr.pairPos b1 (localIndex p1) .pwm), (dutyReg p1, phaseDuty pr.phaseTable d ph 0),
        (modeReg p2, encodeField pr.pairPos b2 (localIndex p2) .pwm), (dutyReg p2, phaseDuty pr.phaseTable d ph 1),
        (modeReg p3, encodeField pr.pairPos b3 (localIndex p3) .pwm), (dutyReg p3, phaseDuty pr.phaseTable d ph 2),
        (modeReg p4, encodeField pr.pairPos b4 (localIndex p4) .pwm), (dutyReg p4, phaseDuty pr.phaseTable d ph 3)
      ] := by
  have hrmw : ∀ (m : Memory) (c : Chan) (b : Byte), (rmwEvents pr c .pwm b).foldl chipAfterEvent m =
      Memory.write m (modeReg c).toNat (encodeField pr.pairPos b (localIndex c) .pwm) := fun _ _ _ => rfl
  have hduty : ∀ (m : Memory) (a v : Byte), chipAfterEvent m (wrote pr a v) = Memory.write m a.toNat v :=
    fun _ _ _ => rfl
  simp only [phasePwmEvents, List.foldl_append, hrmw, storeAll, List.foldl_cons, List.foldl_nil, hduty]

/-- The four writes alone take no byte. -/
theorem answersAll_phaseEvents (s : State) (d : Direction) (ph : Fin 4) (p1 p2 p3 p4 : Chan) :
    answersAll s (phaseEvents s.params d ph p1 p2 p3 p4) s.readIn :=
  (answersAll_of_no_read _ _ _ (writes_no_read s.params (phaseDuties s.params d ph p1 p2 p3 p4))).2 rfl

/-- What some entries leave when every transaction of theirs succeeds. -/
theorem Records.happened_eq {p : Params} {ops : List MicroOp} {es : List Event} (h : Records p ops es) (s : State)
    (l : List Bool) (bs : List Byte) :
    happened s es l bs =
      { s with statusIn := l, readIn := bs, chip := es.foldl chipAfterEvent s.chip, trace := s.trace ++ es } := by
  rw [happened, h.lost]

/-- Writes of which number `j` fails (R127). -/
theorem happened_failedAt_writes (s : State) (ws : List (Byte × Byte)) (j : Nat) (hj : j < ws.length) (l : List Bool)
    (bs : List Byte) :
    happened s (failedAt (ws.map (fun w => wrote s.params w.1 w.2)) j) l bs =
      { s with
        statusIn := l
        readIn := bs
        chip := Memory.forget (storeAll s.chip (ws.take j)) (ws.getD j (0, 0)).1.toNat
        lost := (ws.getD j (0, 0)).1.toNat :: s.lost
        trace := s.trace ++ (ws.take j).map (fun w => wrote s.params w.1 w.2) ++
          [.memWrite s.params.devAddr (ws.getD j (0, 0)).1 (ws.getD j (0, 0)).2 false] } := by
  have hchip := foldl_chipAfterEvent_wrote s.params s.chip (ws.take j)
  have hlost := (records_writes s.params (ws.take j)).lost s.lost
  rw [failedAt_writes _ _ _ hj, happened, List.foldl_append, List.foldl_append, hchip, hlost, ← List.append_assoc]
  rfl

/-- Writes of which one fails take no byte. -/
theorem answersAll_failedAt_writes (s : State) (ws : List (Byte × Byte)) {j : Nat} (hj : j < ws.length) :
    answersAll s (failedAt (ws.map (fun w => wrote s.params w.1 w.2)) j) s.readIn := by
  rw [failedAt_writes _ _ _ hj]
  exact (answersAll_of_no_read _ _ _ (List.forall_mem_append.mpr
    ⟨writes_no_read s.params (ws.take j), by simp⟩)).2 rfl

/-! ## A due step -/

/-- The state once a due poll's sample is taken and the step's registers are updated (R110). -/
def polledAt (c : Speed) (now : Nat) (clk : List Nat) (s : State) : State :=
  { s with
    clockIn := clk
    lastStepTimestamp := now
    currentStepIndex := nextIndex s.direction c.numberSteps s.currentStepIndex
    stepsRemaining := s.stepsRemaining - 1
    trace := s.trace ++ [.clockRead now] }

/-- MOVE at its loop head finds its step due at the sample `now`. -/
structure DueAt (p1 p2 p3 p4 : Chan) (cnt : BitVec 32) (k : Nat) (c : Speed) (now : Nat) (clk : List Nat)
    (s : State) : Prop where
  head : atLoopHead s p1 p2 p3 p4 cnt k
  pending : s.stepsRemaining ≠ 0
  configured : s.speed = some c
  sample : s.clockIn = now :: clk
  inRange : now < 2 ^ s.params.clockBits
  due : c.stepDelayMicros.toNat ≤ elapsed s.params.clockBits now s.lastStepTimestamp

/-- MOVE responds (OK, 0) after its last step, else stands at its loop head again (R108). -/
theorem settle_afterStep (cmd : Word) (p1 p2 p3 p4 : Chan) (s : State) (k : Nat) (u : State) :
    settle cmd (afterStep p1 p2 p3 p4 s) k u =
      if s.stepsRemaining = 1 then completed u u.statusIn u.readIn u.chip 0 []
      else { u with seq := .busy cmd [.poll p1 p2 p3 p4, .respond 0] k } := by
  unfold afterStep
  split
  · rw [settle_respond, respond_eq]
  · rfl

section
variable {s : State} {p1 p2 p3 p4 : Chan} {cnt : BitVec 32} {k now : Nat} {clk : List Nat} {c : Speed}
  {es : List Event} {l : List Bool} {bs : List Byte}

/-- A due step is settled from its updated registers. -/
theorem DueAt.exec_settle (h : DueAt p1 p2 p3 p4 cnt k c now clk s) :
    exec (.move p1 p2 p3 p4 cnt) s =
      .next (settle (encode (.move p1 p2 p3 p4 cnt))
        (phaseWrite s.params (nextPhase c s) s.direction p1 p2 p3 p4 ++ afterStep p1 p2 p3 p4 s) k
        (polledAt c now clk s)) := by
  have hnow := nextClock_scripted h.sample h.inRange
  have hstepped : stepped c s = polledAt c now clk s := by
    rw [stepped, hnow, sampled_scripted h.sample h.inRange]
    rfl
  rw [exec_move_steps h.head h.pending h.configured (by rw [hnow]; exact h.due), hstepped]

theorem answersAll_polledAt : answersAll (polledAt c now clk s) es bs ↔ answersAll s es bs :=
  answersAll_congr (s := s) (t := polledAt c now clk s) rfl rfl rfl rfl rfl es bs

/-- A due step whose failures do not end it goes on after its phase writes. -/
theorem DueAt.goesOn (h : DueAt p1 p2 p3 p4 cnt k c now clk s)
    (hrec : Records s.params (phaseWrite s.params (nextPhase c s) s.direction p1 p2 p3 p4) es) {oks : List Bool}
    (hp : (∀ ok ∈ oks, ok = true) ∨ s.params.busFail = .continue_) (hlen : oks.length = transactionsIn es)
    (hstatus : s.statusIn = oks ++ l) (ha : answersAll s (withStatuses es oks) bs) :
    exec (.move p1 p2 p3 p4 cnt) s =
      .next (settle (encode (.move p1 p2 p3 p4 cnt)) (afterStep p1 p2 p3 p4 s) (k + transactionsIn es)
        (happened (polledAt c now clk s) (withStatuses es oks) l bs)) := by
  rw [h.exec_settle, hrec.settle_goesOn (s := polledAt c now clk s) rfl hlen hstatus hp (answersAll_polledAt.2 ha)]

/-- A due step whose transactions all succeed. -/
theorem DueAt.completes (h : DueAt p1 p2 p3 p4 cnt k c now clk s)
    (hrec : Records s.params (phaseWrite s.params (nextPhase c s) s.direction p1 p2 p3 p4) es)
    (hstatus : s.statusIn = List.replicate (transactionsIn es) true ++ l) (ha : answersAll s es bs) :
    exec (.move p1 p2 p3 p4 cnt) s =
      .next (settle (encode (.move p1 p2 p3 p4 cnt)) (afterStep p1 p2 p3 p4 s) (k + transactionsIn es)
        { polledAt c now clk s with
          statusIn := l
          readIn := bs
          chip := es.foldl chipAfterEvent s.chip
          trace := (polledAt c now clk s).trace ++ es }) := by
  rw [h.goesOn hrec (.inl fun ok hok => List.eq_of_mem_replicate hok) List.length_replicate hstatus
    (by rwa [hrec.withStatuses_ok]), hrec.withStatuses_ok, hrec.happened_eq]
  rfl

/-- A due step whose transaction `j` fails under Abort is cut there. -/
theorem DueAt.aborts (h : DueAt p1 p2 p3 p4 cnt k c now clk s)
    (hrec : Records s.params (phaseWrite s.params (nextPhase c s) s.direction p1 p2 p3 p4) es) {j : Nat}
    (hp : s.params.busFail = .abort) (hj : j < transactionsIn es)
    (hstatus : s.statusIn = List.replicate j true ++ false :: l) (ha : answersAll s (failedAt es j) bs) :
    exec (.move p1 p2 p3 p4 cnt) s = .next (abortedAt (polledAt c now clk s) es k j l bs) := by
  rw [h.exec_settle, hrec.settle_aborted (s := polledAt c now clk s) rfl hp hj hstatus (answersAll_polledAt.2 ha)]

end

/-- Settles O36: the step's entries are four writes. -/
theorem dueStepWritesThePhase : Obligations.DueStepWritesThePhase := by
  intro s p1 p2 p3 p4 cnt k now clk c l hhead hr hc hk hb hd hop index ph duty events polled after
  have hdue : DueAt p1 p2 p3 p4 cnt k c now clk s := ⟨hhead, hr, hc, hk, hb, hd⟩
  have hrec := records_phaseWrite_dutyOnly hop ph s.direction p1 p2 p3 p4
  refine ⟨fun hok => ?_, fun oks hp hlen hstatus => ?_⟩
  · rw [hdue.completes hrec hok (answersAll_phaseEvents s s.direction ph p1 p2 p3 p4), settle_afterStep, phaseEvents_eq,
      foldl_chipAfterEvent_wrote]
    rfl
  · rw [hdue.goesOn hrec (.inr hp) hlen hstatus
      (answersAll_writes s (phaseDuties s.params s.direction ph p1 p2 p3 p4) oks), settle_afterStep]
    rfl

/-- Settles O37: the step's entries are four mode changes, each before its write. -/
theorem dueStepSetsPwmFirst : Obligations.DueStepSetsPwmFirst := by
  intro s p1 p2 p3 p4 cnt k now clk c l b1 b2 b3 b4 bs hhead hr hc hk hb hd hop index ph duty field events polled after
  have hdue : DueAt p1 p2 p3 p4 cnt k c now clk s := ⟨hhead, hr, hc, hk, hb, hd⟩
  have hrec := records_phaseWrite_setPwm hop ph s.direction p1 p2 p3 p4 b1 b2 b3 b4
  refine ⟨fun hok ha => ?_, fun oks hp hlen hstatus ha => ?_⟩
  · rw [hdue.completes hrec hok ha, settle_afterStep, foldl_chipAfterEvent_phasePwmEvents]
    rfl
  · rw [hdue.goesOn hrec (.inr hp) hlen hstatus ha, settle_afterStep]
    rfl

/-- Settles O39: the step's entries are cut at transaction `j`. -/
theorem phaseWriteFailure : Obligations.PhaseWriteFailure := by
  intro s p1 p2 p3 p4 cnt k now clk c l hhead hr hc hk hb hd hp index ph duty polled
  have hdue : DueAt p1 p2 p3 p4 cnt k c now clk s := ⟨hhead, hr, hc, hk, hb, hd⟩
  constructor
  · intro j hop hstatus writes failed
    rw [hdue.aborts (records_phaseWrite_dutyOnly hop ph s.direction p1 p2 p3 p4) hp j.isLt hstatus
      (answersAll_failedAt_writes s writes j.isLt)]
    exact congrArg (fun u => Host.Outcome.next (errored u .busTransportFailure (k + j.val)))
      (happened_failedAt_writes polled writes j.val j.isLt l s.readIn)
  · intro j b1 b2 b3 b4 bs hop hstatus events ha
    exact hdue.aborts (records_phaseWrite_setPwm hop ph s.direction p1 p2 p3 p4 b1 b2 b3 b4) hp j.isLt hstatus ha

/-! ## A MOVE of one step (R108) -/

/-- A MOVE of one step in direction `d` that is due at once, every transaction succeeding. -/
theorem exec_move_single {s : State} {p1 p2 p3 p4 : Chan} {cnt : BitVec 32} {now : Nat} {clk : List Nat} {c : Speed}
    {d : Direction} {es : List Event} {l : List Bool} {bs : List Byte} (hs : s.seq = .idle)
    (hindex : s.currentStepIndex.toNat < c.numberSteps.toNat)
    (hdue : DueAt p1 p2 p3 p4 cnt 0 c now clk (enteredLoop p1 p2 p3 p4 cnt s)) (hsign : signDirection cnt = d)
    (hcount : stepCount cnt = 1)
    (hrec : Records s.params
      (phaseWrite s.params (phaseOf (nextIndex d c.numberSteps s.currentStepIndex)) d p1 p2 p3 p4) es)
    (hstatus : s.statusIn = List.replicate (transactionsIn es) true ++ l) (ha : answersAll s es bs) :
    exec (.move p1 p2 p3 p4 cnt) s =
      .next (completed
        { s with
          clockIn := clk
          lastStepTimestamp := now
          currentStepIndex := nextIndex d c.numberSteps s.currentStepIndex
          stepsRemaining := 0
          direction := d }
        l bs (es.foldl chipAfterEvent s.chip) 0 (.clockRead now :: es)) := by
  have hcnt : cnt ≠ 0 := by
    rintro rfl
    cases hcount
  subst hsign
  have hread : answersAll (enteredLoop p1 p2 p3 p4 cnt s) es bs :=
    (answersAll_congr (s := s) (t := enteredLoop p1 p2 p3 p4 cnt s) rfl rfl rfl rfl rfl es bs).2 ha
  rw [exec_move_enters hs hcnt hdue.configured hindex, hdue.completes hrec hstatus hread, settle_afterStep,
    if_pos (show (enteredLoop p1 p2 p3 p4 cnt s).stepsRemaining = 1 from hcount)]
  simp [completed, polledAt, enteredLoop, hcount]

/-- Settles O38: one step forward or backward, with the entries of either PHASE_WRITE_OP. -/
theorem singleStepMoveCompletes : Obligations.SingleStepMoveCompletes := by
  intro s p1 p2 p3 p4 forward now clk c l hs hc hindex hk hb hd dir index ph duty field stepped
  have hsign : signDirection (if forward then 1 else -1) = dir := by cases forward <;> rfl
  have hcount : stepCount (if forward then 1 else -1) = 1 := by cases forward <;> rfl
  have hdue : DueAt p1 p2 p3 p4 _ 0 c now clk (enteredLoop p1 p2 p3 p4 (if forward then 1 else -1) s) :=
    ⟨rfl, fun hzero => absurd (hcount.symm.trans hzero) (by decide), hc, hk, hb, hd⟩
  constructor
  · intro hop hok
    rw [exec_move_single hs hindex hdue hsign hcount (records_phaseWrite_dutyOnly hop ph dir p1 p2 p3 p4) hok
      (answersAll_phaseEvents s dir ph p1 p2 p3 p4), phaseEvents_eq, foldl_chipAfterEvent_wrote]
    rfl
  · intro b1 b2 b3 b4 bs hop hok events ha
    rw [exec_move_single hs hindex hdue hsign hcount
      (records_phaseWrite_setPwm hop ph dir p1 p2 p3 p4 b1 b2 b3 b4) hok ha, foldl_chipAfterEvent_phasePwmEvents]

end Sys2Proof.Machine
end

section
/-! What a step's phase writes record whatever their statuses (R15), and that a step is made no earlier than it is due
(R116). -/

namespace Sys2Proof.Machine

open Sys2Proof Sys2Proof.Config

/-! ## The duty writes recorded -/

/-- From `s` to `t` the trace records the duty writes `ws`; the parameters and the host's commands are as they were. -/
structure DutiesRecorded (ws : List (Byte × Byte)) (s t : State) : Prop where
  params : t.params = s.params
  cmdIn : t.cmdIn = s.cmdIn
  trace : ∃ events, t.trace = s.trace ++ events ∧ events.filterMap dutyWrite = ws

theorem DutiesRecorded.trans {ws ws' : List (Byte × Byte)} {s t u : State} (h : DutiesRecorded ws s t)
    (h' : DutiesRecorded ws' t u) : DutiesRecorded (ws ++ ws') s u := by
  obtain ⟨hparams, hcmd, es, htrace, hes⟩ := h
  obtain ⟨hparams', hcmd', es', htrace', hes'⟩ := h'
  exact ⟨hparams'.trans hparams, hcmd'.trans hcmd, es ++ es', by rw [htrace', htrace, List.append_assoc],
    by rw [List.filterMap_append, hes, hes']⟩

/-- The duty write a plain micro-operation makes, whatever its status; a mode change makes none. -/
def opDuty : MicroOp → Option (Byte × Byte)
  | .write a v => if 0x02 ≤ a ∧ a ≤ 0x09 then some (a, v) else none
  | _ => none

theorem dutyWrite_memWrite (dev : DevAddr) (a v : Byte) (ok : Bool) :
    dutyWrite (.memWrite dev a v ok) = opDuty (.write a v) := rfl

theorem opDuty_write_dutyReg (c : Chan) (v : Byte) : opDuty (.write (dutyReg c) v) = some (dutyReg c, v) := by
  have hrange : 0x02 ≤ dutyReg c ∧ dutyReg c ≤ 0x09 := by revert c; decide
  rw [opDuty, if_pos hrange]

theorem opDuty_write_modeReg (c : Chan) (v : Byte) : opDuty (.write (modeReg c) v) = none := by
  have hrange : ¬ (0x02 ≤ modeReg c ∧ modeReg c ≤ 0x09) := by revert c; decide
  rw [opDuty, if_neg hrange]

/-- The duty writes of a step are the four of its phase, with either PHASE_WRITE_OP (R106). -/
theorem phaseWrite_duties (pr : Params) (ph : Fin 4) (d : Direction) (p1 p2 p3 p4 : Chan) :
    (phaseWrite pr ph d p1 p2 p3 p4).filterMap opDuty = phaseDuties pr d ph p1 p2 p3 p4 := by
  have hread : ∀ a next, opDuty (.read a next) = none := fun _ _ => rfl
  cases h : pr.phaseWriteOp with
  | dutyOnly => simp [phaseWrite_dutyOnly h, opDuty_write_dutyReg, phaseDuties]
  | setPwm => simp [phaseWrite_setPwm h, setModeOne, hread, opDuty_write_dutyReg, phaseDuties]

/-! ## Where micro-operations lead, whatever their statuses -/

/-- A failure ends the command, or it goes on by `go` with the duty writes `ws` recorded; the stepper registers are as
they were. -/
inductive Went (ws : List (Byte × Byte)) (s : State) (go : Nat → State → State) : State → Prop where
  | fails {t : State} (k : Nat) (hstepper : sameStepper s t) (hcmd : t.cmdIn = s.cmdIn) :
    Went ws s go (raise .busTransportFailure k t)
  | goesOn {t : State} (k : Nat) (hstepper : sameStepper s t) (hduties : DutiesRecorded ws s t) : Went ws s go (go k t)

section
variable {ws ws' : List (Byte × Byte)} {s u : State} {go go' : Nat → State → State} {cmd : Word}
  {rest pos : List MicroOp} {k : Nat}

/-- Going on after going on. -/
theorem Went.bind (h : Went ws s go u) (hnext : ∀ k t, Went ws' t go' (go k t)) : Went (ws ++ ws') s go' u := by
  cases h with
  | fails k hstepper hcmd => exact .fails k hstepper hcmd
  | @goesOn t k hstepper hduties =>
    have hthen := hnext k t
    generalize go k t = v at hthen
    cases hthen with
    | fails k' hstepper' hcmd' => exact .fails k' (sameStepper_trans hstepper hstepper') (hcmd'.trans hduties.cmdIn)
    | goesOn k' hstepper' hduties' => exact .goesOn k' (sameStepper_trans hstepper hstepper') (hduties.trans hduties')

/-- A plain micro-operation that goes on is followed by the rest of the script. -/
theorem Went.lift {op : MicroOp} (hop : plainOp op = true) (h : Went ws s (goOn cmd pos) (perform op cmd rest k s)) :
    Went ws s (settle cmd pos) (settle cmd (op :: rest) k s) := by
  rw [settle_of_not_resting (not_resting_of_plainOp hop rest)]
  generalize hu : perform op cmd rest k s = u at h
  cases h with
  | fails k' hstepper hcmd =>
    rw [runFrom_end (by rw [hu]; rfl), hu]
    exact .fails k' hstepper hcmd
  | goesOn k' hstepper hduties =>
    rw [runFrom_settle hu]
    exact .goesOn k' hstepper hduties

theorem went_write (a v : Byte) :
    Went (opDuty (.write a v)).toList s (settle cmd rest) (settle cmd (.write a v :: rest) k s) := by
  refine .lift rfl ?_
  have hentry : [Event.memWrite s.params.devAddr a v (nextStatus s)].filterMap dutyWrite =
      (opDuty (.write a v)).toList := by
    rw [List.filterMap_cons, dutyWrite_memWrite]
    cases opDuty (.write a v) <;> rfl
  simp only [perform, chkWrite, afterFailure]
  split
  · exact .goesOn _ (by simp [sameStepper]) ⟨by simp, by simp, _, by simp, hentry⟩
  · split
    · exact .fails _ (by simp [sameStepper]) (by simp)
    · exact .goesOn _ (by simp [sameStepper]) ⟨by simp, by simp, _, by simp, hentry⟩

theorem went_modeChange (a : Byte) (c : Chan) (m : Mode) :
    Went [] s (settle cmd rest) (settle cmd (.read a (.replaceField c m) :: rest) k s) := by
  have hread : ∃ b, Went [] s (goOn cmd (.write (modeReg c) b :: rest))
      (perform (.read a (.replaceField c m)) cmd rest k s) := by
    simp only [perform, chkRead]
    split
    · exact ⟨_, .goesOn _ (by simp [sameStepper]) ⟨by simp, by simp,
        [.memRead s.params.devAddr a true (some (answerByte a (popStatus s)))], by simp, rfl⟩⟩
    · split
      · exact ⟨0, .fails _ (by simp [sameStepper]) (by simp)⟩
      · exact ⟨_, .goesOn _ (by simp [sameStepper]) ⟨by simp, by simp,
          [.memRead s.params.devAddr a false (some (nextByte (popStatus s)))], by simp, rfl⟩⟩
  obtain ⟨b, hread⟩ := hread
  refine (hread.lift rfl).bind fun k t => ?_
  have hwrite := went_write (s := t) (cmd := cmd) (rest := rest) (k := k) (modeReg c) b
  rwa [opDuty_write_modeReg] at hwrite

theorem went_delay (d : Delay) : Went [] s (settle cmd rest) (settle cmd (.delay d :: rest) k s) := by
  rw [settle_delay]
  exact .goesOn _ (by simp [sameStepper]) ⟨rfl, rfl, [.delay d], rfl, rfl⟩

/-- A plain script fails, or goes on with the duty writes of its micro-operations recorded. -/
theorem went_plain {ops : List MicroOp} (h : ops.all plainOp = true) :
    Went (ops.filterMap opDuty) s (settle cmd rest) (settle cmd (ops ++ rest) k s) := by
  induction ops generalizing s k with
  | nil => exact .goesOn k (sameStepper_refl s) ⟨rfl, rfl, [], (List.append_nil _).symm, rfl⟩
  | cons op ops ih =>
    rw [List.all_cons, Bool.and_eq_true] at h
    obtain ⟨hop, hops⟩ := h
    have hrest := fun k t => ih (s := t) (k := k) hops
    cases op with
    | write a v =>
      have hduties : (MicroOp.write a v :: ops).filterMap opDuty =
          (opDuty (.write a v)).toList ++ ops.filterMap opDuty := by
        rw [List.filterMap_cons]
        cases opDuty (.write a v) <;> rfl
      rw [hduties]
      exact (went_write a v).bind hrest
    | delay d => exact (went_delay d).bind hrest
    | read a next =>
      cases next with
      | replaceField c m => exact (went_modeChange a c m).bind hrest
      | _ => cases hop
    | _ => cases hop

/-! ## A due step, whatever its statuses -/

variable {p1 p2 p3 p4 : Chan} {cnt : BitVec 32} {c : Speed}

/-- A poll with a step pending waits, or makes the step from the registers it updates, fails or goes on. -/
inductive PolledAtHead (p1 p2 p3 p4 : Chan) (cnt : BitVec 32) (k : Nat) (c : Speed) (s : State) : State → Prop where
  | waits : PolledAtHead p1 p2 p3 p4 cnt k c s
    (goOn (encode (.move p1 p2 p3 p4 cnt)) [.poll p1 p2 p3 p4, .respond 0] k (sampled s))
  | steps {u : State} (hdue : c.stepDelayMicros.toNat ≤ elapsed s.params.clockBits (nextClock s) s.lastStepTimestamp)
    (h : Went (phaseDuties s.params s.direction (nextPhase c s) p1 p2 p3 p4) (stepped c s)
      (settle (encode (.move p1 p2 p3 p4 cnt)) (afterStep p1 p2 p3 p4 s)) u) :
    PolledAtHead p1 p2 p3 p4 cnt k c s u

theorem exec_move_polls (hhead : atLoopHead s p1 p2 p3 p4 cnt k) (hr : s.stepsRemaining ≠ 0) (hc : s.speed = some c) :
    ∃ u, exec (.move p1 p2 p3 p4 cnt) s = .next u ∧ PolledAtHead p1 p2 p3 p4 cnt k c s u := by
  obtain hd | hd := Nat.lt_or_ge (elapsed s.params.clockBits (nextClock s) s.lastStepTimestamp) c.stepDelayMicros.toNat
  · exact ⟨_, exec_move_waits hhead hr hc hd, .waits⟩
  · refine ⟨_, exec_move_steps hhead hr hc hd, .steps hd ?_⟩
    rw [← phaseWrite_duties]
    exact went_plain (phaseWrite_plain s.params (nextPhase c s) s.direction p1 p2 p3 p4)

/-- What follows a due step leaves the timestamp. -/
theorem settle_afterStep_lastStepTimestamp (k : Nat) (u : State) :
    (settle cmd (afterStep p1 p2 p3 p4 s) k u).lastStepTimestamp = u.lastStepTimestamp := by
  rw [settle_afterStep]
  split <;> rfl

end

/-- Settles O44: a poll that waits leaves the step count, and one that makes the step was due at the sample it leaves as
the timestamp. -/
theorem stepsAreSpaced : Obligations.StepsAreSpaced := by
  intro s t p1 p2 p3 p4 cnt k c hhead hr hc h hmade
  obtain ⟨u, hexec, hpoll⟩ := exec_move_polls hhead hr hc
  obtain rfl : u = t := Host.Outcome.next.inj (hexec.symm.trans h)
  cases hpoll with
  | waits => exact absurd (by simp) hmade
  | steps hdue hwent =>
    have hstamp : u.lastStepTimestamp = nextClock s := by
      cases hwent with
      | fails n hstepper _ =>
        obtain ⟨-, -, -, -, hstamp⟩ := hstepper
        exact hstamp
      | goesOn n hstepper _ =>
        obtain ⟨-, -, -, -, hstamp⟩ := hstepper
        exact (settle_afterStep_lastStepTimestamp n _).trans hstamp
    rw [hstamp]
    exact ⟨hdue, nextClock_lt s⟩

end Sys2Proof.Machine
end

section
/-! The index law (R111): a MOVE that completes has walked its count of steps, phase by phase, whichever polls were due
and whatever the statuses under Continue. -/

namespace Sys2Proof.Machine

open Sys2Proof Sys2Proof.Config

/-! ## The indices of a walk (R110) -/

/-- The index after `m` steps from `i` in direction `d`. -/
def walk (d : Direction) (n i : BitVec 16) (m : Nat) : BitVec 16 := (nextIndex d n)^[m] i

theorem walk_succ (d : Direction) (n i : BitVec 16) (m : Nat) : walk d n i (m + 1) = nextIndex d n (walk d n i m) :=
  Function.iterate_succ_apply' _ _ _

theorem walk_lt (d : Direction) {n i : BitVec 16} (h : i < n) (m : Nat) : walk d n i m < n := by
  induction m with
  | zero => exact h
  | succ m ih => rw [walk_succ]; exact nextIndex_lt d ih

/-- One step in a direction, as a number. -/
def stepSign : Direction → Int
  | .forward => 1
  | .backward => -1

theorem nextIndex_toInt (d : Direction) {n i : BitVec 16} (h : i < n) :
    ((nextIndex d n i).toNat : Int) = (i.toNat + stepSign d) % n.toNat := by
  obtain ⟨hforward, hbackward⟩ := stepIndexWraps n i h
  cases d with
  | forward => exact hforward
  | backward => exact hbackward

/-- The walk as a number, modulo the steps per revolution. -/
theorem walk_toInt (d : Direction) {n i : BitVec 16} (h : i < n) (m : Nat) :
    ((walk d n i m).toNat : Int) = (i.toNat + stepSign d * m) % n.toNat := by
  induction m with
  | zero =>
    have hlt : (i.toNat : Int) < n.toNat := Int.ofNat_lt.2 h
    rw [Nat.cast_zero, mul_zero, add_zero, Int.emod_eq_of_lt (Int.natCast_nonneg _) hlt]
    rfl
  | succ m ih =>
    rw [walk_succ, nextIndex_toInt d (walk_lt d h m), ih, Int.emod_add_emod, Nat.cast_succ]
    congr 1
    ring

/-- The phase of a walk's index, from that number (R102). -/
theorem phaseOf_walk (d : Direction) {n i : BitVec 16} (h : i < n) (m : Nat) :
    phaseOf (walk d n i m) = ⟨((i.toNat + stepSign d * m) % n.toNat : Int).toNat % 4, Nat.mod_lt _ (by decide)⟩ := by
  rw [Fin.ext_iff, ← walk_toInt d h m]
  rfl

/-- The duty writes of the first `m` steps of a walk. -/
def walkDuties (pr : Params) (d : Direction) (n i : BitVec 16) (p1 p2 p3 p4 : Chan) (m : Nat) : List (Byte × Byte) :=
  (List.range m).flatMap (fun j => phaseDuties pr d (phaseOf (walk d n i (j + 1))) p1 p2 p3 p4)

theorem walkDuties_succ (pr : Params) (d : Direction) (n i : BitVec 16) (p1 p2 p3 p4 : Chan) (m : Nat) :
    walkDuties pr d n i p1 p2 p3 p4 (m + 1) =
      walkDuties pr d n i p1 p2 p3 p4 m ++ phaseDuties pr d (phaseOf (nextIndex d n (walk d n i m))) p1 p2 p3 p4 := by
  rw [walkDuties, List.range_succ, List.flatMap_append, List.flatMap_singleton, walk_succ]
  rfl

/-! ## How far a MOVE has come -/

/-- From `s` to `t` a MOVE has made `m` of its steps. -/
structure Walked (p1 p2 p3 p4 : Chan) (c : Speed) (m : Nat) (s t : State) : Prop where
  duties : DutiesRecorded (walkDuties s.params s.direction c.numberSteps s.currentStepIndex p1 p2 p3 p4 m) s t
  speed : t.speed = s.speed
  direction : t.direction = s.direction
  index : t.currentStepIndex = walk s.direction c.numberSteps s.currentStepIndex m
  remaining : t.stepsRemaining.toNat + m = s.stepsRemaining.toNat

section
variable {p1 p2 p3 p4 : Chan} {c : Speed} {m : Nat} {s t u : State}

theorem Walked.refl (s : State) : Walked p1 p2 p3 p4 c 0 s s :=
  ⟨⟨rfl, rfl, [], (List.append_nil _).symm, rfl⟩, rfl, rfl, rfl, rfl⟩

/-- No step is made where the stepper registers stay and no duty write is recorded. -/
theorem Walked.stays (h : Walked p1 p2 p3 p4 c m s t) (hstepper : sameStepper t u) (hduties : DutiesRecorded [] t u) :
    Walked p1 p2 p3 p4 c m s u := by
  obtain ⟨hspeed, hremaining, hindex, hdirection, -⟩ := hstepper
  have hrecorded := h.duties.trans hduties
  rw [List.append_nil] at hrecorded
  exact ⟨hrecorded, hspeed.trans h.speed, hdirection.trans h.direction, hindex.trans h.index,
    by rw [hremaining]; exact h.remaining⟩

/-- A due step and its phase writes are one step more. -/
theorem Walked.steps (h : Walked p1 p2 p3 p4 c m s t) (hr : t.stepsRemaining ≠ 0)
    (hstepper : sameStepper (stepped c t) u)
    (hduties : DutiesRecorded (phaseDuties t.params t.direction (nextPhase c t) p1 p2 p3 p4) (stepped c t) u) :
    Walked p1 p2 p3 p4 c (m + 1) s u := by
  obtain ⟨hspeed, hremaining, hindex, hdirection, -⟩ := hstepper
  have hsample : DutiesRecorded [] t (stepped c t) :=
    ⟨stepped_params c t, stepped_cmdIn c t, [.clockRead (nextClock t)], stepped_trace c t, rfl⟩
  have hrecorded := h.duties.trans (hsample.trans hduties)
  rw [List.nil_append, nextPhase, h.duties.params, h.direction, h.index, ← walkDuties_succ] at hrecorded
  refine ⟨hrecorded, ?_, ?_, ?_, ?_⟩
  · rw [hspeed, stepped_speed, h.speed]
  · rw [hdirection, stepped_direction, h.direction]
  · rw [hindex, stepped_currentStepIndex, walk_succ, h.index, h.direction]
  · have hcount := h.remaining
    rw [hremaining, stepped_stepsRemaining]
    bv_omega

end

/-! ## The course of a MOVE -/

/-- Where a MOVE entered in `s` stands after some steps of the machine: at its loop head on its way, or ended, with
every step made if it ended with OK. -/
inductive MoveCourse (p1 p2 p3 p4 : Chan) (cnt : BitVec 32) (c : Speed) (s t : State) : Prop where
  | polling (m k : Nat) (h : Walked p1 p2 p3 p4 c m s t) (hhead : atLoopHead t p1 p2 p3 p4 cnt k)
    (hr : t.stepsRemaining ≠ 0)
  | ended (hidle : t.seq = .idle) (hcmd : t.cmdIn = [])
    (hok : t.status = 0 → ∃ m, Walked p1 p2 p3 p4 c m s t ∧ t.stepsRemaining = 0)

section
variable {p1 p2 p3 p4 : Chan} {cnt : BitVec 32} {c : Speed} {m k : Nat} {s t u : State}

/-- After a step's phase writes the MOVE responds, or stands at its loop head again. -/
theorem moveCourse_afterStep (hcmd : s.cmdIn = []) (h : Walked p1 p2 p3 p4 c (m + 1) s u)
    (hu : u.stepsRemaining = t.stepsRemaining - 1) :
    MoveCourse p1 p2 p3 p4 cnt c s
      (settle (encode (.move p1 p2 p3 p4 cnt)) (afterStep p1 p2 p3 p4 t) k u) := by
  unfold afterStep
  split
  next hlast =>
    rw [settle_respond]
    refine .ended rfl (h.duties.cmdIn.trans hcmd) fun _ => ⟨m + 1, h.stays (sameStepper_refl u) ?_, ?_⟩
    · exact ⟨rfl, rfl, [.responded 0], rfl, rfl⟩
    · exact hu.trans (sub_eq_zero.2 hlast)
  next hmore =>
    rw [settle_poll]
    refine .polling (m + 1) k (h.stays (sameStepper_refl u) ?_) rfl ?_
    · exact ⟨rfl, rfl, [], (List.append_nil _).symm, rfl⟩
    · exact fun hzero => hmore (sub_eq_zero.1 (hu.symm.trans hzero))

/-- Every step of the machine keeps a MOVE on its course. -/
theorem MoveCourse.step (hc : s.speed = some c) (hcmd : s.cmdIn = []) (h : MoveCourse p1 p2 p3 p4 cnt c s t) :
    ∃ u, Machine.step t = .next u ∧ MoveCourse p1 p2 p3 p4 cnt c s u := by
  cases h with
  | ended hidle hcmd hok =>
    obtain ⟨-, -, hwait, -⟩ := stepRunsDecodedCommand
    exact ⟨t, hwait t hidle hcmd, .ended hidle hcmd hok⟩
  | polling m k h hhead hr =>
    obtain ⟨u, hexec, hpoll⟩ := exec_move_polls hhead hr (h.speed.trans hc)
    refine ⟨u, (step_atLoopHead hhead).trans hexec, ?_⟩
    cases hpoll with
    | waits =>
      refine .polling m k (h.stays ?_ ?_) rfl (by simpa using hr)
      · exact sampled_sameStepper t
      · exact ⟨sampled_params t, sampled_cmdIn t, [.clockRead (nextClock t)], sampled_trace t, rfl⟩
    | steps _ hwent =>
      cases hwent with
      | @fails v n _ hkeep =>
        have hleft : v.cmdIn = [] := by rw [hkeep, stepped_cmdIn, h.duties.cmdIn, hcmd]
        exact .ended rfl hleft nofun
      | goesOn n hstepper hduties =>
        obtain ⟨-, hremaining, -⟩ := id hstepper
        exact moveCourse_afterStep hcmd (h.steps hr hstepper hduties) (hremaining.trans (stepped_stepsRemaining c t))

/-- A run of the machine keeps a MOVE on its course. -/
theorem MoveCourse.run (hc : s.speed = some c) (hcmd : s.cmdIn = []) (n : Nat) (h : MoveCourse p1 p2 p3 p4 cnt c s t)
    (hrun : Host.Core.run Sys2Proof.core n t = .next u) : MoveCourse p1 p2 p3 p4 cnt c s u := by
  induction n generalizing t with
  | zero =>
    obtain rfl : t = u := Host.Outcome.next.inj hrun
    exact h
  | succ n ih =>
    obtain ⟨v, hstep, hv⟩ := h.step hc hcmd
    rw [core_run_succ hstep] at hrun
    exact ih hv hrun

end

/-! ## The law -/

theorem stepSign_signDirection (cnt : BitVec 32) : stepSign (signDirection cnt) = if 0 < cnt.toInt then 1 else -1 := by
  unfold signDirection
  split <;> rfl

/-- The steps of a count, in its direction, are the count. -/
theorem stepSign_mul_natAbs (cnt : BitVec 32) : stepSign (signDirection cnt) * cnt.toInt.natAbs = cnt.toInt := by
  rw [stepSign_signDirection]
  split <;> omega

/-- Two states whose next step is the same have the same runs. -/
theorem core_run_congr {s t : State} (h : step s = step t) (n : Nat) :
    Host.Core.run Sys2Proof.core (n + 1) s = Host.Core.run Sys2Proof.core (n + 1) t := by
  have hcore : Sys2Proof.core.step s = Sys2Proof.core.step t := h
  simp only [Host.Core.run, hcore]

/-- The state of a MOVE taken from the host, at its loop head for the first time. -/
def takenMove (p1 p2 p3 p4 : Chan) (cnt : BitVec 32) (s : State) : State :=
  enteredLoop p1 p2 p3 p4 cnt { s with cmdIn := [] }

/-- The first step of a presented MOVE is that of the MOVE at its loop head. -/
theorem step_takenMove {s : State} {p1 p2 p3 p4 : Chan} {cnt : BitVec 32} {c : Speed} (hs : s.seq = .idle)
    (hcmd : s.cmdIn = [encode (.move p1 p2 p3 p4 cnt)]) (hcnt : cnt ≠ 0) (hc : s.speed = some c)
    (hindex : s.currentStepIndex.toNat < c.numberSteps.toNat) :
    step s = step (takenMove p1 p2 p3 p4 cnt s) := by
  rw [takenMove, step_atLoopHead (atLoopHead_enteredLoop p1 p2 p3 p4 cnt { s with cmdIn := [] }),
    step_encode hs rfl hcmd]
  exact exec_move_enters hs hcnt hc hindex

/-- A presented MOVE that a run has ended with OK has walked its count. -/
theorem walked_of_run {s t : State} {p1 p2 p3 p4 : Chan} {cnt : BitVec 32} {c : Speed} {n : Nat} (hs : s.seq = .idle)
    (hcmd : s.cmdIn = [encode (.move p1 p2 p3 p4 cnt)]) (hcnt : cnt ≠ 0) (hc : s.speed = some c)
    (hindex : s.currentStepIndex.toNat < c.numberSteps.toNat)
    (hrun : Host.Core.run Sys2Proof.core (n + 1) s = .next t) (hidle : t.seq = .idle) (hok : t.status = 0) :
    Walked p1 p2 p3 p4 c cnt.toInt.natAbs (takenMove p1 p2 p3 p4 cnt s) t ∧
      t.stepsRemaining = 0 := by
  rw [core_run_congr (step_takenMove hs hcmd hcnt hc hindex)] at hrun
  have hstart : MoveCourse p1 p2 p3 p4 cnt c (takenMove p1 p2 p3 p4 cnt s) (takenMove p1 p2 p3 p4 cnt s) :=
    .polling 0 0 (.refl _) rfl (stepCount_ne_zero hcnt)
  cases hstart.run (by exact hc) rfl (n + 1) hrun with
  | polling m k _ hhead _ => rw [atLoopHead, hidle] at hhead; cases hhead
  | ended _ _ hmade =>
    obtain ⟨m, hwalked, hzero⟩ := hmade hok
    have hcount := hwalked.remaining
    rw [hzero] at hcount
    obtain rfl : m = cnt.toInt.natAbs := (Nat.zero_add m).symm.trans (hcount.trans (stepCount_toNat cnt))
    exact ⟨hwalked, hzero⟩

/-- Settles O46: the MOVE has walked its count (`walked_of_run`), a walk being a sum modulo the steps per revolution. -/
theorem moveIndexLaw : Obligations.MoveIndexLaw := by
  intro s t p1 p2 p3 p4 cnt c n hs hcmd hcnt hc hindex hn hrun hidle hok dir index
  obtain ⟨n, rfl⟩ := Nat.exists_eq_add_of_le' hn
  obtain ⟨⟨hduties, -, -, hlast, -⟩, hzero⟩ := walked_of_run hs hcmd hcnt hc hindex hrun hidle hok
  obtain ⟨-, -, events, htrace, hevents⟩ := hduties
  have hlt : s.currentStepIndex < c.numberSteps := BitVec.lt_def.2 hindex
  refine ⟨?_, hzero, ?_⟩
  · rw [hlast]
    exact (walk_toInt (signDirection cnt) hlt _).trans (by rw [stepSign_mul_natAbs])
  · have htail : t.trace.drop s.trace.length = events := by rw [htrace]; exact List.drop_left
    rw [htail, hevents, walkDuties]
    refine List.flatMap_congr fun j _ => ?_
    have hphase := phaseOf_walk (signDirection cnt) hlt (j + 1)
    rw [stepSign_signDirection] at hphase
    exact congrArg (fun ph => phaseDuties s.params (signDirection cnt) ph p1 p2 p3 p4) hphase

end Sys2Proof.Machine
end

section
/-! The initialisation (44_init.md): what BEGIN and SWRESET leave, whichever of their transactions fail (R117, R118, U2). -/

namespace Sys2Proof.Machine

open Sys2Proof Sys2Proof.Config

/-! ## BEGIN (R117) -/

/-- BEGIN's register writes and delays, after its bus initialisation. -/
def beginOps (pr : Params) : List MicroOp :=
  [.write init0.1 init0.2, .delay ⟨pr.beginDelay1Us, .us⟩, .write init1.1 init1.2, .delay pr.beginDelay2]

/-- What `beginOps` records when both writes succeed. -/
def beginEntries (p : Params) : List Event :=
  [wrote p 0x00 0x01, .delay ⟨p.beginDelay1Us, .us⟩, wrote p 0x01 0x14, .delay p.beginDelay2]

theorem records_beginOps (p : Params) : Records p (beginOps p) (beginEntries p) :=
  .write 0x00 0x01 (.delay _ (.write 0x01 0x14 (.delay _ .nil)))

/-- `s` once BEGIN has driven the pin low and initialised the bus, before its first write: registers 0x00 and 0x01 alone can
be known (U2; log entry 30). -/
def busInitialised (s : State) : State :=
  { s with
    en := .low
    chip := s.chip.filter (fun c => c.1 == 0 || c.1 == 1)
    epoch := s.epoch + 1
    trace := s.trace ++ [.pinWrite false, .busInit] }

theorem busInitialised_eq (s : State) :
    emit .busInit (forgetBesideInit (emit (.pinWrite false) { s with en := .low })) = busInitialised s := by
  have htrace : s.trace ++ [.pinWrite false] ++ [.busInit] = s.trace ++ [.pinWrite false, .busInit] :=
    List.append_assoc _ _ _
  rw [busInitialised, ← htrace]
  rfl

/-- An Idle sequencer accepts BEGIN, and comes to its first write with the bus initialised. -/
theorem exec_begin_settle {s : State} (hs : s.seq = .idle) :
    exec .begin s =
      .next (settle (encode .begin) (beginOps s.params ++ [.respond 0]) 0 (busInitialised s)) := by
  have hrun : exec .begin s = .next (settle (encode .begin) (scriptBegin s.params) 0 s) := runCommand_settle hs rfl rfl
  rw [hrun, scriptBegin, settle_pinWrite, settle_busInit, ← busInitialised_eq]
  rfl

/-- The response after the entries since the bus initialisation, in the terms of `completed`. -/
theorem continued_busInitialised (s : State) (events : List Event) (l : List Bool) :
    continued (busInitialised s) events l s.readIn 0 =
      completed { s with en := .low, epoch := s.epoch + 1, lost := events.foldl lostAfterEvent s.lost } l s.readIn
        (events.foldl chipAfterEvent (s.chip.filter (fun c => c.1 == 0 || c.1 == 1))) 0
        ([.pinWrite false, .busInit] ++ events) := by
  simp [continued_eq_completed, completed, busInitialised]

/-- BEGIN's failures not ending it, it makes its writes and delays and responds. -/
theorem exec_begin_goesOn {s : State} {oks l : List Bool} (hs : s.seq = .idle)
    (hp : (∀ ok ∈ oks, ok = true) ∨ s.params.busFail = .continue_) (hlen : oks.length = 2)
    (hstatus : s.statusIn = oks ++ l) :
    exec .begin s = .next (continued (busInitialised s) (withStatuses (beginEntries s.params) oks) l s.readIn 0) := by
  have hread : answersAll (busInitialised s) (withStatuses (beginEntries s.params) oks) s.readIn :=
    (answersAll_of_no_read _ _ _ (withStatuses_no_read _ _ (by simp [beginEntries, wrote]))).2 rfl
  rw [exec_begin_settle hs,
    (records_beginOps s.params).settle_goesOn (s := busInitialised s) rfl hlen hstatus hp hread, settle_respond,
    respond_happened]

/-- BEGIN's write number `j` failing under Abort, it is cut there. -/
theorem exec_begin_aborts {s : State} {j : Nat} {l : List Bool} (hs : s.seq = .idle)
    (hp : s.params.busFail = .abort) (hj : j < 2) (hstatus : s.statusIn = List.replicate j true ++ false :: l) :
    exec .begin s = .next (abortedAt (busInitialised s) (beginEntries s.params) 0 j l s.readIn) := by
  have hread : answersAll (busInitialised s) (failedAt (beginEntries s.params) j) s.readIn := by
    match j, hj with
    | 0, _ => rfl
    | 1, _ => rfl
  rw [exec_begin_settle hs,
    (records_beginOps s.params).settle_aborted (s := busInitialised s) rfl hp hj hstatus hread]

/-- Both writes made, registers 0x00 and 0x01 alone are known, with BEGIN's bytes (U2). -/
theorem chipAfter_beginEntries (s : State) :
    (beginEntries s.params).foldl chipAfterEvent (s.chip.filter (fun c => c.1 == 0 || c.1 == 1)) =
      [(0x00, 0x01), (0x01, 0x14)] :=
  congrArg (Memory.insert (0x01, 0x14)) (write_init0_forgetBesideInit s 0x01)

/-- The first write failed, 0x01 alone can be known, as it was before BEGIN (log entry 30). -/
theorem chipAfter_beginEntries_failed_first (s : State) :
    (failedAt (beginEntries s.params) 0).foldl chipAfterEvent (s.chip.filter (fun c => c.1 == 0 || c.1 == 1)) =
      s.chip.filter (fun c => c.1 == 1) := by
  have hforget : (s.chip.filter (fun c => c.1 == 0 || c.1 == 1)).filter (fun c => c.1 != 0) =
      s.chip.filter (fun c => c.1 == 1) := by
    have hsame : ∀ a : Nat, (a ≠ 0 ∧ (a = 0 ∨ a = 1)) ↔ a = 1 := by omega
    rw [List.filter_filter]
    exact List.filter_congr fun c _ => Bool.eq_iff_iff.2 (by simpa using hsame c.1)
  exact hforget

/-- The second write failed, 0x00 alone is known (U2, R127). -/
theorem chipAfter_beginEntries_failed_second (s : State) :
    (failedAt (beginEntries s.params) 1).foldl chipAfterEvent (s.chip.filter (fun c => c.1 == 0 || c.1 == 1)) =
      [(0x00, 0x01)] := write_init0_forgetBesideInit s 0x01

/-- Settles O47: with the bus initialised BEGIN goes on through its entries or is cut in them, and each choice of failures has
its lemma about the register file. -/
theorem beginSequence : Obligations.BeginSequence := by
  intro s l hs start mid
  refine ⟨fun hok => ?_, fun hfail hp => ?_, fun hfail hp => ?_, fun oks hp hlen hstatus => ?_⟩
  · have hstatuses : withStatuses (beginEntries s.params) [true, true] = beginEntries s.params := rfl
    have hrun := exec_begin_goesOn (oks := [true, true]) hs (.inl (by simp)) rfl hok
    rwa [hstatuses, continued_busInitialised, chipAfter_beginEntries] at hrun
  · rw [exec_begin_aborts (j := 0) hs hp Nat.two_pos hfail, ← chipAfter_beginEntries_failed_first s]
    rfl
  · have htrace : s.trace ++ start ++ mid ++ [.memWrite s.params.devAddr 0x01 0x14 false] =
        s.trace ++ start ++ failedAt (beginEntries s.params) 1 := List.append_assoc _ _ _
    rw [exec_begin_aborts (j := 1) hs hp Nat.one_lt_two hfail, ← chipAfter_beginEntries_failed_second s, htrace]
    rfl
  · have hrun := exec_begin_goesOn hs (.inr hp) hlen hstatus
    rwa [continued_busInitialised] at hrun

/-! ## SWRESET (R118) -/

/-- `s` after the broadcast reset's transaction with status `ok`: no register known, whichever it is (R118; log entry 10). -/
def resetTried (ok : Bool) (l : List Bool) (s : State) : State :=
  { s with
    statusIn := l
    chip := []
    epoch := s.epoch + 1
    trace := s.trace ++ [.busWrite resetDev resetMagic ok] }

/-- The broadcast reset's transaction, whatever its status. -/
theorem perform_resetTried {cmd : Word} {rest : List MicroOp} {k : Nat} {s : State} {ok : Bool} {l : List Bool}
    (h : s.statusIn = ok :: l) :
    perform (.busWrite resetDev resetMagic) cmd rest k s =
      if ok then goOn cmd rest (k + 1) (resetTried ok l s) else afterFailure cmd rest k (resetTried ok l s) := by
  have heffect : ∀ u, busEffect resetDev resetMagic ok u = forgetChip u := fun u => if_pos rfl
  simp only [perform, chkBus, nextStatus_cons h, popStatus_cons h, heffect]
  rfl

/-- An Idle sequencer accepts SWRESET and performs its script. -/
theorem exec_swreset_runs {s : State} (hs : s.seq = .idle) :
    exec .swreset s = .next (runFrom (encode .swreset) [.busWrite resetDev resetMagic, .respond 0] 0 s) :=
  runCommand_idle hs rfl

/-- SWRESET, its failure not ending it. -/
theorem exec_swreset_goesOn {s : State} {ok : Bool} {l : List Bool} (hs : s.seq = .idle) (h : s.statusIn = ok :: l)
    (hp : ok = true ∨ s.params.busFail = .continue_) : exec .swreset s = .next (respond 0 (resetTried ok l s)) := by
  have hgo : perform (.busWrite resetDev resetMagic) (encode .swreset) [.respond 0] 0 s =
      goOn (encode .swreset) [.respond 0] 1 (resetTried ok l s) := by
    rw [perform_resetTried h]
    cases ok
    · have hc : (resetTried false l s).params.busFail = .continue_ :=
        hp.resolve_left Bool.false_ne_true
      rw [if_neg Bool.false_ne_true, afterFailure, hc]
    · rfl
  rw [exec_swreset_runs hs, runFrom_settle hgo, settle_respond]

/-- SWRESET, its transaction failing under Abort. -/
theorem exec_swreset_aborts {s : State} {l : List Bool} (hs : s.seq = .idle) (h : s.statusIn = false :: l)
    (hp : s.params.busFail = .abort) :
    exec .swreset s = .next (raise .busTransportFailure 0 (resetTried false l s)) := by
  have hraise : perform (.busWrite resetDev resetMagic) (encode .swreset) [.respond 0] 0 s =
      raise .busTransportFailure 0 (resetTried false l s) := by
    have hc : (resetTried false l s).params.busFail = .abort := hp
    rw [perform_resetTried h, if_neg Bool.false_ne_true, afterFailure, hc]
  rw [exec_swreset_runs hs, runFrom_end (by rw [hraise, paused_raise]), hraise]

/-- Settles O48: SWRESET's one transaction makes every register unknown, then the command responds or is raised. -/
theorem swresetSequence : Obligations.SwresetSequence := by
  refine fun s l hs => ⟨fun hok => ?_, fun hfail hp => ?_, fun hfail hp => ?_⟩
  · exact exec_swreset_goesOn hs hok (.inl rfl)
  · exact exec_swreset_aborts hs hfail hp
  · exact exec_swreset_goesOn hs hfail (.inr hp)

end Sys2Proof.Machine
end

section
/-! The exceptions (60_exceptions.md): the machine always answers (R120), and the preconditions of the fades and CFGSPEED
(R123, R129). -/

namespace Sys2Proof.Machine

open Sys2Proof Sys2Proof.Config

/-! ## The machine always answers (R120) -/

/-- An Idle sequencer answers every command, ill-formed ones too (R67). -/
theorem exec_idle_answers (i : Instr) {s : State} (hs : s.seq = .idle) : ∃ t, exec i s = .next t := by
  rw [exec_eq_runCommand]
  cases hw : i.wellFormed with
  | true => exact ⟨_, runCommand_idle hs hw⟩
  | false => exact ⟨_, runCommand_illegal hs hw⟩

/-- An Idle sequencer waits, runs the command presented, or rejects its word (R67, R140). -/
theorem step_idle_answers {s : State} (hs : s.seq = .idle) : ∃ t, step s = .next t := by
  unfold step
  rw [hs]
  dsimp only
  split
  · exact ⟨_, rfl⟩
  next w rest _ =>
    split
    · exact exec_idle_answers _ rfl
    · exact ⟨_, rfl⟩

/-- Settles O60: Idle it answers whatever is presented, and at its loop head a MOVE polls. -/
theorem stepAlwaysAnswers : Obligations.StepAlwaysAnswers := by
  intro s hinv
  obtain ⟨-, hidle | ⟨p1, p2, p3, p4, cnt, k, c, hhead, -⟩⟩ := (inv_iff s).mp hinv
  · exact step_idle_answers hidle
  · exact ⟨_, (step_atLoopHead hhead).trans (exec_move_atLoopHead hhead)⟩

/-! ## Preconditions (R123, R129) -/

theorem exec_fadein_zero {s : State} (ch : Chan) (dur : BitVec 32) (hs : s.seq = .idle) :
    exec (.fadein ch 0 dur) s = .next (errored s .divisionPrecondition 0) := by
  rw [exec, execFadein, runCommand_idle hs rfl, scriptFadein, if_pos rfl, runFrom_raise, raise_eq]

/-- FADEOUT whose start duty is not above its target raises once it is read. -/
theorem exec_fadeout_raises {s : State} {ch : Chan} {tgt d0 : Byte} {ok : Bool} {l : List Bool} {bs : List Byte}
    (dur : BitVec 32) (hs : s.seq = .idle) (hstatus : s.statusIn = ok :: l)
    (hp : ok = true ∨ s.params.busFail = .continue_) (ha : answersAll s [startRead s.params ch ok d0] bs)
    (hle : d0.toNat ≤ tgt.toNat) :
    exec (.fadeout ch tgt dur) s = .next (errored
      { s with statusIn := l, readIn := bs, trace := s.trace ++ [startRead s.params ch ok d0] }
      .divisionPrecondition d0.toNat) := by
  rw [exec_fadeout_settle ch tgt dur hs, settle_read_goesOn hstatus hp ha, afterRead, fadeOutFrom,
    if_pos (BitVec.le_def.mpr hle), List.cons_append, settle_raise, raise_eq]
  rfl

/-- Settles O27: FADEIN and CFGSPEED raise at once, FADEOUT once its read has answered; a read that fails under Abort
ends it before (R129). -/
theorem preconditionsRaise : Obligations.PreconditionsRaise := by
  refine ⟨fun s ch dur hs => exec_fadein_zero ch dur hs, fun s speed steps hs hzero => ?_,
    fun s ch tgt dur ok l d0 bs hs hstatus hread hle => ?_, fun s ch tgt dur l hs hstatus hp => ?_⟩
  · rw [exec_cfgspeed speed steps hs, if_pos hzero, raise_eq]
  · obtain ⟨rfl, hanswer⟩ | ⟨rfl, hp, hbyte⟩ := hread
    · exact exec_fadeout_raises dur hs hstatus (.inl rfl) ⟨bs, hanswer, rfl⟩ hle
    · exact exec_fadeout_raises dur hs hstatus (.inr hp) ⟨bs, hbyte, rfl⟩ hle
  · rw [exec_fadeout_settle ch tgt dur hs, settle_read_fail hstatus hp, raise_eq]
    rfl

end Sys2Proof.Machine
end

section
/-! How a command comes to its error (60_exceptions.md): never to BusTransportFailure under Continue (R124), and to every
other one before its first write (R126). -/

namespace Sys2Proof.Machine

open Sys2Proof Sys2Proof.Config

/-! ## When a command can raise an error other than BusTransportFailure (R126) -/

/-- A micro-operation after which the command, its stepper configured as `c`, can only end with OK or BusTransportFailure. -/
def committed (c : Option Speed) : MicroOp → Prop
  | .read _ (.replaceField _ _) => True
  | .read _ (.reportMode _) => False
  | .read _ .reportByte => True
  | .read _ (.rampDown _ _ _) => False
  | .poll _ _ _ _ => c ≠ none
  | .raise _ _ => False
  | _ => True

theorem committed_of_plainOp {op : MicroOp} (h : plainOp op = true) (c : Option Speed) : committed c op := by
  cases op with
  | read a next =>
    cases next with
    | replaceField ch m => trivial
    | _ => cases h
  | write a v => trivial
  | delay d => trivial
  | _ => cases h

theorem committed_of_all_plainOp {pos : List MicroOp} (h : pos.all plainOp = true) (c : Option Speed) :
    ∀ op ∈ pos, committed c op :=
  fun op hop => committed_of_plainOp (List.all_eq_true.mp h op hop) c

theorem committed_append_respond {pre : List MicroOp} (h : pre.all plainOp = true) (d : Byte) (c : Option Speed) :
    ∀ op ∈ pre ++ [.respond d], committed c op :=
  List.forall_mem_append.mpr ⟨committed_of_all_plainOp h c, by simp [committed]⟩

/-- What follows a read raises an error of R84 or R123 at once, or is committed. -/
theorem afterRead_cases (pr : Params) (next : ReadThen) (b : Byte) (c : Option Speed) :
    (∃ e info, e ≠ .busTransportFailure ∧ afterRead pr next b = [.raise e info]) ∨
    ∀ op ∈ afterRead pr next b, committed c op := by
  cases next with
  | replaceField ch m => exact .inr (committed_of_all_plainOp rfl c)
  | reportMode ch =>
    simp only [afterRead]
    split
    · exact .inr (by simp [committed])
    · exact .inl ⟨_, _, by decide, rfl⟩
  | reportByte => exact .inr (by simp [afterRead, committed])
  | rampDown ch tgt dur =>
    obtain ⟨info, hraise⟩ | hplain := fadeOutFrom_cases pr ch b tgt dur
    · exact .inl ⟨_, info, by decide, hraise⟩
    · exact .inr (committed_of_all_plainOp hplain c)

/-- How a command accepted in `s` can come to an error other than BusTransportFailure: its script raises it at once with no
register written, or makes one read first, or is committed from its start. -/
inductive ErrorCourse (s : State) : State → List MicroOp → Prop where
  | raises {e : ErrorKind} (info : Nat) (he : e ≠ .busTransportFailure) : ErrorCourse s s [.raise e info]
  | reads (a : Byte) (next : ReadThen) {rest : List MicroOp} (hrest : ∀ op ∈ rest, committed s.speed op) :
    ErrorCourse s s (.read a next :: rest)
  | commits {start : State} {pos : List MicroOp} (hpos : ∀ op ∈ pos, committed start.speed op) :
    ErrorCourse s start pos

theorem moveError_ne_busTransportFailure {cnt : BitVec 32} {s : State} {e : ErrorKind} (h : moveError cnt s = some e) :
    e ≠ .busTransportFailure := by
  rintro rfl
  unfold moveError at h
  split at h
  · cases h
  · split at h
    · cases h
    · split at h <;> cases h

theorem scriptMove_errorCourse (p1 p2 p3 p4 : Chan) (cnt : BitVec 32) (s : State) :
    ErrorCourse s (moveStarted cnt s) (scriptMove p1 p2 p3 p4 cnt s) := by
  cases herr : moveError cnt s with
  | some e =>
    rw [scriptMove, moveStarted, herr]
    exact .raises 0 (moveError_ne_busTransportFailure herr)
  | none =>
    rw [scriptMove, herr]
    dsimp only
    split
    · exact .commits (by simp [committed])
    next hcnt =>
      obtain ⟨-, c, hc, -⟩ := loopReady_moveStarted herr hcnt
      exact .commits (by simp [committed, hc])

theorem commandScript_errorCourse (i : Instr) (s : State) :
    ErrorCourse s (commandStart i s) (commandScript i s) := by
  cases i with
  | setmode ch mode all =>
    simp only [commandScript, scriptSetmode]
    split
    · exact .commits (committed_append_respond (by split <;> rfl) 0 _)
    · exact .raises _ (by decide)
  | getmode ch => exact .reads _ _ (by simp)
  | readduty ch => exact .reads _ _ (by simp)
  | allon dp dir => exact .commits (committed_append_respond (by cases dp <;> cases dir <;> rfl) 0 _)
  | fadein ch tgt dur =>
    by_cases htgt : tgt = 0
    · simp only [commandScript, scriptFadein, if_pos htgt]
      exact .raises _ (by decide)
    · simp only [commandScript, scriptFadein_eq ch htgt]
      exact .commits (committed_append_respond (List.all_eq_true.mpr (Fade.ops_plain _)) 0 _)
  | fadeout ch tgt dur => exact .reads _ _ (by simp [committed])
  | cfgspeed speed steps =>
    simp only [commandScript, commandStart, scriptCfgspeed, configured]
    split
    · exact .raises _ (by decide)
    · exact .commits (by simp [committed])
  | move p1 p2 p3 p4 cnt => exact scriptMove_errorCourse p1 p2 p3 p4 cnt s
  | writeduty ch val => exact .commits (committed_append_respond (pre := [_]) rfl 0 _)
  | turnon ch => exact .commits (committed_append_respond rfl 0 _)
  | turnoff ch => exact .commits (committed_append_respond rfl 0 _)
  | setpwm ch val => exact .commits (committed_append_respond rfl 0 _)
  | alloff => exact .commits (committed_append_respond rfl 0 _)
  | begin => exact .commits (by simp [commandScript, scriptBegin, committed])
  | swreset => exact .commits (by simp [commandScript, scriptSwreset, committed])

/-! ## No BusTransportFailure under Continue (R124) -/

/-- A response BusTransportFailure. -/
def isBusFailure : Event → Bool
  | .raised .busTransportFailure _ => true
  | _ => false

/-- The BusTransportFailure responses recorded so far. -/
def busFailures (s : State) : List Event := s.trace.filter isBusFailure

theorem busFailures_of_trace {s t : State} {e : Event} (htrace : t.trace = s.trace ++ [e]) (he : isBusFailure e = false) :
    busFailures t = busFailures s := by
  simp [busFailures, htrace, he]

theorem busFailures_raise {e : ErrorKind} (he : e ≠ .busTransportFailure) (info : Nat) (s : State) :
    busFailures (raise e info s) = busFailures s := by
  cases e with
  | busTransportFailure => exact absurd rfl he
  | _ => exact busFailures_of_trace rfl rfl

/-- Under Continue a failed transaction is no response (R15). -/
theorem busFailures_afterFailure {s : State} (hp : s.params.busFail = .continue_) (cmd : Word) (pos : List MicroOp)
    (k : Nat) : busFailures (afterFailure cmd pos k s) = busFailures s := by
  rw [afterFailure, hp]
  rfl

theorem busFailures_polled {p1 p2 p3 p4 : Chan} {cmd : Word} {rest : List MicroOp} {k : Nat} {s u : State}
    (h : Polled p1 p2 p3 p4 cmd rest k s u) : busFailures u = busFailures s := by
  cases h with
  | left _ => rfl
  | unconfigured _ => exact busFailures_raise (by decide) _ _
  | waits => exact busFailures_of_trace (sampled_trace s) rfl
  | steps c _ _ _ _ => exact busFailures_of_trace (stepped_trace c s) rfl

/-- A micro-operation that does not itself raise BusTransportFailure. -/
def raisesNoBusFailure (op : MicroOp) : Prop := ∀ info, op ≠ .raise .busTransportFailure info

/-- Under Continue such a micro-operation ends no command with BusTransportFailure, whether its transaction fails or not. -/
theorem perform_busFailures {op : MicroOp} (hop : raisesNoBusFailure op) (cmd : Word) (rest : List MicroOp) (k : Nat)
    {s : State} (hp : s.params.busFail = .continue_) : busFailures (perform op cmd rest k s) = busFailures s := by
  cases op with
  | read a next =>
    obtain ⟨t, hraise⟩ | ⟨ok, b, t, hgo, htrace⟩ := perform_read_cases a next cmd rest k s
    · simp only [perform, chkRead, hp] at hraise
      split at hraise <;> exact absurd (congrArg State.seq hraise) (by simp)
    · rw [hgo]
      exact busFailures_of_trace htrace rfl
  | write a v =>
    simp only [perform, chkWrite]
    split
    · exact busFailures_of_trace (e := .memWrite s.params.devAddr a v (nextStatus s)) (by simp) rfl
    · rw [busFailures_afterFailure (by simpa using hp)]
      exact busFailures_of_trace (e := .memWrite s.params.devAddr a v (nextStatus s)) (by simp) rfl
  | busWrite dev bytes =>
    obtain ⟨hparams, -, -, htrace⟩ :=
      busEffect_frame dev bytes (nextStatus s) (emit (.busWrite dev bytes (nextStatus s)) (popStatus s))
    simp only [perform, chkBus]
    split
    · exact busFailures_of_trace (e := .busWrite dev bytes (nextStatus s)) (by simp [htrace]) rfl
    · rw [busFailures_afterFailure (by simpa [hparams] using hp)]
      exact busFailures_of_trace (e := .busWrite dev bytes (nextStatus s)) (by simp [htrace]) rfl
  | busInit => exact busFailures_of_trace (e := .busInit) rfl rfl
  | pinWrite level => exact busFailures_of_trace (e := .pinWrite level) rfl rfl
  | delay d => exact busFailures_of_trace (e := .delay d) rfl rfl
  | poll p1 p2 p3 p4 => exact busFailures_polled (perform_poll p1 p2 p3 p4 cmd rest k s)
  | respond data => exact busFailures_of_trace (e := .responded data) rfl rfl
  | raise e info => exact busFailures_raise (fun he => hop info (he ▸ rfl)) info s

theorem raisesNoBusFailure_of_committed {c : Option Speed} {op : MicroOp} (h : committed c op) :
    raisesNoBusFailure op := by
  rintro info rfl
  exact h

theorem raisesNoBusFailure_singleton {e : ErrorKind} (he : e ≠ .busTransportFailure) (info : Nat) :
    ∀ op ∈ [MicroOp.raise e info], raisesNoBusFailure op := by
  simp [raisesNoBusFailure, he]

theorem afterRead_raisesNoBusFailure (pr : Params) (next : ReadThen) (b : Byte) :
    ∀ op ∈ afterRead pr next b, raisesNoBusFailure op := by
  obtain ⟨e, info, he, hraise⟩ | hcommitted := afterRead_cases pr next b none
  · rw [hraise]
    exact raisesNoBusFailure_singleton he info
  · exact fun op hop => raisesNoBusFailure_of_committed (hcommitted op hop)

theorem ErrorCourse.raisesNoBusFailure {s start : State} {pos : List MicroOp} (h : ErrorCourse s start pos) :
    ∀ op ∈ pos, raisesNoBusFailure op := by
  cases h with
  | raises info he => exact raisesNoBusFailure_singleton he info
  | reads a next hrest =>
    exact List.forall_mem_cons.mpr ⟨fun _ => MicroOp.noConfusion,
      fun op hop => raisesNoBusFailure_of_committed (hrest op hop)⟩
  | commits hpos => exact fun op hop => raisesNoBusFailure_of_committed (hpos op hop)

/-- Under Continue a script of such micro-operations records no BusTransportFailure. -/
theorem runFrom_busFailures {pos : List MicroOp} (hpos : ∀ op ∈ pos, raisesNoBusFailure op) (cmd : Word) (k : Nat)
    {s : State} (hp : s.params.busFail = .continue_) : busFailures (runFrom cmd pos k s) = busFailures s :=
  runFrom_keeps_of (P := fun t => busFailures t = busFailures s) (A := raisesNoBusFailure) (pr := s.params)
    (fun _ next b _ => afterRead_raisesNoBusFailure _ next b)
    (fun p1 p2 p3 p4 ph d _ op hop =>
      raisesNoBusFailure_of_committed (committed_of_all_plainOp (phaseWrite_plain _ ph d p1 p2 p3 p4) none op hop))
    (fun _ _ _ _ h => h)
    (fun _ c rest n _ hop hparams h => (perform_busFailures hop c rest n (hparams ▸ hp)).trans h) hpos rfl rfl

theorem exec_busFailures {i : Instr} {s t : State} (hseq : seqInv s) (hp : s.params.busFail = .continue_)
    (h : exec i s = .next t) : busFailures t = busFailures s := by
  obtain rfl | ⟨-, rfl⟩ | ⟨p1, p2, p3, p4, cnt, k, -, rfl⟩ := exec_next_of_seqInv hseq h
  · obtain ⟨hparams, -, htrace⟩ := commandStart_frame i s
    rw [runFrom_busFailures (commandScript_errorCourse i s).raisesNoBusFailure _ _ (hparams ▸ hp), busFailures, htrace,
      busFailures]
  · exact busFailures_raise (by decide) _ _
  · exact runFrom_busFailures (by simp [raisesNoBusFailure]) _ _ hp

/-- Settles O55: the trace grows (O53), and holds after the command the BusTransportFailures it held before. -/
theorem continueNeverRaisesBusFailure : Obligations.ContinueNeverRaisesBusFailure := by
  intro i s t hseq hp h
  obtain ⟨-, -, events, htrace⟩ := parametersAndTraceFrame i s t h
  have hsame := exec_busFailures hseq hp h
  simp only [busFailures, htrace, List.filter_append, List.append_right_eq_self, List.filter_eq_nil_iff] at hsame
  exact ⟨events, htrace, fun info hmem => hsame _ hmem rfl⟩

/-! ## Every other error leaves the state unchanged (R126) -/

/-- The command has ended with an error other than BusTransportFailure. -/
def endedWithError (s : State) : Prop :=
  s.seq = .idle ∧ ∃ e info, s.trace.getLast? = some (.raised e info) ∧ e ≠ .busTransportFailure

theorem not_endedWithError_goOn (cmd : Word) (pos : List MicroOp) (k : Nat) (s : State) :
    ¬ endedWithError (goOn cmd pos k s) := by
  rintro ⟨⟨⟩, -⟩

theorem not_endedWithError_respond (d : Byte) (s : State) : ¬ endedWithError (respond d s) := by
  simp [endedWithError]

theorem not_endedWithError_raise_busTransportFailure (info : Nat) (s : State) :
    ¬ endedWithError (raise .busTransportFailure info s) := by
  simp [endedWithError]

theorem not_endedWithError_afterFailure (cmd : Word) (pos : List MicroOp) (k : Nat) (s : State) :
    ¬ endedWithError (afterFailure cmd pos k s) := by
  unfold afterFailure
  split
  · exact not_endedWithError_raise_busTransportFailure k s
  · exact not_endedWithError_goOn cmd pos (k + 1) s

theorem not_endedWithError_polled {p1 p2 p3 p4 : Chan} {cmd : Word} {rest : List MicroOp} {k : Nat} {s u : State}
    (hspeed : s.speed ≠ none) (h : Polled p1 p2 p3 p4 cmd rest k s u) : ¬ endedWithError u := by
  cases h with
  | unconfigured hnone => exact absurd hnone hspeed
  | _ => exact not_endedWithError_goOn _ _ _ _

theorem perform_committed {s : State} {op : MicroOp} (hop : committed s.speed op) (cmd : Word) (rest : List MicroOp)
    (k : Nat) : ¬ endedWithError (perform op cmd rest k s) := by
  cases op with
  | read a next =>
    obtain ⟨t, hraise⟩ | ⟨ok, b, t, hgo, -⟩ := perform_read_cases a next cmd rest k s
    · rw [hraise]
      exact not_endedWithError_raise_busTransportFailure k t
    · rw [hgo]
      exact not_endedWithError_goOn _ _ _ _
  | write a v =>
    simp only [perform, chkWrite]
    split
    · exact not_endedWithError_goOn _ _ _ _
    · exact not_endedWithError_afterFailure _ _ _ _
  | busWrite dev bytes =>
    simp only [perform, chkBus]
    split
    · exact not_endedWithError_goOn _ _ _ _
    · exact not_endedWithError_afterFailure _ _ _ _
  | busInit => exact not_endedWithError_goOn _ _ _ _
  | pinWrite level => exact not_endedWithError_goOn _ _ _ _
  | delay d => exact not_endedWithError_goOn _ _ _ _
  | poll p1 p2 p3 p4 => exact not_endedWithError_polled hop (perform_poll p1 p2 p3 p4 cmd rest k s)
  | respond data => exact not_endedWithError_respond data s
  | raise e info => exact hop.elim

/-- What follows a committed read is committed. -/
theorem afterRead_committed {c : Option Speed} {a : Byte} {next : ReadThen} (h : committed c (.read a next))
    (pr : Params) (b : Byte) : ∀ op ∈ afterRead pr next b, committed c op := by
  cases next with
  | replaceField ch m => exact committed_of_all_plainOp rfl c
  | reportByte => simp [afterRead, committed]
  | reportMode ch => exact h.elim
  | rampDown ch tgt dur => exact h.elim

theorem runFrom_committed {s : State} {pos : List MicroOp} (hpos : ∀ op ∈ pos, committed s.speed op) (cmd : Word)
    (k : Nat) : ¬ endedWithError (runFrom cmd pos k s) :=
  (runFrom_keeps_of (P := fun t => t.speed = s.speed ∧ ¬ endedWithError t) (A := committed s.speed) (pr := s.params)
    (s := goOn cmd pos k s) (fun _ _ b h => afterRead_committed h _ b)
    (fun p1 p2 p3 p4 ph d _ => committed_of_all_plainOp (phaseWrite_plain _ ph d p1 p2 p3 p4) _)
    (fun c p n t ⟨hspeed, _⟩ => ⟨hspeed, not_endedWithError_goOn c p n t⟩)
    (fun op c rest n t hop _ ⟨hspeed, _⟩ =>
      have ⟨_, _, hspeed', _⟩ := perform_frame op c rest n t
      ⟨hspeed'.trans hspeed, perform_committed (hspeed.symm ▸ hop) c rest n⟩)
    hpos rfl ⟨rfl, not_endedWithError_goOn cmd pos k s⟩).2

/-- `t` has the chip, the stepper registers and the pin of `s`. -/
def untouched (s t : State) : Prop :=
  t.chip = s.chip ∧ sameStepper s t ∧ t.en = s.en ∧ t.epoch = s.epoch ∧ t.lost = s.lost

theorem untouched_refl (s : State) : untouched s s := ⟨rfl, sameStepper_refl s, rfl, rfl, rfl⟩

theorem untouched_raise {s t : State} (h : untouched s t) (e : ErrorKind) (info : Nat) : untouched s (raise e info t) := h

/-- A read leaves everything but inputs and trace, and raises BusTransportFailure or goes on. -/
theorem perform_read_untouched (a : Byte) (next : ReadThen) (cmd : Word) (rest : List MicroOp) (k : Nat) (s : State) :
    ∃ t, untouched s t ∧ (perform (.read a next) cmd rest k s = raise .busTransportFailure k t ∨
      ∃ b, perform (.read a next) cmd rest k s = goOn cmd (afterRead s.params next b ++ rest) (k + 1) t) := by
  simp only [perform, chkRead]
  split
  · exact ⟨_, by simp [untouched, sameStepper], .inr ⟨_, rfl⟩⟩
  · split
    · exact ⟨_, by simp [untouched, sameStepper], .inl rfl⟩
    · exact ⟨_, by simp [untouched, sameStepper], .inr ⟨_, rfl⟩⟩

theorem settle_committed {s : State} {pos : List MicroOp} (hpos : ∀ op ∈ pos, committed s.speed op) (cmd : Word)
    (k : Nat) : ¬ endedWithError (settle cmd pos k s) := by
  unfold settle
  split
  · exact not_endedWithError_goOn cmd pos k s
  · exact runFrom_committed hpos cmd k

/-- A command that begins with a read raises its error from what the read left, or not at all. -/
theorem runFrom_read_untouched {a : Byte} {next : ReadThen} {rest : List MicroOp} {cmd : Word} {k : Nat} {s : State}
    (hrest : ∀ op ∈ rest, committed s.speed op) (h : endedWithError (runFrom cmd (.read a next :: rest) k s)) :
    untouched s (runFrom cmd (.read a next :: rest) k s) := by
  obtain ⟨t, ht, hfail | ⟨b, hgo⟩⟩ := perform_read_untouched a next cmd rest k s
  · rw [runFrom_end (by rw [hfail, paused_raise]), hfail] at h
    exact absurd h (not_endedWithError_raise_busTransportFailure k t)
  · rw [runFrom_settle hgo] at h ⊢
    obtain ⟨e, info, -, hraise⟩ | hcommitted := afterRead_cases s.params next b s.speed
    · rw [hraise, List.cons_append, settle_raise]
      exact untouched_raise ht e info
    · obtain ⟨-, ⟨hspeed, -⟩, -⟩ := ht
      have hpos : ∀ op ∈ afterRead s.params next b ++ rest, committed t.speed op := by
        rw [hspeed]
        exact List.forall_mem_append.mpr ⟨hcommitted, hrest⟩
      exact absurd h (settle_committed hpos cmd (k + 1))

theorem ErrorCourse.untouched {s start : State} {pos : List MicroOp} (hcourse : ErrorCourse s start pos) {cmd : Word}
    {k : Nat} (h : endedWithError (runFrom cmd pos k start)) : untouched s (runFrom cmd pos k start) := by
  cases hcourse with
  | raises info _ =>
    rw [runFrom_raise]
    exact untouched_raise (untouched_refl s) _ _
  | reads a next hrest => exact runFrom_read_untouched hrest h
  | commits hpos => exact absurd h (runFrom_committed hpos cmd k)

/-- Settles O54: a script comes to such an error at once or after one read (`commandScript_errorCourse`), and an ill-formed
command raises at once. -/
theorem errorsLeaveStateUnchanged : Obligations.ErrorsLeaveStateUnchanged := by
  intro i s t e info hidle h hlast hended he
  have herror : endedWithError t := ⟨hended, e, info, hlast, he⟩
  obtain ⟨-, -, rfl⟩ | ⟨-, -, rfl⟩ | ⟨op, rest, k, hbusy, -⟩ := exec_next h
  · exact (commandScript_errorCourse i s).untouched herror
  · exact untouched_raise (untouched_refl s) _ _
  · rw [hidle] at hbusy; cases hbusy

end Sys2Proof.Machine
end
